-- ==== Sys2Proof/Word.lean ====
section
/-! DEFINITION. The widths of the LNS block's numbers (spec/00_scope.md R8, R9, R10). -/

namespace Sys2Proof

/-- One byte of memory, and one byte on the wire (R10). -/
abbrev Byte := BitVec 8

/-- An operand word, a result word, an address, a length or an offset: `XLEN` = 64 bits (R8). -/
abbrev Word := BitVec 64

end Sys2Proof
end

