-- ==== Sys2Proof/Config.lean ====
section
/-! DEFINITION. The parameters of an instance of the block (spec/00_scope.md R8) and the free values.

`XLEN`, `PAGE_SIZE` and `NCUR` are constants, because R8 fixes their values. The parameters R8 leaves OPEN (`IMAGE_END`,
`NPORT`, `MemMap`, `IoMap`), and `DMA_LIMIT`, which a platform may lower, are the fields of `Config`: plain data, so that
"for every configuration" can be said and every configuration can be written out (log 1). -/

namespace Sys2Proof

/-- `2 ^ XLEN`: the number of byte addresses, and the first number that is not an address (R8, R50). -/
abbrev addrLimit : Nat := 2 ^ 64

/-- `PAGE_SIZE`, the bytes of one page of `DMA.ALLOC` and `DMA.ALLOCB` (R8). -/
abbrev pageSize : Nat := 4096

/-- `NCUR`, the number of cursor slots (R8). -/
abbrev ncur : Nat := 4

/-- The addresses from `lo` up to but not including `hi`. -/
structure Region where
  lo : Nat
  hi : Nat
  deriving DecidableEq, Repr

/-- The parameters of one instance. The block's commands read `dmaLimit` and, at an access, the two maps; no command
writes one (spec/10_state.md R25). -/
structure Config where
  /-- `IMAGE_END`, the first value of the watermark. OPEN in R8. -/
  imageEnd : Nat
  /-- `DMA_LIMIT`, the first address the allocator may not hand out. -/
  dmaLimit : Nat
  /-- `NPORT`, the number of requester ports. OPEN in R8. -/
  nport : Nat
  /-- `MemMap`, the byte addresses that ordinary memory backs. OPEN in R8. -/
  memMap : List Region
  /-- `IoMap`, the byte addresses at which device registers live. OPEN in R8. -/
  ioMap : List Region
  deriving DecidableEq, Repr

/-- The instance of the spec's own test vectors (spec/95_test_vectors.md, its opening, and program P3 for the device
window): `IMAGE_END` = 0x80200000, `DMA_LIMIT` = 2^64, one port, a device window at 0x10001000 .. 0x100011FF and memory
everywhere else. DESIGN CHOICE for the OPEN parameters, unsafe for a claim about this one instance only (log 2). -/
def Config.vectors : Config where
  imageEnd := 0x80200000
  dmaLimit := 2 ^ 64
  nport := 1
  memMap := [⟨0, 0x10001000⟩, ⟨0x10001200, 2 ^ 64⟩]
  ioMap := [⟨0x10001000, 0x10001200⟩]

/-- FREE VALUE: what the byte of ordinary memory at an address holds while nothing has written it
(spec/93_implementation_defined.md U17: any value). No body: nothing can be proved of it. Safe (log 3). -/
opaque Config.initialByte : Nat → BitVec 8

/-- FREE VALUE: byte `lane` of what the device answers to draw number `draw` (spec/20_memory.md R47,
spec/93_implementation_defined.md U4: any value, drawn on every read, under no law). No body. Safe (log 7). -/
opaque Config.deviceByte : (draw lane : Nat) → BitVec 8

end Sys2Proof
end

