-- ==== Sys2Proof/Syntax.lean ====
section
/-! DEFINITION. The commands of the block (spec/30_encoding.md R75): one constructor of `Instr` per row of
spec/opcode_table.json, and the packet that carries one (R70). -/

namespace Sys2Proof

/-- The header types of R73, `T` = 0 to 5, in the table's order. -/
inductive HdrType where
  | eth | arp | ip | udp | tcp | icmp
  deriving DecidableEq, Repr

/-- The field names of R76, each once; one name may be a field of several header types. -/
inductive Field where
  | dhost | shost | rtype
  | httype | pttype | hlen | plen | op | sha | spa | tha | tpa
  | vhl | tos | len | id | off | ttl | pro | sum | src | dst | ver | ihl
  | sport | dport | ulen
  | seq | ack | offset | flags | win | urg
  | type | code | checksum
  deriving DecidableEq, Repr

/-- What `CUR.NEXT` and `CUR.NEXTM` extract: a header type, or RAW with the size of operand word `A0` (R73). -/
inductive ViewType where
  | hdr (t : HdrType)
  | raw (size : Word)
  deriving DecidableEq, Repr

/-- A cursor slot number, `K < NCUR` (R74). -/
abbrev Slot := Fin ncur

/-- The 25 commands of R75. Every numeric operand is a whole operand word (R78), in the order of the operand words. -/
inductive Instr where
  /-- `FGET`, R117. -/
  | fget (t : HdrType) (f : Field) (addr : Word)
  /-- `FPUT`, R118. -/
  | fput (t : HdrType) (f : Field) (addr v : Word)
  /-- `HDR.SIZE`, R116. -/
  | hdrSize (t : HdrType)
  /-- `CLS.RTYPE`, R119. -/
  | clsRtype (v : Word)
  /-- `CLS.PROTO`, R120. -/
  | clsProto (v : Word)
  /-- `TF.UNION`, R121. -/
  | tfUnion (a b : Word)
  /-- `TF.INTER`, R122. -/
  | tfInter (a b : Word)
  /-- `TF.CONTAINS`, R123. -/
  | tfContains (a b : Word)
  /-- `TF.DEC`, R124. -/
  | tfDec (b : Word)
  /-- `CSUM`, R142. -/
  | csum (addr len seed : Word)
  /-- `CUR.OPEN`, R161. -/
  | curOpen (k : Slot) (base len : Word)
  /-- `CUR.NEXT`, R162. -/
  | curNext (k : Slot) (v : ViewType)
  /-- `CUR.NEXTM`, R163. -/
  | curNextm (k : Slot) (v : ViewType)
  /-- `CUR.REM`, R164. -/
  | curRem (k : Slot)
  /-- `CUR.REMM`, R165. -/
  | curRemm (k : Slot)
  /-- `DMA.ALLOC`, R181. -/
  | dmaAlloc (pages : Word)
  /-- `DMA.ALLOCB`, R182. -/
  | dmaAllocb (pages : Word)
  /-- `TO.PADDR`, R183. -/
  | toPaddr (vaddr : Word)
  /-- `Q.LAYOUT`, R185. -/
  | qLayout (base len d a u : Word)
  /-- `IO.R8`, R187. -/
  | ioR8 (base len off : Word)
  /-- `IO.R32`, R188. -/
  | ioR32 (base len off : Word)
  /-- `IO.W8`, R189. -/
  | ioW8 (base len off value : Word)
  /-- `IO.W32`, R190. -/
  | ioW32 (base len off value : Word)
  /-- `IO.PADDR`, R191. -/
  | ioPaddr (base len : Word)
  /-- `IO.VADDR`, R192. -/
  | ioVaddr (base len : Word)
  deriving DecidableEq, Repr

/-- A command packet (R70): the command word `CW` and the six operand words `A[0] .. A[5]`. An operand word left out of
a literal is zero, as in the spec's listings (R85). -/
structure Packet where
  cw : BitVec 32
  a0 : Word := 0
  a1 : Word := 0
  a2 : Word := 0
  a3 : Word := 0
  a4 : Word := 0
  a5 : Word := 0
  deriving DecidableEq, Repr

end Sys2Proof
end

