-- ==== Sys2Proof/WellFormed.lean ====
section
/-! DEFINITION. Which terms of `Instr` are commands of the block. The selectors `T` and `K` are legal by their types;
what is left to check is R76, that the field named by `FGET` or `FPUT` is a field of the header type it names. -/

namespace Sys2Proof

/-- The fields of each header type, whole fields in declaration order, then the sub-byte fields (R76). -/
def HdrType.fields : HdrType → List Field
  | .eth => [.dhost, .shost, .rtype]
  | .arp => [.httype, .pttype, .hlen, .plen, .op, .sha, .spa, .tha, .tpa]
  | .ip => [.vhl, .tos, .len, .id, .off, .ttl, .pro, .sum, .src, .dst, .ver, .ihl]
  | .udp => [.sport, .dport, .ulen, .sum]
  | .tcp => [.sport, .dport, .seq, .ack, .offset, .flags, .win, .sum, .urg]
  | .icmp => [.type, .code, .checksum, .id, .seq]

/-- `f` is a field of header type `t` (R76). -/
def HdrType.hasField (t : HdrType) (f : Field) : Bool := t.fields.contains f

/-- The instruction is one the encoding can express (R76, R77, R80 step 4). -/
def Instr.wf : Instr → Bool
  | .fget t f _ => t.hasField f
  | .fput t f _ _ => t.hasField f
  | .hdrSize _ => true
  | .clsRtype _ => true
  | .clsProto _ => true
  | .tfUnion _ _ => true
  | .tfInter _ _ => true
  | .tfContains _ _ => true
  | .tfDec _ => true
  | .csum _ _ _ => true
  | .curOpen _ _ _ => true
  | .curNext _ _ => true
  | .curNextm _ _ => true
  | .curRem _ => true
  | .curRemm _ => true
  | .dmaAlloc _ => true
  | .dmaAllocb _ => true
  | .toPaddr _ => true
  | .qLayout _ _ _ _ _ => true
  | .ioR8 _ _ _ => true
  | .ioR32 _ _ _ => true
  | .ioW8 _ _ _ _ => true
  | .ioW32 _ _ _ _ => true
  | .ioPaddr _ _ => true
  | .ioVaddr _ _ => true

end Sys2Proof
end

