-- ==== Sys2Proof/Decode.lean ====
section
/-! DEFINITION. The command encoding (spec/30_encoding.md): the fields of the command word (R72), the opcode map (R75),
the selectors (R73, R74, R76), the total decoder in the five steps of R80, and after it the encoder. -/

namespace Sys2Proof

/-! ## The fields of the command word (R72) -/

/-- `OP`, `CW[7:0]`. -/
def Packet.opField (p : Packet) : BitVec 8 := p.cw.extractLsb' 0 8

/-- `T`, `CW[11:8]`. -/
def Packet.tField (p : Packet) : BitVec 4 := p.cw.extractLsb' 8 4

/-- `K`, `CW[15:12]`. -/
def Packet.kField (p : Packet) : BitVec 4 := p.cw.extractLsb' 12 4

/-- `F`, `CW[23:16]`. -/
def Packet.fField (p : Packet) : BitVec 8 := p.cw.extractLsb' 16 8

/-- `Z`, `CW[31:24]`, must be zero. -/
def Packet.zField (p : Packet) : BitVec 8 := p.cw.extractLsb' 24 8

/-- Operand word `A[j]`; a packet has six (R70). -/
def Packet.operand (p : Packet) : Nat → Word
  | 0 => p.a0
  | 1 => p.a1
  | 2 => p.a2
  | 3 => p.a3
  | 4 => p.a4
  | 5 => p.a5
  | _ => 0

/-- A command word with the given fields and `Z` = 0. -/
def commandWord (op : BitVec 8) (t k : BitVec 4) (f : BitVec 8) : BitVec 32 :=
  (0#8 ++ f ++ k ++ t ++ op : BitVec 32)

/-! ## The opcode map (R75) -/

/-- The 25 opcodes of R75, in the order of its table. -/
inductive Opcode where
  | fget | fput | hdrSize | clsRtype | clsProto | tfUnion | tfInter | tfContains | tfDec
  | csum
  | curOpen | curNext | curNextm | curRem | curRemm
  | dmaAlloc | dmaAllocb | toPaddr | qLayout | ioR8 | ioR32 | ioW8 | ioW32 | ioPaddr | ioVaddr
  deriving DecidableEq, Repr

/-- The number of each opcode (R75). -/
def Opcode.code : Opcode → BitVec 8
  | .fget => 0x10
  | .fput => 0x11
  | .hdrSize => 0x12
  | .clsRtype => 0x13
  | .clsProto => 0x14
  | .tfUnion => 0x18
  | .tfInter => 0x19
  | .tfContains => 0x1A
  | .tfDec => 0x1B
  | .csum => 0x20
  | .curOpen => 0x30
  | .curNext => 0x31
  | .curNextm => 0x32
  | .curRem => 0x33
  | .curRemm => 0x34
  | .dmaAlloc => 0x40
  | .dmaAllocb => 0x41
  | .toPaddr => 0x42
  | .qLayout => 0x43
  | .ioR8 => 0x48
  | .ioR32 => 0x49
  | .ioW8 => 0x4A
  | .ioW32 => 0x4B
  | .ioPaddr => 0x4C
  | .ioVaddr => 0x4D

/-- Every opcode, in the order of R75. -/
def Opcode.all : List Opcode :=
  [.fget, .fput, .hdrSize, .clsRtype, .clsProto, .tfUnion, .tfInter, .tfContains, .tfDec, .csum,
   .curOpen, .curNext, .curNextm, .curRem, .curRemm, .dmaAlloc, .dmaAllocb, .toPaddr, .qLayout,
   .ioR8, .ioR32, .ioW8, .ioW32, .ioPaddr, .ioVaddr]

/-- The opcode an `OP` field names; `none` for every number outside the map (R82). -/
def Opcode.ofCode (b : BitVec 8) : Option Opcode := Opcode.all.find? (fun op => op.code == b)

/-- The commands that use `T` (R75, column "fields"). -/
def Opcode.usesT : Opcode → Bool
  | .fget | .fput | .hdrSize | .curNext | .curNextm => true
  | _ => false

/-- The commands that use `K` (R74, R75). -/
def Opcode.usesK : Opcode → Bool
  | .curOpen | .curNext | .curNextm | .curRem | .curRemm => true
  | _ => false

/-- The commands that use `F` (R75, R76). -/
def Opcode.usesF : Opcode → Bool
  | .fget | .fput => true
  | _ => false

/-- The `mask` of R84: `Z`, `OP`, and each of `T`, `K`, `F` exactly when the command does not use it. -/
def Opcode.mask (op : Opcode) : BitVec 32 :=
  0xFF0000FF ||| (if op.usesT then 0 else 0x00000F00) ||| (if op.usesK then 0 else 0x0000F000)
    ||| (if op.usesF then 0 else 0x00FF0000)

/-- The `match` of R84: the opcode with every other bit of the mask zero. -/
def Opcode.pattern (op : Opcode) : BitVec 32 := op.code.setWidth 32

/-! ## The selectors -/

/-- `T` as a header type (R73); 6 to 14 are illegal, 15 is RAW and no header. -/
def HdrType.ofSel (t : BitVec 4) : Option HdrType :=
  match t.toNat with
  | 0 => some .eth
  | 1 => some .arp
  | 2 => some .ip
  | 3 => some .udp
  | 4 => some .tcp
  | 5 => some .icmp
  | _ => none

/-- The number of a header type (R73). -/
def HdrType.sel : HdrType → BitVec 4
  | .eth => 0
  | .arp => 1
  | .ip => 2
  | .udp => 3
  | .tcp => 4
  | .icmp => 5

/-- The selector of RAW (R73). -/
def rawSel : BitVec 4 := 15

/-- The field selectors of each header type (R76): whole fields from 0 in declaration order, sub-byte fields from 16. -/
def HdrType.selectors : HdrType → List (BitVec 8 × Field)
  | .eth => [(0, .dhost), (1, .shost), (2, .rtype)]
  | .arp => [(0, .httype), (1, .pttype), (2, .hlen), (3, .plen), (4, .op), (5, .sha), (6, .spa), (7, .tha), (8, .tpa)]
  | .ip => [(0, .vhl), (1, .tos), (2, .len), (3, .id), (4, .off), (5, .ttl), (6, .pro), (7, .sum), (8, .src), (9, .dst),
            (16, .ver), (17, .ihl)]
  | .udp => [(0, .sport), (1, .dport), (2, .ulen), (3, .sum)]
  | .tcp => [(0, .sport), (1, .dport), (2, .seq), (3, .ack), (4, .offset), (5, .flags), (6, .win), (7, .sum), (8, .urg)]
  | .icmp => [(0, .type), (1, .code), (2, .checksum), (3, .id), (4, .seq)]

/-- `F` as a field of header type `t` (R76); any other `F` is illegal. -/
def HdrType.fieldOfSel (t : HdrType) (f : BitVec 8) : Option Field :=
  (t.selectors.find? (fun e => e.1 == f)).map Prod.snd

/-- The number of a field of header type `t` (R76); 0 for a name that is no field of `t`. -/
def HdrType.fieldSel (t : HdrType) (f : Field) : BitVec 8 :=
  match t.selectors.find? (fun e => e.2 == f) with
  | some e => e.1
  | none => 0

/-- `K` as a slot number (R74): `K < NCUR`, else illegal. -/
def slotOfSel (k : BitVec 4) : Option Slot :=
  if h : k.toNat < ncur then some ⟨k.toNat, h⟩ else none

/-- The number of a slot. -/
def slotSel (k : Slot) : BitVec 4 := BitVec.ofNat 4 k.val

/-- `T` and `A0` of `CUR.NEXT` and `CUR.NEXTM`: RAW takes its size from `A0`, a header type has its own (R73, R77). -/
def ViewType.ofSel (t : BitVec 4) (a0 : Word) : Option ViewType :=
  if t = rawSel then some (.raw a0) else (HdrType.ofSel t).map .hdr

/-- The `T` selector of a view type. -/
def ViewType.sel : ViewType → BitVec 4
  | .hdr t => t.sel
  | .raw _ => rawSel

/-- The operand word `A0` of a view type: the size for RAW, zero otherwise (R80 step 5). -/
def ViewType.word : ViewType → Word
  | .hdr _ => 0
  | .raw size => size

/-! ## The decoder (R80) -/

/-- Why a packet is illegal: the steps of R80, in order. All get the same response, `ST_ILLEGAL` (R212). -/
inductive DecodeError where
  /-- Step 1: `Z` is not zero. -/
  | reservedBits
  /-- Step 2: `OP` is not one of the 25. -/
  | unknownOpcode
  /-- Step 3: a field the command does not use is not zero. -/
  | unusedField
  /-- Step 4: `T`, `K` or `F` is not legal for the command. -/
  | badSelector
  /-- Step 5: an operand word the command does not use is not zero. -/
  | unusedOperand
  deriving DecidableEq, Repr

/-- Step 3 of R80: some field `op` does not use is not zero. -/
def Packet.unusedFieldSet (p : Packet) (op : Opcode) : Bool :=
  (!op.usesT && p.tField != 0) || (!op.usesK && p.kField != 0) || (!op.usesF && p.fField != 0)

/-- Step 4 of R80: the command `op` with the packet's selectors and operand words, if the selectors are legal. -/
def Packet.assemble (p : Packet) : Opcode → Option Instr
  | .fget =>
    (HdrType.ofSel p.tField).bind fun t => (t.fieldOfSel p.fField).map fun f => .fget t f p.a0
  | .fput =>
    (HdrType.ofSel p.tField).bind fun t => (t.fieldOfSel p.fField).map fun f => .fput t f p.a0 p.a1
  | .hdrSize => (HdrType.ofSel p.tField).map fun t => .hdrSize t
  | .clsRtype => some (.clsRtype p.a0)
  | .clsProto => some (.clsProto p.a0)
  | .tfUnion => some (.tfUnion p.a0 p.a1)
  | .tfInter => some (.tfInter p.a0 p.a1)
  | .tfContains => some (.tfContains p.a0 p.a1)
  | .tfDec => some (.tfDec p.a0)
  | .csum => some (.csum p.a0 p.a1 p.a2)
  | .curOpen => (slotOfSel p.kField).map fun k => .curOpen k p.a0 p.a1
  | .curNext => (slotOfSel p.kField).bind fun k => (ViewType.ofSel p.tField p.a0).map fun v => .curNext k v
  | .curNextm => (slotOfSel p.kField).bind fun k => (ViewType.ofSel p.tField p.a0).map fun v => .curNextm k v
  | .curRem => (slotOfSel p.kField).map fun k => .curRem k
  | .curRemm => (slotOfSel p.kField).map fun k => .curRemm k
  | .dmaAlloc => some (.dmaAlloc p.a0)
  | .dmaAllocb => some (.dmaAllocb p.a0)
  | .toPaddr => some (.toPaddr p.a0)
  | .qLayout => some (.qLayout p.a0 p.a1 p.a2 p.a3 p.a4)
  | .ioR8 => some (.ioR8 p.a0 p.a1 p.a2)
  | .ioR32 => some (.ioR32 p.a0 p.a1 p.a2)
  | .ioW8 => some (.ioW8 p.a0 p.a1 p.a2 p.a3)
  | .ioW32 => some (.ioW32 p.a0 p.a1 p.a2 p.a3)
  | .ioPaddr => some (.ioPaddr p.a0 p.a1)
  | .ioVaddr => some (.ioVaddr p.a0 p.a1)

/-- How many operand words, from `A[0]` on, the command uses (R75, column "operands"); `A0` of `CUR.NEXT` and
`CUR.NEXTM` only when the type is RAW. -/
def Instr.operandCount : Instr → Nat
  | .fget _ _ _ => 1
  | .fput _ _ _ _ => 2
  | .hdrSize _ => 0
  | .clsRtype _ => 1
  | .clsProto _ => 1
  | .tfUnion _ _ => 2
  | .tfInter _ _ => 2
  | .tfContains _ _ => 2
  | .tfDec _ => 1
  | .csum _ _ _ => 3
  | .curOpen _ _ _ => 2
  | .curNext _ (.hdr _) => 0
  | .curNext _ (.raw _) => 1
  | .curNextm _ (.hdr _) => 0
  | .curNextm _ (.raw _) => 1
  | .curRem _ => 0
  | .curRemm _ => 0
  | .dmaAlloc _ => 1
  | .dmaAllocb _ => 1
  | .toPaddr _ => 1
  | .qLayout _ _ _ _ _ => 5
  | .ioR8 _ _ _ => 3
  | .ioR32 _ _ _ => 3
  | .ioW8 _ _ _ _ => 4
  | .ioW32 _ _ _ _ => 4
  | .ioPaddr _ _ => 2
  | .ioVaddr _ _ => 2

/-- Step 5 of R80: every operand word from `A[n]` on is zero. -/
def Packet.operandsZeroFrom (p : Packet) (n : Nat) : Bool :=
  [0, 1, 2, 3, 4, 5].all fun j => decide (j < n) || p.operand j == 0

/-- The decoder: total, every packet names exactly one command with legal selectors or is illegal, in the order of the
steps of R80. It reads no state (R83). -/
def decode (p : Packet) : Except DecodeError Instr :=
  if p.zField = 0 then
    match Opcode.ofCode p.opField with
    | none => .error .unknownOpcode
    | some op =>
      if p.unusedFieldSet op then .error .unusedField
      else
        match p.assemble op with
        | none => .error .badSelector
        | some i => if p.operandsZeroFrom i.operandCount then .ok i else .error .unusedOperand
  else .error .reservedBits

/-! ## The encoder -/

/-- The opcode of an instruction (R75). -/
def Instr.opcode : Instr → Opcode
  | .fget _ _ _ => .fget
  | .fput _ _ _ _ => .fput
  | .hdrSize _ => .hdrSize
  | .clsRtype _ => .clsRtype
  | .clsProto _ => .clsProto
  | .tfUnion _ _ => .tfUnion
  | .tfInter _ _ => .tfInter
  | .tfContains _ _ => .tfContains
  | .tfDec _ => .tfDec
  | .csum _ _ _ => .csum
  | .curOpen _ _ _ => .curOpen
  | .curNext _ _ => .curNext
  | .curNextm _ _ => .curNextm
  | .curRem _ => .curRem
  | .curRemm _ => .curRemm
  | .dmaAlloc _ => .dmaAlloc
  | .dmaAllocb _ => .dmaAllocb
  | .toPaddr _ => .toPaddr
  | .qLayout _ _ _ _ _ => .qLayout
  | .ioR8 _ _ _ => .ioR8
  | .ioR32 _ _ _ => .ioR32
  | .ioW8 _ _ _ _ => .ioW8
  | .ioW32 _ _ _ _ => .ioW32
  | .ioPaddr _ _ => .ioPaddr
  | .ioVaddr _ _ => .ioVaddr

/-- The packet of an instruction: the command word of R72 and the operand words of R75, everything unused zero (R81). -/
def encode : Instr → Packet
  | .fget t f addr => { cw := commandWord 0x10 t.sel 0 (t.fieldSel f), a0 := addr }
  | .fput t f addr v => { cw := commandWord 0x11 t.sel 0 (t.fieldSel f), a0 := addr, a1 := v }
  | .hdrSize t => { cw := commandWord 0x12 t.sel 0 0 }
  | .clsRtype v => { cw := 0x00000013, a0 := v }
  | .clsProto v => { cw := 0x00000014, a0 := v }
  | .tfUnion a b => { cw := 0x00000018, a0 := a, a1 := b }
  | .tfInter a b => { cw := 0x00000019, a0 := a, a1 := b }
  | .tfContains a b => { cw := 0x0000001A, a0 := a, a1 := b }
  | .tfDec b => { cw := 0x0000001B, a0 := b }
  | .csum addr len seed => { cw := 0x00000020, a0 := addr, a1 := len, a2 := seed }
  | .curOpen k base len => { cw := commandWord 0x30 0 (slotSel k) 0, a0 := base, a1 := len }
  | .curNext k v => { cw := commandWord 0x31 v.sel (slotSel k) 0, a0 := v.word }
  | .curNextm k v => { cw := commandWord 0x32 v.sel (slotSel k) 0, a0 := v.word }
  | .curRem k => { cw := commandWord 0x33 0 (slotSel k) 0 }
  | .curRemm k => { cw := commandWord 0x34 0 (slotSel k) 0 }
  | .dmaAlloc pages => { cw := 0x00000040, a0 := pages }
  | .dmaAllocb pages => { cw := 0x00000041, a0 := pages }
  | .toPaddr vaddr => { cw := 0x00000042, a0 := vaddr }
  | .qLayout base len d a u => { cw := 0x00000043, a0 := base, a1 := len, a2 := d, a3 := a, a4 := u }
  | .ioR8 base len off => { cw := 0x00000048, a0 := base, a1 := len, a2 := off }
  | .ioR32 base len off => { cw := 0x00000049, a0 := base, a1 := len, a2 := off }
  | .ioW8 base len off value => { cw := 0x0000004A, a0 := base, a1 := len, a2 := off, a3 := value }
  | .ioW32 base len off value => { cw := 0x0000004B, a0 := base, a1 := len, a2 := off, a3 := value }
  | .ioPaddr base len => { cw := 0x0000004C, a0 := base, a1 := len }
  | .ioVaddr base len => { cw := 0x0000004D, a0 := base, a1 := len }

/-- The pseudo-command `CSUM0 addr, len` of R86: `CSUM` with seed 0, the same packet. -/
def Instr.csum0 (addr len : Word) : Instr := .csum addr len 0

/-! ## The host's numbering of a packet's bits -/

/-- The `width` bits of `w` from bit `lo` on, those from bit `nbits` on zero. -/
def bitField (nbits w lo width : Nat) : Nat := (w >>> lo) % 2 ^ min width (nbits - lo)

/-- The packet whose bits are the low `nbits` bits of `w`: `CW` in bits 31:0, `A[j]` in the 64 bits from bit `32 + 64 j`
on, every bit from `nbits` on zero. The spec gives a packet no serialisation (R70): DESIGN CHOICE, safe (log 16). -/
def Packet.ofBits (nbits w : Nat) : Packet where
  cw := BitVec.ofNat 32 (bitField nbits w 0 32)
  a0 := BitVec.ofNat 64 (bitField nbits w 32 64)
  a1 := BitVec.ofNat 64 (bitField nbits w 96 64)
  a2 := BitVec.ofNat 64 (bitField nbits w 160 64)
  a3 := BitVec.ofNat 64 (bitField nbits w 224 64)
  a4 := BitVec.ofNat 64 (bitField nbits w 288 64)
  a5 := BitVec.ofNat 64 (bitField nbits w 352 64)

/-- The instruction the decoder reads from the packet whose bits are `w`; `none` where it refuses. -/
def decodeTableWord (nbits w : Nat) : Option Instr :=
  match decode (Packet.ofBits nbits w) with
  | .ok i => some i
  | .error _ => none

end Sys2Proof
end

