-- ==== Sys2Proof/Machine/State.lean ====
section
/-! DEFINITION. The state of the machine as plain data (spec/10_state.md), the outcomes of a step, and the state after
reset (R30, spec/70_reset_and_hazards.md R231).

The spec's own state is `wm`, `cur`, the system's memory `mem`, and `flights`, the commands in progress (R28, R30). `cfg`
holds the instance's parameters, which nothing changes; `input`, `port`, `trace` and `draws` are the model's own
(INVENTORY.md, heading State). -/

namespace Sys2Proof.Machine

/-- One cursor slot `CUR[k]` (R24): `valid`, `base`, `len`, `off`. -/
structure Cursor where
  valid : Bool
  base : Word
  len : Word
  off : Word
  deriving DecidableEq, Repr

/-- A cursor slot after reset (R30). -/
def Cursor.empty : Cursor := ⟨false, 0, 0, 0⟩

/-- The six statuses (spec/60_exceptions.md R211); there is no other. -/
inductive Status where
  /-- `ST_OK`: the command did what its rule says. -/
  | ok
  /-- `ST_NODATA`: the cursor has fewer bytes left than asked for. -/
  | noData
  /-- `ST_NOMEM`: the allocation does not fit below `DMA_LIMIT`. -/
  | noMem
  /-- `ST_BADARG`: an operand value is outside what the command accepts (R213). -/
  | badArg
  /-- `ST_NOCUR`: the cursor slot holds no live cursor. -/
  | noCur
  /-- `ST_ILLEGAL`: the packet is no legal encoding (R212). -/
  | illegal
  deriving DecidableEq, Repr

/-- The six result words `R[0] .. R[5]`; a word a command does not assign is 0 (R71). -/
structure Results where
  r0 : Word := 0
  r1 : Word := 0
  r2 : Word := 0
  r3 : Word := 0
  r4 : Word := 0
  r5 : Word := 0
  deriving DecidableEq, Repr

/-- A response packet (R71): the status and the six result words. -/
structure Response where
  st : Status
  r : Results
  deriving DecidableEq, Repr

/-- What the block does that others can see: its memory accesses and its responses. -/
inductive Action where
  /-- One ordinary single-byte read: the address and the byte it returned (R11, R46). -/
  | read (a : Nat) (b : Byte)
  /-- One ordinary single-byte write (R11, R46). -/
  | write (a : Nat) (b : Byte)
  /-- One volatile read of as many bytes as listed, lowest address first (R47). -/
  | ioRead (a : Nat) (bs : List Byte)
  /-- One volatile write of as many bytes as listed, lowest address first (R47). -/
  | ioWrite (a : Nat) (bs : List Byte)
  /-- The response to the port's command (R71). -/
  | reply (port : Nat) (resp : Response)
  deriving DecidableEq, Repr

/-- Which bits of its bytes a field is. -/
inductive FieldPart where
  /-- All of its bytes, big-endian (R40). -/
  | whole
  /-- The byte TCP `flags`: bits 7:6 are written as zero (R108). -/
  | flagByte
  /-- Bits 7:4 of its one byte (R107). -/
  | highNibble
  /-- Bits 3:0 of its one byte (R107). -/
  | lowNibble
  deriving DecidableEq, Repr

/-- Where a field lies in its header. -/
structure FieldLayout where
  /-- Byte offset from the start of the header. -/
  off : Nat
  /-- Bytes. -/
  width : Nat
  part : FieldPart
  deriving DecidableEq, Repr

/-- The two widths of a register access (R186: no other). -/
inductive IoWidth where
  | w8 | w32
  deriving DecidableEq, Repr

/-- What a command does with the bytes it reads one by one. -/
inductive ReadUse where
  /-- `FGET`: the field's value (R113). -/
  | field (l : FieldLayout)
  /-- `CSUM`: the checksum with this seed (R141). -/
  | checksum (seed : BitVec 32)
  deriving DecidableEq, Repr

/-- What a command still has to do once its tests and its effect on `WM` and `CUR` are over: its memory accesses, one after
the other, then its response (R11, R46, R52). -/
inductive Job where
  /-- `left` single-byte reads from `a` on; `got` are the bytes read so far; then the response. -/
  | reads (a left : Nat) (got : List Byte) (use : ReadUse)
  /-- A sub-byte `FPUT`: the read of the byte at `a`, then its write with one nibble set to `v` (R114). -/
  | patch (l : FieldLayout) (a v : Nat)
  /-- The single-byte writes of `bs` from `a` on, then the response `ST_OK`. -/
  | writes (a : Nat) (bs : List Byte)
  /-- One volatile read at `a`, then the response with its value (R47). -/
  | ioRead (a : Nat) (w : IoWidth)
  /-- One volatile write of `v` at `a`, then the response (R47). -/
  | ioWrite (a : Nat) (w : IoWidth) (v : Nat)
  /-- The response alone. -/
  | reply (resp : Response)
  deriving DecidableEq, Repr

/-- A command in progress: the port it came from and what it still has to do. -/
structure Flight where
  port : Nat
  job : Job
  deriving DecidableEq, Repr

/-- What reaches the block from outside, and whose turn it is, in the order it takes effect (spec/00_scope.md R14,
spec/10_state.md R29, spec/20_memory.md R53). -/
inductive Event where
  /-- A command of a port (R70), executed to its response with nothing falling between its accesses. -/
  | command (port : Nat) (packet : Packet)
  /-- A command of a port (R70) begins: its tests and its effect on `WM` and `CUR` happen, indivisibly (R53). -/
  | start (port : Nat) (packet : Packet)
  /-- The command in progress of a port makes its next access, or sends its response (R48). -/
  | turn (port : Nat)
  /-- The environment (the device's DMA, or the requester's processor) stores a byte (R14). -/
  | envStore (a : Nat) (b : Byte)
  /-- The platform applies reset (R230); commands in progress are abandoned (R233). -/
  | reset
  deriving DecidableEq, Repr

/-- Ordinary memory as address and byte pairs, addresses strictly rising. An address not listed holds no value that the
run has written; what a read of it returns is `State.byteAt` (log 3). -/
abbrev Memory := List Host.Cell

/-- The state of the machine. -/
structure State where
  /-- The instance's parameters (R8); no step changes them (R25). -/
  cfg : Config
  /-- The watermark `WM`, 65 bits (R23). -/
  wm : BitVec 65
  /-- The cursor slot file `CUR[0] .. CUR[3]` (R24). -/
  cur : Vector Cursor ncur
  /-- Ordinary memory (R26). -/
  mem : Memory
  /-- The commands in progress, at most one of a port (R28, R52), oldest first. -/
  flights : List Flight
  /-- The model's own: the events still to come, the next one first (R29; log 4). -/
  input : List Event
  /-- The model's own: the port of the command executed last, whose response goes there (log 5). -/
  port : Nat
  /-- The model's own: everything the block has done that others can see, oldest first (log 5). -/
  trace : List Action
  /-- The model's own: how many volatile reads have been made, the number of the next oracle draw (R47; log 7). -/
  draws : Nat
  deriving DecidableEq, Repr

/-- Where a step stops with a fault. -/
inductive Fault where
  /-- Raised by `FGET`, `FPUT`, `CSUM` for a byte that `MemMap` does not back, and by `IO.R8`, `IO.R32`, `IO.W8`, `IO.W32`
  for a byte that neither `MemMap` nor `IoMap` covers: the spec gives such an access no outcome and says that a model has
  no step for it (R50, R217, U1). Safe: nothing can be proved of what follows (log 9). -/
  | unbackedAccess
  deriving DecidableEq, Repr

/-- Where a step is refused. -/
inductive Refusal where
  /-- An instruction without a meaning. No arm of `exec` answers it. Safe. -/
  | notModelled (mnemonic : String)
  /-- Raised by `IO.R32` and `IO.W32` at an address that is not a multiple of 4 (`IO_MISALIGNED`): the outcome is the
  platform's, and R45, R188 and R217 say that a model refuses the command. Safe (log 10). -/
  | misalignedRegisterAccess
  /-- Raised by `step` when a command comes on a port the instance does not have: no requester is there to present it
  (R8, R14). Safe (log 14). -/
  | noSuchPort
  deriving DecidableEq, Repr

/-- The block of an instance right after reset, nothing presented yet (R30, R231): `WM` = `IMAGE_END`, every slot empty,
no command in progress; memory lists nothing, because the spec gives it no contents (log 3). -/
def State.resetOf (c : Config) : State where
  cfg := c
  wm := BitVec.ofNat 65 c.imageEnd
  cur := Vector.replicate ncur Cursor.empty
  mem := []
  flights := []
  input := []
  port := 0
  trace := []
  draws := 0

/-- The machine right after reset: `State.resetOf` the instance of the spec's test vectors (log 2). -/
def State.reset : State := State.resetOf Config.vectors

end Sys2Proof.Machine
end

