-- ==== Sys2Proof/Machine/Ops.lean ====
section
/-! DEFINITION. The operations the meanings share: the address map, memory, the byte-wise ordinary accesses (R11, R44,
R46), the single volatile accesses (R47), the cursor slots, the response that ends every command (R71), the commands in
progress (R28), and the events that are no command (R14, R230). -/

namespace Sys2Proof.Machine

/-- What a command answers. -/
abbrev Result := Host.Outcome State Fault Refusal

/-! ## Byte order (R10) -/

/-- `be(B)`: the number whose most significant byte comes first. -/
def be (bs : List Byte) : Nat := bs.foldl (fun acc b => acc * 256 + b.toNat) 0

/-- `bytes_be(v, n)`: the `n` low bytes of `v`, most significant first. -/
def bytesBe (v : Nat) : Nat → List Byte
  | 0 => []
  | n + 1 => BitVec.ofNat 8 (v / 256 ^ n) :: bytesBe v n

/-- `le(B)`: the number whose least significant byte comes first. -/
def le : List Byte → Nat
  | [] => 0
  | b :: bs => b.toNat + 256 * le bs

/-- `bytes_le(v, n)`: the `n` low bytes of `v`, least significant first. -/
def bytesLe (v : Nat) : Nat → List Byte
  | 0 => []
  | n + 1 => BitVec.ofNat 8 v :: bytesLe (v / 256) n

/-! ## The address map (R26, R49) -/

/-- The address lies in the region. -/
def Region.has (r : Region) (a : Nat) : Bool := decide (r.lo ≤ a) && decide (a < r.hi)

/-- `a` is in `MemMap`. -/
def backs (c : Config) (a : Nat) : Bool := c.memMap.any fun r => Region.has r a

/-- `a` is in `IoMap`. -/
def hasDevice (c : Config) (a : Nat) : Bool := c.ioMap.any fun r => Region.has r a

/-- All of the `n` bytes from `a` on are ordinary memory. -/
def backsRange (c : Config) (a : Nat) : Nat → Bool
  | 0 => true
  | n + 1 => backs c a && backsRange c (a + 1) n

/-- Each of the `n` bytes from `a` on is ordinary memory or a device register: what a volatile access can reach. -/
def reachesRange (c : Config) (a : Nat) : Nat → Bool
  | 0 => true
  | n + 1 => (backs c a || hasDevice c a) && reachesRange c (a + 1) n

/-! ## Memory -/

/-- The byte listed for an address, if one is. -/
def Memory.lookup : Memory → Nat → Option Byte
  | [], _ => none
  | (a', b) :: m, a => if a = a' then some b else Memory.lookup m a

/-- The memory with `b` at `a`; the addresses stay strictly rising. -/
def Memory.store : Memory → Nat → Byte → Memory
  | [], a, b => [(a, b)]
  | (a', b') :: m, a, b =>
    if a < a' then (a, b) :: (a', b') :: m
    else if a = a' then (a, b) :: m
    else (a', b') :: Memory.store m a b

/-- The memory with the bytes of `bs` stored from `a` on, one at a time, ascending (`MemWrite`, R11). -/
def Memory.storeBytes (m : Memory) (a : Nat) : List Byte → Memory
  | [] => m
  | b :: bs => Memory.storeBytes (Memory.store m a b) (a + 1) bs

/-- The bytes of one volatile write that fall on ordinary memory, stored; those that fall on a device register change no
memory (R189, R190; log 8, log 11). -/
def Memory.storeBacked (c : Config) (m : Memory) (a : Nat) : List Byte → Memory
  | [] => m
  | b :: bs => Memory.storeBacked c (if backs c a then Memory.store m a b else m) (a + 1) bs

/-- The addresses a memory lists are above `lo` and strictly rising. -/
def Memory.risingFrom (lo : Nat) : Memory → Bool
  | [] => true
  | (a, _) :: m => decide (lo ≤ a) && Memory.risingFrom (a + 1) m

/-- The canonical form: addresses strictly rising, so that equal memories are equal lists. An address not listed holds no
value, so no listed byte equals what an unlisted one holds (log 3). -/
def Memory.wf (m : Memory) : Bool := Memory.risingFrom 0 m

/-- The byte of ordinary memory at `a`: the listed one, or the free value of a byte nothing has written (U17; log 3). -/
def State.byteAt (s : State) (a : Nat) : Byte :=
  match Memory.lookup s.mem a with
  | some b => b
  | none => Config.initialByte a

/-- The `n` bytes from `a` on, lowest address first (`MemRead`, R11). -/
def State.bytesAt (s : State) (a : Nat) : Nat → List Byte
  | 0 => []
  | n + 1 => s.byteAt a :: State.bytesAt s (a + 1) n

/-! ## What others see -/

/-- The state with further actions on record. -/
def State.record (s : State) (acts : List Action) : State := { s with trace := s.trace ++ acts }

/-- The single-byte reads of the bytes of `bs` from `a` on, ascending, each once (R11). -/
def readActions (a : Nat) : List Byte → List Action
  | [] => []
  | b :: bs => .read a b :: readActions (a + 1) bs

/-- The single-byte writes of the bytes of `bs` from `a` on, ascending (R11). -/
def writeActions (a : Nat) : List Byte → List Action
  | [] => []
  | b :: bs => .write a b :: writeActions (a + 1) bs

/-! ## Ordinary accesses (R44, R46) -/

/-- The state after reading the `n` bytes from `a` on; the bytes read are `s.bytesAt a n`. -/
def State.afterRead (s : State) (a n : Nat) : State := s.record (readActions a (s.bytesAt a n))

/-- The state after writing the bytes of `bs` from `a` on. -/
def State.afterWrite (s : State) (a : Nat) (bs : List Byte) : State :=
  { s with mem := Memory.storeBytes s.mem a bs, trace := s.trace ++ writeActions a bs }

/-! ## Volatile accesses (R42, R45, R47) -/

/-- The number of bytes of a register access. -/
def IoWidth.bytes : IoWidth → Nat
  | .w8 => 1
  | .w32 => 4

/-- Byte `lane` of what a volatile read finds at `a`: the stored byte where `a` is ordinary memory (R187), else the
device's, a free value (U4; log 7). -/
def State.ioByte (s : State) (a lane : Nat) : Byte :=
  if backs s.cfg a then s.byteAt a else Config.deviceByte s.draws lane

/-- The bytes one volatile read of `n` bytes at `a` returns, lowest address first, numbered from `lane`. -/
def State.ioBytes (s : State) (a lane : Nat) : Nat → List Byte
  | 0 => []
  | n + 1 => s.ioByte a lane :: State.ioBytes s (a + 1) (lane + 1) n

/-- The state after one volatile read: the access on record, one draw used up. Memory is unchanged. -/
def State.afterIoRead (s : State) (a : Nat) (w : IoWidth) : State :=
  { s with trace := s.trace ++ [.ioRead a (s.ioBytes a 0 w.bytes)], draws := s.draws + 1 }

/-- The state after one volatile write: the access on record, the bytes that fall on ordinary memory stored. -/
def State.afterIoWrite (s : State) (a : Nat) (bs : List Byte) : State :=
  { s with mem := Memory.storeBacked s.cfg s.mem a bs, trace := s.trace ++ [.ioWrite a bs] }

/-! ## The block's own registers -/

/-- The cursor slot `CUR[k]` (R24). -/
def State.slot (s : State) (k : Slot) : Cursor := s.cur[k]

/-- The state with `CUR[k]` replaced. -/
def State.setSlot (s : State) (k : Slot) (c : Cursor) : State := { s with cur := s.cur.set k c }

/-- The state with the watermark set. -/
def State.setWm (s : State) (v : Nat) : State := { s with wm := BitVec.ofNat 65 v }

/-! ## The response (R71) -/

/-- The code of each status in the response's status byte (R211). -/
def Status.code : Status → BitVec 8
  | .ok => 0
  | .noData => 1
  | .noMem => 2
  | .badArg => 3
  | .noCur => 4
  | .illegal => 5

/-- The state after the response to the current command has been sent to its port. -/
def State.respond (s : State) (st : Status) (r : Results) : State := s.record [.reply s.port ⟨st, r⟩]

/-! ## Commands in progress (R28, R52) -/

/-- What the command in progress of a port still has to do, if the list holds one. -/
def jobIn : List Flight → Nat → Option Job
  | [], _ => none
  | f :: fs, port => if f.port = port then some f.job else jobIn fs port

/-- The list after a turn of the port's command: what it still has to do, or the command gone. -/
def putJob : List Flight → Nat → Option Job → List Flight
  | [], _, _ => []
  | f :: fs, port, j =>
    if f.port = port then
      match j with
      | some j' => ⟨port, j'⟩ :: putJob fs port j
      | none => putJob fs port j
    else f :: putJob fs port j

/-- What the command in progress of a port still has to do; `none`: the port is free. -/
def State.jobOf (s : State) (port : Nat) : Option Job := jobIn s.flights port

/-! ## The other events (R14, R230) -/

/-- The environment stores a byte: memory takes it; a device register, or an address nothing backs, holds nothing of the
model's (R14, R219). -/
def State.envStore (s : State) (a : Nat) (b : Byte) : State :=
  if backs s.cfg a then { s with mem := Memory.store s.mem a b } else s

/-- Reset: `WM` = `IMAGE_END`, every slot empty; memory and devices untouched, no response (R231). A command in progress is
abandoned; the bytes it has written stay written (R30, R233; log 13). -/
def State.applyReset (s : State) : State :=
  { s with wm := BitVec.ofNat 65 s.cfg.imageEnd, cur := Vector.replicate ncur Cursor.empty, flights := [] }

end Sys2Proof.Machine
end

