-- ==== Sys2Proof/Machine/Operands.lean ====
section
/-! DEFINITION. Everything about the operands: the widths they must fit and the address ranges they may name
(spec/30_encoding.md R78, spec/20_memory.md R50), the header sizes (R73), the byte layout of every field
(spec/40_header_codec.md R100 to R108), getting and putting a field (R113, R114), the whole-header functions (R115), and the
constants the source names (R109, R112). -/

namespace Sys2Proof.Machine

/-! ## Ranges (R50, R78) -/

/-- The operand fits `bits` bits (R78). -/
def fits (v : Word) (bits : Nat) : Bool := decide (v.toNat < 2 ^ bits)

/-- The `n` bytes from `a` on lie in the address space: natural-number sum, no wrap-around (R50). -/
def inSpace (a n : Nat) : Bool := decide (a + n ≤ addrLimit)

/-- A natural number as a result word, `mod 2^XLEN` (R50: the address of an empty region at `2^64` is returned as 0). -/
def word (v : Nat) : Word := BitVec.ofNat 64 v

/-! ## Header types (R73, R100) -/

/-- `size_of(T)`, R73. -/
def headerSize : HdrType → Nat
  | .eth => 14
  | .arp => 28
  | .ip => 20
  | .udp => 8
  | .tcp => 20
  | .icmp => 8

/-- The size in bytes of what `CUR.NEXT` extracts (R73, R162). -/
def viewSize : ViewType → Nat
  | .hdr t => headerSize t
  | .raw size => size.toNat

/-- The layout tables R101 to R106, and `ver` and `ihl` of R107; `none` for a name that is no field of the header. -/
def layout : HdrType → Field → Option FieldLayout
  | .eth, .dhost => some ⟨0, 6, .whole⟩
  | .eth, .shost => some ⟨6, 6, .whole⟩
  | .eth, .rtype => some ⟨12, 2, .whole⟩
  | .arp, .httype => some ⟨0, 2, .whole⟩
  | .arp, .pttype => some ⟨2, 2, .whole⟩
  | .arp, .hlen => some ⟨4, 1, .whole⟩
  | .arp, .plen => some ⟨5, 1, .whole⟩
  | .arp, .op => some ⟨6, 2, .whole⟩
  | .arp, .sha => some ⟨8, 6, .whole⟩
  | .arp, .spa => some ⟨14, 4, .whole⟩
  | .arp, .tha => some ⟨18, 6, .whole⟩
  | .arp, .tpa => some ⟨24, 4, .whole⟩
  | .ip, .vhl => some ⟨0, 1, .whole⟩
  | .ip, .tos => some ⟨1, 1, .whole⟩
  | .ip, .len => some ⟨2, 2, .whole⟩
  | .ip, .id => some ⟨4, 2, .whole⟩
  | .ip, .off => some ⟨6, 2, .whole⟩
  | .ip, .ttl => some ⟨8, 1, .whole⟩
  | .ip, .pro => some ⟨9, 1, .whole⟩
  | .ip, .sum => some ⟨10, 2, .whole⟩
  | .ip, .src => some ⟨12, 4, .whole⟩
  | .ip, .dst => some ⟨16, 4, .whole⟩
  | .ip, .ver => some ⟨0, 1, .highNibble⟩
  | .ip, .ihl => some ⟨0, 1, .lowNibble⟩
  | .udp, .sport => some ⟨0, 2, .whole⟩
  | .udp, .dport => some ⟨2, 2, .whole⟩
  | .udp, .ulen => some ⟨4, 2, .whole⟩
  | .udp, .sum => some ⟨6, 2, .whole⟩
  | .tcp, .sport => some ⟨0, 2, .whole⟩
  | .tcp, .dport => some ⟨2, 2, .whole⟩
  | .tcp, .seq => some ⟨4, 4, .whole⟩
  | .tcp, .ack => some ⟨8, 4, .whole⟩
  | .tcp, .offset => some ⟨12, 1, .whole⟩
  | .tcp, .flags => some ⟨13, 1, .flagByte⟩
  | .tcp, .win => some ⟨14, 2, .whole⟩
  | .tcp, .sum => some ⟨16, 2, .whole⟩
  | .tcp, .urg => some ⟨18, 2, .whole⟩
  | .icmp, .type => some ⟨0, 1, .whole⟩
  | .icmp, .code => some ⟨1, 1, .whole⟩
  | .icmp, .checksum => some ⟨2, 2, .whole⟩
  | .icmp, .id => some ⟨4, 2, .whole⟩
  | .icmp, .seq => some ⟨6, 2, .whole⟩
  | _, _ => none

/-- The field is a sub-byte field (R113, R114). -/
def FieldLayout.subByte (l : FieldLayout) : Bool :=
  match l.part with
  | .whole => false
  | .flagByte => false
  | .highNibble => true
  | .lowNibble => true

/-- How many bits a value stored into the field may have (R118). -/
def FieldLayout.valueBits (l : FieldLayout) : Nat := if l.subByte then 4 else 8 * l.width

/-! ## Getting and putting a field (R113, R114) -/

/-- `get_field` on the field's bytes, lowest address first (R113). -/
def getField (l : FieldLayout) (bs : List Byte) : Nat :=
  match l.part with
  | .whole => be bs
  | .flagByte => be bs
  | .highNibble => be bs / 16
  | .lowNibble => be bs % 16

/-- The bytes `put_field` stores for the value `v`; `old` is the byte a sub-byte field shares (R114). -/
def putField (l : FieldLayout) (old : Byte) (v : Nat) : List Byte :=
  match l.part with
  | .whole => bytesBe v l.width
  | .flagByte => [BitVec.ofNat 8 v &&& 0x3F]
  | .highNibble => [(BitVec.ofNat 8 v <<< 4) ||| (old &&& 0x0F)]
  | .lowNibble => [(old &&& 0xF0) ||| BitVec.ofNat 8 v]

/-! ## Whole headers (R115): pure functions for laws; no command performs them -/

/-- The whole fields of a header, in declaration order (R76, R100). -/
def wholeFields (t : HdrType) : List Field :=
  t.fields.filter fun f => match layout t f with
    | some l => !l.subByte
    | none => false

/-- The bytes of one whole field with value `v`; for TCP `flags`, `v & 0x3F` (R115). -/
def encodeField (t : HdrType) (f : Field) (v : Nat) : List Byte :=
  match layout t f with
  | some l => putField l 0 v
  | none => []

/-- `encode_H`: the fields' bytes, one after the other, in declaration order (R115). -/
def encodeFields (t : HdrType) : List Field → List Nat → List Byte
  | f :: fs, v :: vs => encodeField t f v ++ encodeFields t fs vs
  | _, _ => []

/-- `encode_H(v_0, .., v_{n-1})` (R115). -/
def encodeHeader (t : HdrType) (vs : List Nat) : List Byte := encodeFields t (wholeFields t) vs

/-- The value of one whole field in the bytes of a header (R115). -/
def decodeField (t : HdrType) (bs : List Byte) (f : Field) : Nat :=
  match layout t f with
  | some l => getField l ((bs.drop l.off).take l.width)
  | none => 0

/-- `decode_H(B)`: the values of the whole fields (R115). -/
def decodeHeader (t : HdrType) (bs : List Byte) : List Nat := (wholeFields t).map (decodeField t bs)

/-! ## Constants a requester may put into operand words (R109); the block holds none of them -/

/-- `MAC_BROADCAST`. -/
def macBroadcast : Word := 0xFFFFFFFFFFFF

/-- `ARP_HTYPE_ETH`. -/
def arpHtypeEth : Word := 1

/-- `ARP_OP_REQUEST`. -/
def arpOpRequest : Word := 1

/-- `ARP_OP_REPLY`. -/
def arpOpReply : Word := 2

/-- `IP_VHL_DEFAULT`. -/
def ipVhlDefault : Word := 0x45

end Sys2Proof.Machine
end

