-- ==== Sys2Proof/Machine/OnesComplement.lean ====
section
/-! DEFINITION. The one's-complement arithmetic of the Checksum Engine (spec/41_checksum.md R140, R141). -/

namespace Sys2Proof.Machine

/-- `fold1` (R140): the low half plus the high half of the 32-bit accumulator. -/
def fold1 (s : BitVec 32) : BitVec 32 := (s &&& 0xFFFF#32) + (s >>> 16)

/-- `fold` (R140): `fold1` twice. -/
def fold (s : BitVec 32) : BitVec 32 := fold1 (fold1 s)

/-- The big-endian 16-bit word of two bytes, in the accumulator's width (R41). -/
def beWord (hi lo : Byte) : BitVec 32 := BitVec.ofNat 32 (hi.toNat * 256 + lo.toNat)

/-- Steps 2 to 4 of R141: add the words modulo `2^32`, folding after an addition that exceeds 16 bits; an odd trailing
byte is the high byte of a last word and is added without a fold. -/
def csumAcc (acc : BitVec 32) : List Byte → BitVec 32
  | hi :: lo :: rest =>
    let acc := acc + beWord hi lo
    csumAcc (if acc.toNat > 0xFFFF then fold acc else acc) rest
  | [hi] => acc + beWord hi 0
  | [] => acc

/-- `csum(B, seed)` (R141): the complement of the folded sum. -/
def csum (bs : List Byte) (seed : BitVec 32) : BitVec 16 := (~~~(fold (csumAcc seed bs))).setWidth 16

end Sys2Proof.Machine
end

