-- ==== Sys2Proof/Machine/Turns.lean ====
section
/-! DEFINITION. How a command runs. It starts: its tests, and its effect on `WM` and `CUR`, happen as one indivisible step
(spec/20_memory.md R53). Then it takes turns: each turn makes one access, and the last sends the response (R48, R52).
Between two turns anything else may happen (log 6). `Started.complete` is the command run with nothing between its turns. -/

namespace Sys2Proof.Machine

/-- What the start of a command leaves: the state, and what the command still has to do. -/
structure Started where
  state : State
  job : Job
  deriving DecidableEq, Repr

/-- `respond ST_OK` with the results assigned, for a command without accesses (R12). -/
def done (s : State) (r : Results) : Started := ⟨s, .reply ⟨.ok, r⟩⟩

/-- `respond ST_x` for a status other than `ST_OK`: all results 0, nothing else changed (R12, R214). Every abnormal
outcome of every command goes through here; there is no trap to take and none to return from (R210). -/
def reject (s : State) (st : Status) : Started := ⟨s, .reply ⟨st, {}⟩⟩

/-- The results a command computes from the bytes it has read (R113, R117, R142). -/
def ReadUse.results : ReadUse → List Byte → Results
  | .field l, bs => { r0 := word (getField l bs) }
  | .checksum seed, bs => { r0 := (csum bs seed).setWidth 64 }

/-- What a turn answers: the state, and what is left to do, if anything. -/
abbrev TurnResult := Host.Outcome (State × Option Job) Fault Refusal

/-- One turn: the next access, or the response. An ordinary access needs memory at its address (R217); a volatile one is a
single access of its width, aligned (R45), to memory or a device (R50). -/
def Job.turn (j : Job) (s : State) : TurnResult :=
  match j with
  | .reads _ 0 got use => .next (s.respond .ok (use.results got), none)
  | .reads a (n + 1) got use =>
    if backs s.cfg a then .next (s.afterRead a 1, some (.reads (a + 1) n (got ++ [s.byteAt a]) use))
    else .fault .unbackedAccess
  | .patch l a v =>
    if backs s.cfg a then .next (s.afterRead a 1, some (.writes a (putField l (s.byteAt a) v)))
    else .fault .unbackedAccess
  | .writes _ [] => .next (s.respond .ok {}, none)
  | .writes a (b :: bs) =>
    if backs s.cfg a then .next (s.afterWrite a [b], some (.writes (a + 1) bs)) else .fault .unbackedAccess
  | .ioRead a w =>
    if a % w.bytes = 0 then
      if reachesRange s.cfg a w.bytes then
        .next (s.afterIoRead a w, some (.reply ⟨.ok, { r0 := word (le (s.ioBytes a 0 w.bytes)) }⟩))
      else .fault .unbackedAccess
    else .refused .misalignedRegisterAccess
  | .ioWrite a w v =>
    if a % w.bytes = 0 then
      if reachesRange s.cfg a w.bytes then .next (s.afterIoWrite a (bytesLe v w.bytes), some (.reply ⟨.ok, {}⟩))
      else .fault .unbackedAccess
    else .refused .misalignedRegisterAccess
  | .reply resp => .next (s.respond resp.st resp.r, none)

/-- How many turns are left, the response included (R243: every command terminates). -/
def Job.turns : Job → Nat
  | .reads _ n _ _ => n + 1
  | .patch l _ v => (putField l 0 v).length + 2
  | .writes _ bs => bs.length + 1
  | .ioRead _ _ => 2
  | .ioWrite _ _ _ => 2
  | .reply _ => 1

/-- Up to `n` turns with nothing between them, to the response. -/
def Job.run : Nat → Job → State → Result
  | 0, _, s => .next s
  | n + 1, j, s =>
    match j.turn s with
    | .next (t, some j') => Job.run n j' t
    | .next (t, none) => .next t
    | .fault e => .fault e
    | .refused e => .refused e

/-- All the turns that are left, with nothing between them. -/
def Job.finish (j : Job) (s : State) : Result := Job.run j.turns j s

/-- The command run to its response with nothing between its turns. -/
def Started.complete (b : Started) : Result := b.job.finish b.state

end Sys2Proof.Machine
end

