-- ==== Sys2Proof/Machine/BufferCursor.lean ====
section
/-! DEFINITION. The Buffer Cursor (spec/42_buffer_cursor.md R161 to R165). None of its commands touches memory. -/

namespace Sys2Proof.Machine

/-- The tag `R[2]` of a view or slice: 0 read-only, 1 mutable (R162, R163, R168). The block does not keep it. -/
def tagWord (mutable : Bool) : Word := if mutable then 1 else 0

/-- The address the cursor stands at, `(base + off) mod 2^XLEN` (R162, R164). -/
def Cursor.address (c : Cursor) : Word := word (c.base.toNat + c.off.toNat)

/-- The body of `CUR.NEXT` and `CUR.NEXTM`, which differ in the tag only (R163). -/
def nextView (mutable : Bool) (k : Slot) (v : ViewType) (s : State) : Started :=
  let c := s.slot k
  if c.valid then
    if c.off.toNat + viewSize v > c.len.toNat then reject s .noData
    else
      done (s.setSlot k { c with off := word (c.off.toNat + viewSize v) })
        { r0 := c.address, r1 := word (viewSize v), r2 := tagWord mutable }
  else reject s .noCur

/-- The body of `CUR.REM` and `CUR.REMM`, which differ in the tag only (R165). -/
def takeRest (mutable : Bool) (k : Slot) (s : State) : Started :=
  let c := s.slot k
  if c.valid then
    done (s.setSlot k { c with valid := false })
      { r0 := c.address, r1 := word (c.len.toNat - c.off.toNat), r2 := tagWord mutable }
  else reject s .noCur

/-- `CUR.OPEN` (R161). -/
def startCurOpen (k : Slot) (base len : Word) (s : State) : Started :=
  if inSpace base.toNat len.toNat then done (s.setSlot k ⟨true, base, len, 0⟩) {} else reject s .badArg

/-- `CUR.OPEN`, run to its response. -/
def execCurOpen (k : Slot) (base len : Word) (s : State) : Result := (startCurOpen k base len s).complete

/-- `CUR.NEXT` (R162). -/
def startCurNext (k : Slot) (v : ViewType) (s : State) : Started := nextView false k v s

/-- `CUR.NEXT`, run to its response. -/
def execCurNext (k : Slot) (v : ViewType) (s : State) : Result := (startCurNext k v s).complete

/-- `CUR.NEXTM` (R163). -/
def startCurNextm (k : Slot) (v : ViewType) (s : State) : Started := nextView true k v s

/-- `CUR.NEXTM`, run to its response. -/
def execCurNextm (k : Slot) (v : ViewType) (s : State) : Result := (startCurNextm k v s).complete

/-- `CUR.REM` (R164). -/
def startCurRem (k : Slot) (s : State) : Started := takeRest false k s

/-- `CUR.REM`, run to its response. -/
def execCurRem (k : Slot) (s : State) : Result := (startCurRem k s).complete

/-- `CUR.REMM` (R165). -/
def startCurRemm (k : Slot) (s : State) : Started := takeRest true k s

/-- `CUR.REMM`, run to its response. -/
def execCurRemm (k : Slot) (s : State) : Result := (startCurRemm k s).complete

end Sys2Proof.Machine
end

