-- ==== Sys2Proof/Machine/Checksum.lean ====
section
/-! DEFINITION. The meaning of the Checksum Engine's command `CSUM` (spec/41_checksum.md R142). -/

namespace Sys2Proof.Machine

/-- `CSUM` (R142). A seed above 0xFFFF0000 can wrap the first addition, as R145 defines. -/
def startCsum (addr len seed : Word) (s : State) : Started :=
  if fits seed 32 && inSpace addr.toNat len.toNat then
    ⟨s, .reads addr.toNat len.toNat [] (.checksum (seed.setWidth 32))⟩
  else reject s .badArg

/-- `CSUM`, run to its response. -/
def execCsum (addr len seed : Word) (s : State) : Result := (startCsum addr len seed s).complete

end Sys2Proof.Machine
end

