-- ==== Sys2Proof/Machine/Flags.lean ====
section
/-! DEFINITION. Flag computations. The block has no status flags (spec/10_state.md R22); what the spec calls flags is the
set `TcpFlags`, packet data of six single-bit flags (spec/40_header_codec.md R112), and these are its set operations (R121
to R124). -/

namespace Sys2Proof.Machine

/-- A `TcpFlags` value: a number in `0 .. 0x3F` (R112). -/
abbrev TcpFlags := BitVec 6

/-- `TF_NONE` (R112). -/
def tfNone : TcpFlags := 0

/-- `F` (FIN), bit 0 (R112; the position is the spec's general knowledge G3, log 15). -/
def tfFin : TcpFlags := 0x01

/-- `S` (SYN), bit 1 (R112). -/
def tfSyn : TcpFlags := 0x02

/-- `R` (RST), bit 2 (R112). -/
def tfRst : TcpFlags := 0x04

/-- `P` (PSH), bit 3 (R112). -/
def tfPsh : TcpFlags := 0x08

/-- `A` (ACK), bit 4 (R112). -/
def tfAck : TcpFlags := 0x10

/-- `U` (URG), bit 5 (R112). -/
def tfUrg : TcpFlags := 0x20

/-- The flag set of a flags byte: bits 7:6 are ignored (R108, R124). The operand has passed the test that it is a byte. -/
def tfDecode (b : Word) : TcpFlags := b.setWidth 6

/-- Union (R121). -/
def tfUnion (a b : TcpFlags) : TcpFlags := a ||| b

/-- Intersection (R122). -/
def tfInter (a b : TcpFlags) : TcpFlags := a &&& b

/-- Every flag of `b` is in `a` (R123; `~` at 6 bits). -/
def tfContains (a b : TcpFlags) : Bool := b &&& ~~~a == 0

/-- A truth value as a result word: 1 or 0 (R79). -/
def truthWord (b : Bool) : Word := if b then 1 else 0

end Sys2Proof.Machine
end

