-- ==== Sys2Proof/Machine/HeaderCodec.lean ====
section
/-! DEFINITION. The meanings of the Header Codec's nine commands (spec/40_header_codec.md R116 to R124). -/

namespace Sys2Proof.Machine

/-- The variants of the Ethernet payload type (R110). -/
inductive EthRtype where
  | ip | arp | unknown
  deriving DecidableEq, Repr

/-- The variants of the layer-4 protocol id (R111). -/
inductive IpProtocal where
  | icmp | igmp | tcp | udp | unknown
  deriving DecidableEq, Repr

/-- `cls_rtype` on the numeric wire value (R110); 0x0806 is the spec's general knowledge G1 (log 15). -/
def clsRtype (v : Nat) : EthRtype :=
  if v = 0x0800 then .ip else if v = 0x0806 then .arp else .unknown

/-- `cls_proto` on the numeric wire value (R111); the numbers are the spec's general knowledge G2 (log 15). -/
def clsProto (v : Nat) : IpProtocal :=
  if v = 1 then .icmp else if v = 2 then .igmp else if v = 6 then .tcp else if v = 17 then .udp else .unknown

/-- The variant code `CLS.RTYPE` returns (R110). -/
def EthRtype.code : EthRtype → Word
  | .ip => 0
  | .arp => 1
  | .unknown => 255

/-- The variant code `CLS.PROTO` returns (R111). -/
def IpProtocal.code : IpProtocal → Word
  | .icmp => 0
  | .igmp => 1
  | .tcp => 2
  | .udp => 3
  | .unknown => 255

/-- `FGET` (R117): the field's value, read byte by byte. A field that is not of the header type is an illegal `F` (R212);
the decoder answers it before a command gets here (log 17). -/
def startFget (t : HdrType) (f : Field) (addr : Word) (s : State) : Started :=
  match layout t f with
  | none => reject s .illegal
  | some l =>
    let a := addr.toNat + l.off
    if inSpace a l.width then ⟨s, .reads a l.width [] (.field l)⟩ else reject s .badArg

/-- `FGET`, run to its response. -/
def execFget (t : HdrType) (f : Field) (addr : Word) (s : State) : Result := (startFget t f addr s).complete

/-- `FPUT` (R118): the value must fit the field and the field the address space, before any access. -/
def startFput (t : HdrType) (f : Field) (addr v : Word) (s : State) : Started :=
  match layout t f with
  | none => reject s .illegal
  | some l =>
    let a := addr.toNat + l.off
    if fits v l.valueBits && inSpace a l.width then
      ⟨s, if l.subByte then .patch l a v.toNat else .writes a (putField l 0 v.toNat)⟩
    else reject s .badArg

/-- `FPUT`, run to its response. -/
def execFput (t : HdrType) (f : Field) (addr v : Word) (s : State) : Result := (startFput t f addr v s).complete

/-- `HDR.SIZE` (R116). -/
def startHdrSize (t : HdrType) (s : State) : Started := done s { r0 := word (headerSize t) }

/-- `HDR.SIZE`, run to its response. -/
def execHdrSize (t : HdrType) (s : State) : Result := (startHdrSize t s).complete

/-- `CLS.RTYPE` (R119). -/
def startClsRtype (v : Word) (s : State) : Started :=
  if fits v 16 then done s { r0 := (clsRtype v.toNat).code } else reject s .badArg

/-- `CLS.RTYPE`, run to its response. -/
def execClsRtype (v : Word) (s : State) : Result := (startClsRtype v s).complete

/-- `CLS.PROTO` (R120). -/
def startClsProto (v : Word) (s : State) : Started :=
  if fits v 8 then done s { r0 := (clsProto v.toNat).code } else reject s .badArg

/-- `CLS.PROTO`, run to its response. -/
def execClsProto (v : Word) (s : State) : Result := (startClsProto v s).complete

/-- `TF.UNION` (R121). -/
def startTfUnion (a b : Word) (s : State) : Started :=
  if fits a 8 && fits b 8 then done s { r0 := (tfUnion (tfDecode a) (tfDecode b)).setWidth 64 }
  else reject s .badArg

/-- `TF.UNION`, run to its response. -/
def execTfUnion (a b : Word) (s : State) : Result := (startTfUnion a b s).complete

/-- `TF.INTER` (R122). -/
def startTfInter (a b : Word) (s : State) : Started :=
  if fits a 8 && fits b 8 then done s { r0 := (tfInter (tfDecode a) (tfDecode b)).setWidth 64 }
  else reject s .badArg

/-- `TF.INTER`, run to its response. -/
def execTfInter (a b : Word) (s : State) : Result := (startTfInter a b s).complete

/-- `TF.CONTAINS` (R123). -/
def startTfContains (a b : Word) (s : State) : Started :=
  if fits a 8 && fits b 8 then done s { r0 := truthWord (tfContains (tfDecode a) (tfDecode b)) }
  else reject s .badArg

/-- `TF.CONTAINS`, run to its response. -/
def execTfContains (a b : Word) (s : State) : Result := (startTfContains a b s).complete

/-- `TF.DEC` (R124). -/
def startTfDec (b : Word) (s : State) : Started :=
  if fits b 8 then done s { r0 := (tfDecode b).setWidth 64 } else reject s .badArg

/-- `TF.DEC`, run to its response. -/
def execTfDec (b : Word) (s : State) : Result := (startTfDec b s).complete

end Sys2Proof.Machine
end

