-- ==== Sys2Proof/Machine/MemoryHal.lean ====
section
/-! DEFINITION. The Memory HAL (spec/43_memory_hal.md): the bump allocator (R180 to R182), the address identity (R183), the
queue-layout carver (R184, R185) and the register window (R186 to R192). -/

namespace Sys2Proof.Machine

/-- A range of bytes: start address and length (R184). -/
structure Range where
  start : Nat
  length : Nat
  deriving DecidableEq, Repr

/-- The three queue regions of a block (R184). -/
structure QueueRegions where
  desc : Range
  avail : Range
  used : Range
  deriving DecidableEq, Repr

/-- `carve` (R184): each region runs to the start of the next, the last to the end of the block. -/
def carve (base len d a u : Nat) : QueueRegions where
  desc := ⟨base + d, a - d⟩
  avail := ⟨base + a, u - a⟩
  used := ⟨base + u, len - u⟩

/-- The body of `DMA.ALLOC` and `DMA.ALLOCB` (R181, R182): the limit test and the fetch-and-add, one indivisible step. -/
def allocPages (pages : Word) (s : State) : Started :=
  let size := pages.toNat * pageSize
  if size ≥ addrLimit ∨ s.wm.toNat + size > s.cfg.dmaLimit then reject s .noMem
  else done (s.setWm (s.wm.toNat + size)) { r0 := word s.wm.toNat, r1 := word size }

/-- The body of `IO.R8` and `IO.R32` (R187, R188): one volatile read at `base + off`; the window's length takes no part
(R186). -/
def ioRead (w : IoWidth) (base off : Word) (s : State) : Started :=
  let a := base.toNat + off.toNat
  if inSpace a w.bytes then ⟨s, .ioRead a w⟩ else reject s .badArg

/-- The body of `IO.W8` and `IO.W32` (R189, R190): one volatile write at `base + off` of the value's bytes, lowest
first. -/
def ioWrite (w : IoWidth) (base off value : Word) (s : State) : Started :=
  let a := base.toNat + off.toNat
  if fits value (8 * w.bytes) && inSpace a w.bytes then ⟨s, .ioWrite a w value.toNat⟩ else reject s .badArg

/-- `DMA.ALLOC` (R181). -/
def startDmaAlloc (pages : Word) (s : State) : Started := allocPages pages s

/-- `DMA.ALLOC`, run to its response. -/
def execDmaAlloc (pages : Word) (s : State) : Result := (startDmaAlloc pages s).complete

/-- `DMA.ALLOCB` (R182): the same watermark, the same allocation. -/
def startDmaAllocb (pages : Word) (s : State) : Started := allocPages pages s

/-- `DMA.ALLOCB`, run to its response. -/
def execDmaAllocb (pages : Word) (s : State) : Result := (startDmaAllocb pages s).complete

/-- `TO.PADDR` (R183): the identity. -/
def startToPaddr (vaddr : Word) (s : State) : Started := done s { r0 := vaddr }

/-- `TO.PADDR`, run to its response. -/
def execToPaddr (vaddr : Word) (s : State) : Result := (startToPaddr vaddr s).complete

/-- `Q.LAYOUT` (R185). -/
def startQLayout (base len d a u : Word) (s : State) : Started :=
  if inSpace base.toNat len.toNat && (decide (d < a) && decide (a < u) && decide (u ≤ len)) then
    let q := carve base.toNat len.toNat d.toNat a.toNat u.toNat
    done s
      { r0 := word q.desc.start, r1 := word q.desc.length
        r2 := word q.avail.start, r3 := word q.avail.length
        r4 := word q.used.start, r5 := word q.used.length }
  else reject s .badArg

/-- `Q.LAYOUT`, run to its response. -/
def execQLayout (base len d a u : Word) (s : State) : Result := (startQLayout base len d a u s).complete

/-- `IO.R8` (R187). -/
def startIoR8 (base _len off : Word) (s : State) : Started := ioRead .w8 base off s

/-- `IO.R8`, run to its response. -/
def execIoR8 (base len off : Word) (s : State) : Result := (startIoR8 base len off s).complete

/-- `IO.R32` (R188). -/
def startIoR32 (base _len off : Word) (s : State) : Started := ioRead .w32 base off s

/-- `IO.R32`, run to its response. -/
def execIoR32 (base len off : Word) (s : State) : Result := (startIoR32 base len off s).complete

/-- `IO.W8` (R189). -/
def startIoW8 (base _len off value : Word) (s : State) : Started := ioWrite .w8 base off value s

/-- `IO.W8`, run to its response. -/
def execIoW8 (base len off value : Word) (s : State) : Result := (startIoW8 base len off value s).complete

/-- `IO.W32` (R190). -/
def startIoW32 (base _len off value : Word) (s : State) : Started := ioWrite .w32 base off value s

/-- `IO.W32`, run to its response. -/
def execIoW32 (base len off value : Word) (s : State) : Result := (startIoW32 base len off value s).complete

/-- `IO.PADDR` (R191). -/
def startIoPaddr (base _len : Word) (s : State) : Started := done s { r0 := base }

/-- `IO.PADDR`, run to its response. -/
def execIoPaddr (base len : Word) (s : State) : Result := (startIoPaddr base len s).complete

/-- `IO.VADDR` (R192). -/
def startIoVaddr (base _len : Word) (s : State) : Started := done s { r0 := base }

/-- `IO.VADDR`, run to its response. -/
def execIoVaddr (base len : Word) (s : State) : Result := (startIoVaddr base len s).complete

end Sys2Proof.Machine
end

