-- ==== Sys2Proof/Machine/Dispatch.lean ====
section
/-! DEFINITION. One arm per command: which meaning executes it. -/

namespace Sys2Proof.Machine

def exec (i : Instr) (s : State) : Host.Outcome State Fault Refusal :=
  match i with
  -- Header Codec
  | .fget t f addr => Sys2Proof.Machine.execFget t f addr s
  | .fput t f addr v => Sys2Proof.Machine.execFput t f addr v s
  | .hdrSize t => Sys2Proof.Machine.execHdrSize t s
  | .clsRtype v => Sys2Proof.Machine.execClsRtype v s
  | .clsProto v => Sys2Proof.Machine.execClsProto v s
  | .tfUnion a b => Sys2Proof.Machine.execTfUnion a b s
  | .tfInter a b => Sys2Proof.Machine.execTfInter a b s
  | .tfContains a b => Sys2Proof.Machine.execTfContains a b s
  | .tfDec b => Sys2Proof.Machine.execTfDec b s
  -- Checksum Engine
  | .csum addr len seed => Sys2Proof.Machine.execCsum addr len seed s
  -- Buffer Cursor
  | .curOpen k base len => Sys2Proof.Machine.execCurOpen k base len s
  | .curNext k v => Sys2Proof.Machine.execCurNext k v s
  | .curNextm k v => Sys2Proof.Machine.execCurNextm k v s
  | .curRem k => Sys2Proof.Machine.execCurRem k s
  | .curRemm k => Sys2Proof.Machine.execCurRemm k s
  -- Memory HAL
  | .dmaAlloc pages => Sys2Proof.Machine.execDmaAlloc pages s
  | .dmaAllocb pages => Sys2Proof.Machine.execDmaAllocb pages s
  | .toPaddr vaddr => Sys2Proof.Machine.execToPaddr vaddr s
  | .qLayout base len d a u => Sys2Proof.Machine.execQLayout base len d a u s
  | .ioR8 base len off => Sys2Proof.Machine.execIoR8 base len off s
  | .ioR32 base len off => Sys2Proof.Machine.execIoR32 base len off s
  | .ioW8 base len off value => Sys2Proof.Machine.execIoW8 base len off value s
  | .ioW32 base len off value => Sys2Proof.Machine.execIoW32 base len off value s
  | .ioPaddr base len => Sys2Proof.Machine.execIoPaddr base len s
  | .ioVaddr base len => Sys2Proof.Machine.execIoVaddr base len s

end Sys2Proof.Machine
end

