-- ==== Sys2Proof/Machine/Start.lean ====
section
/-! DEFINITION. The start of every command, by command. -/

namespace Sys2Proof.Machine

/-- The start of a command: `exec` is its completion with nothing between its turns (`exec_eq_complete` in the laws). -/
def start (i : Instr) (s : State) : Started :=
  match i with
  -- Header Codec
  | .fget t f addr => startFget t f addr s
  | .fput t f addr v => startFput t f addr v s
  | .hdrSize t => startHdrSize t s
  | .clsRtype v => startClsRtype v s
  | .clsProto v => startClsProto v s
  | .tfUnion a b => startTfUnion a b s
  | .tfInter a b => startTfInter a b s
  | .tfContains a b => startTfContains a b s
  | .tfDec b => startTfDec b s
  -- Checksum Engine
  | .csum addr len seed => startCsum addr len seed s
  -- Buffer Cursor
  | .curOpen k base len => startCurOpen k base len s
  | .curNext k v => startCurNext k v s
  | .curNextm k v => startCurNextm k v s
  | .curRem k => startCurRem k s
  | .curRemm k => startCurRemm k s
  -- Memory HAL
  | .dmaAlloc pages => startDmaAlloc pages s
  | .dmaAllocb pages => startDmaAllocb pages s
  | .toPaddr vaddr => startToPaddr vaddr s
  | .qLayout base len d a u => startQLayout base len d a u s
  | .ioR8 base len off => startIoR8 base len off s
  | .ioR32 base len off => startIoR32 base len off s
  | .ioW8 base len off value => startIoW8 base len off value s
  | .ioW32 base len off value => startIoW32 base len off value s
  | .ioPaddr base len => startIoPaddr base len s
  | .ioVaddr base len => startIoVaddr base len s

end Sys2Proof.Machine
end

