-- ==== Sys2Proof/Machine/Input.lean ====
section
/-! DEFINITION. How the block takes its next input. It has no program counter and fetches nothing (spec/10_state.md R21):
what happens next is the event at the head of `State.input`. -/

namespace Sys2Proof.Machine

/-- The state in which the command of `port` is executed: its event is taken off the input. -/
def State.serving (s : State) (port : Nat) (rest : List Event) : State := { s with input := rest, port := port }

/-- One command packet begins: decoded and started; an illegal packet gets `ST_ILLEGAL` and changes nothing (R80, R212). -/
def startPacket (packet : Packet) (s : State) : Started :=
  match decode packet with
  | .ok i => start i s
  | .error _ => reject s .illegal

/-- One command packet, run to its response with nothing between its turns. -/
def runPacket (packet : Packet) (s : State) : Result :=
  match decode packet with
  | .ok i => exec i s
  | .error _ => (reject s .illegal).complete

/-- The state in which a started command is in progress. -/
def Started.launch (b : Started) (port : Nat) : State :=
  { b.state with flights := b.state.flights ++ [⟨port, b.job⟩] }

/-- One turn of the command in progress of a port; nothing happens if the port is free. -/
def State.takeTurn (s : State) (port : Nat) : Result :=
  match s.jobOf port with
  | none => .next s
  | some j =>
    match j.turn { s with port := port } with
    | .next (t, j') => .next { t with flights := putJob t.flights port j' }
    | .fault e => .fault e
    | .refused e => .refused e

/-- A command comes on a port: `go` if the port is free. A port's commands are executed one at a time, so while one is in
progress it takes its turns and the new one waits (R52). -/
def State.accept (s : State) (port : Nat) (go : Result) : Result :=
  if port < s.cfg.nport then
    match s.jobOf port with
    | none => go
    | some _ => s.takeTurn port
  else .refused .noSuchPort

/-- The next event. With no event to come, a command in progress takes its turns (R243: it ends without waiting for
anything), and with none in progress the block waits, unchanged (log 4). -/
def takeEvent (s : State) : Result :=
  match s.input with
  | [] =>
    match s.flights with
    | [] => .next s
    | f :: _ => s.takeTurn f.port
  | .command port packet :: rest => s.accept port (runPacket packet (s.serving port rest))
  | .start port packet :: rest => s.accept port (.next ((startPacket packet (s.serving port rest)).launch port))
  | .turn port :: rest => State.takeTurn { s with input := rest } port
  | .envStore a b :: rest => .next (State.envStore { s with input := rest } a b)
  | .reset :: rest => .next (State.applyReset { s with input := rest })

/-- The state in which the packet is the next thing port 0 presents, and port 0 is free to begin it. -/
def State.presenting (s : State) (packet : Packet) : State :=
  { s with input := .command 0 packet :: s.input, flights := putJob s.flights 0 none }

end Sys2Proof.Machine
end

