-- ==== Sys2Proof/Machine/Step.lean ====
section
/-! DEFINITION. One step of the machine, and where a test places a command so that the next step runs it. -/

namespace Sys2Proof.Machine

/-- One step: the block takes its next event (`takeEvent`). -/
def step (s : State) : Host.Outcome State Fault Refusal := takeEvent s

/-- The state in which the command whose bits are the low `nbits` bits of `w` is the next event, presented on port 0
(log 4, log 16). -/
def State.withFetchWord (s : State) (nbits w : Nat) : State := s.presenting (Packet.ofBits nbits w)

end Sys2Proof.Machine
end

