-- ==== Sys2Proof/Safety.lean ====
section
/-! DEFINITION. The terms claims are stated in: which configurations and states are legal (the invariants of
spec/10_state.md), which statuses a command may return (spec/60_exceptions.md R216), what an outcome says, and running a
list of commands. -/

namespace Sys2Proof.Machine

/-! ## Legal configurations and states -/

/-- Two regions share no address. -/
def Region.apart (r q : Region) : Bool := decide (r.hi ≤ q.lo) || decide (q.hi ≤ r.lo)

/-- The constraints R8 puts on an instance: `IMAGE_END ≤ DMA_LIMIT ≤ 2^XLEN`, `NPORT ≥ 1`, and the two maps are sets of
addresses of the one address space (R26) that share none. -/
def configWf (c : Config) : Bool :=
  decide (c.imageEnd ≤ c.dmaLimit) && decide (c.dmaLimit ≤ addrLimit) && decide (1 ≤ c.nport) &&
    c.memMap.all (fun r => decide (r.hi ≤ addrLimit)) && c.ioMap.all (fun r => decide (r.hi ≤ addrLimit)) &&
    c.memMap.all (fun r => c.ioMap.all fun q => Region.apart r q)

/-- The invariant of one slot while it is live (R24): `off <= len` and `base + len <= 2^XLEN`. -/
def cursorWf (c : Cursor) : Bool :=
  !c.valid || (decide (c.off.toNat ≤ c.len.toNat) && inSpace c.base.toNat c.len.toNat)

/-- The invariant of the watermark (R23): `IMAGE_END <= WM <= DMA_LIMIT`. -/
def watermarkWf (s : State) : Bool :=
  decide (s.cfg.imageEnd ≤ s.wm.toNat) && decide (s.wm.toNat ≤ s.cfg.dmaLimit)

/-- Memory is in canonical form and holds bytes at backed addresses only. -/
def memoryWf (s : State) : Bool := Memory.wf s.mem && s.mem.all (fun e => backs s.cfg e.1)

/-- A command in progress stays inside the address space (R50), and a status other than `ST_OK` comes with results of 0
(R71). -/
def jobWf : Job → Bool
  | .reads a n _ _ => inSpace a n
  | .patch l a _ => l.subByte && inSpace a 1
  | .writes a bs => inSpace a bs.length
  | .ioRead a w => inSpace a w.bytes
  | .ioWrite a w _ => inSpace a w.bytes
  | .reply resp => decide (resp.st = .ok) || decide (resp.r = {})

/-- Each command in progress is of a port of the instance, and no port has two (R52). -/
def flightsWf (s : State) : Bool :=
  s.flights.all (fun f => decide (f.port < s.cfg.nport) && jobWf f.job) && decide (s.flights.map Flight.port).Nodup

/-- The invariant of the machine. -/
def State.inv (s : State) : Bool :=
  configWf s.cfg && watermarkWf s && s.cur.toList.all cursorWf && memoryWf s && flightsWf s

/-! ## Legal packets (spec/30_encoding.md R74 to R77, R80, R81, R84) -/

/-- `T` is legal for the command: 0 to 5 where a header type is asked for, also 15 for `CUR.NEXT` and `CUR.NEXTM`, 0 where
unused (R77). -/
def tLegal (op : Opcode) (t : Nat) : Prop :=
  match op with
  | .fget | .fput | .hdrSize => t ≤ 5
  | .curNext | .curNextm => t ≤ 5 ∨ t = 15
  | _ => t = 0

/-- `K` is legal for the command: below `NCUR` where used, 0 where unused (R74). -/
def kLegal (op : Opcode) (k : Nat) : Prop := if op.usesK then k < 4 else k = 0

/-- `F` is legal for the command: for `FGET` and `FPUT` one of the selectors R76 lists for `T`, 0 where unused. -/
def fLegal (op : Opcode) (t f : Nat) : Prop :=
  if op.usesF then
    match t with
    | 0 => f ≤ 2
    | 1 => f ≤ 8
    | 2 => f ≤ 9 ∨ f = 16 ∨ f = 17
    | 3 => f ≤ 3
    | 4 => f ≤ 8
    | 5 => f ≤ 4
    | _ => False
  else f = 0

/-- How many operand words the command uses, given its `T` (R75, column "operands"). -/
def operandsUsed (op : Opcode) (t : Nat) : Nat :=
  match op with
  | .hdrSize | .curRem | .curRemm => 0
  | .fget | .clsRtype | .clsProto | .tfDec | .dmaAlloc | .dmaAllocb | .toPaddr => 1
  | .fput | .tfUnion | .tfInter | .tfContains | .curOpen | .ioPaddr | .ioVaddr => 2
  | .csum | .ioR8 | .ioR32 => 3
  | .ioW8 | .ioW32 => 4
  | .qLayout => 5
  | .curNext | .curNextm => if t = 15 then 1 else 0

/-- The packet is a legal encoding of the command `op`: `CW` read as a number has `OP` in its low byte and `Z` = 0, the
selectors are legal, and every operand word the command does not use is zero (R80, R81). -/
def legalFor (p : Packet) (op : Opcode) : Prop :=
  p.cw.toNat % 256 = op.code.toNat ∧ p.cw.toNat / 2 ^ 24 = 0 ∧
    tLegal op (p.cw.toNat / 2 ^ 8 % 16) ∧ kLegal op (p.cw.toNat / 2 ^ 12 % 16) ∧
    fLegal op (p.cw.toNat / 2 ^ 8 % 16) (p.cw.toNat / 2 ^ 16 % 256) ∧
    ∀ j, operandsUsed op (p.cw.toNat / 2 ^ 8 % 16) ≤ j → p.operand j = 0

/-! ## The layout tables (spec/40_header_codec.md R101 to R106), as printed -/

/-- One row of a layout table: the selector `F`, the field, its byte offset and width, and the bits of its value range. -/
structure FieldRow where
  sel : BitVec 8
  field : Field
  off : Nat
  width : Nat
  bits : Nat
  deriving DecidableEq, Repr

/-- The rows of R101 to R106. -/
def fieldTable : HdrType → List FieldRow
  | .eth => [⟨0, .dhost, 0, 6, 48⟩, ⟨1, .shost, 6, 6, 48⟩, ⟨2, .rtype, 12, 2, 16⟩]
  | .arp => [⟨0, .httype, 0, 2, 16⟩, ⟨1, .pttype, 2, 2, 16⟩, ⟨2, .hlen, 4, 1, 8⟩, ⟨3, .plen, 5, 1, 8⟩,
      ⟨4, .op, 6, 2, 16⟩, ⟨5, .sha, 8, 6, 48⟩, ⟨6, .spa, 14, 4, 32⟩, ⟨7, .tha, 18, 6, 48⟩,
      ⟨8, .tpa, 24, 4, 32⟩]
  | .ip => [⟨0, .vhl, 0, 1, 8⟩, ⟨1, .tos, 1, 1, 8⟩, ⟨2, .len, 2, 2, 16⟩, ⟨3, .id, 4, 2, 16⟩,
      ⟨4, .off, 6, 2, 16⟩, ⟨5, .ttl, 8, 1, 8⟩, ⟨6, .pro, 9, 1, 8⟩, ⟨7, .sum, 10, 2, 16⟩, ⟨8, .src, 12, 4, 32⟩,
      ⟨9, .dst, 16, 4, 32⟩, ⟨16, .ver, 0, 1, 4⟩, ⟨17, .ihl, 0, 1, 4⟩]
  | .udp => [⟨0, .sport, 0, 2, 16⟩, ⟨1, .dport, 2, 2, 16⟩, ⟨2, .ulen, 4, 2, 16⟩, ⟨3, .sum, 6, 2, 16⟩]
  | .tcp => [⟨0, .sport, 0, 2, 16⟩, ⟨1, .dport, 2, 2, 16⟩, ⟨2, .seq, 4, 4, 32⟩, ⟨3, .ack, 8, 4, 32⟩,
      ⟨4, .offset, 12, 1, 8⟩, ⟨5, .flags, 13, 1, 8⟩, ⟨6, .win, 14, 2, 16⟩, ⟨7, .sum, 16, 2, 16⟩,
      ⟨8, .urg, 18, 2, 16⟩]
  | .icmp => [⟨0, .type, 0, 1, 8⟩, ⟨1, .code, 1, 1, 8⟩, ⟨2, .checksum, 2, 2, 16⟩, ⟨3, .id, 4, 2, 16⟩,
      ⟨4, .seq, 6, 2, 16⟩]

/-! ## The one's-complement sum in natural numbers (spec/41_checksum.md R144) -/

/-- The sum of the big-endian words of a byte string, an odd trailing byte counted as a high byte, without reduction. -/
def wordSum : List Byte → Nat
  | hi :: lo :: rest => hi.toNat * 256 + lo.toNat + wordSum rest
  | [hi] => hi.toNat * 256
  | [] => 0

/-- The closed form of R144: `total` reduced modulo 65535 into `1 .. 65535`, complemented; 0xFFFF for 0. -/
def complementOf (total : Nat) : Nat := if total = 0 then 0xFFFF else 0xFFFF - ((total - 1) % 65535 + 1)

/-- The byte string with the two bytes of every 16-bit word swapped (R147); meant for an even length. -/
def swapBytes : List Byte → List Byte
  | hi :: lo :: rest => lo :: hi :: swapBytes rest
  | [b] => [b]
  | [] => []

/-! ## Allocations (spec/43_memory_hal.md R194) -/

/-- The allocation command of one request: `DMA.ALLOCB` if the flag is set, else `DMA.ALLOC`. -/
def allocInstr (req : Bool × Word) : Instr := if req.1 then .dmaAllocb req.2 else .dmaAlloc req.2

/-- The bytes a list of requests asks for. -/
def bytesAsked (reqs : List (Bool × Word)) : Nat := (reqs.map fun req => req.2.toNat * 4096).sum

/-! ## Statuses (R216) -/

/-- The statuses an instruction may answer, the rows of R216; `ST_ILLEGAL` is in every row. -/
def allowedStatuses : Instr → List Status
  | .fget _ _ _ => [.ok, .badArg, .illegal]
  | .fput _ _ _ _ => [.ok, .badArg, .illegal]
  | .hdrSize _ => [.ok, .illegal]
  | .clsRtype _ => [.ok, .badArg, .illegal]
  | .clsProto _ => [.ok, .badArg, .illegal]
  | .tfUnion _ _ => [.ok, .badArg, .illegal]
  | .tfInter _ _ => [.ok, .badArg, .illegal]
  | .tfContains _ _ => [.ok, .badArg, .illegal]
  | .tfDec _ => [.ok, .badArg, .illegal]
  | .csum _ _ _ => [.ok, .badArg, .illegal]
  | .curOpen _ _ _ => [.ok, .badArg, .illegal]
  | .curNext _ _ => [.ok, .noData, .noCur, .illegal]
  | .curNextm _ _ => [.ok, .noData, .noCur, .illegal]
  | .curRem _ => [.ok, .noCur, .illegal]
  | .curRemm _ => [.ok, .noCur, .illegal]
  | .dmaAlloc _ => [.ok, .noMem, .illegal]
  | .dmaAllocb _ => [.ok, .noMem, .illegal]
  | .toPaddr _ => [.ok, .illegal]
  | .qLayout _ _ _ _ _ => [.ok, .badArg, .illegal]
  | .ioR8 _ _ _ => [.ok, .badArg, .illegal]
  | .ioR32 _ _ _ => [.ok, .badArg, .illegal]
  | .ioW8 _ _ _ _ => [.ok, .badArg, .illegal]
  | .ioW32 _ _ _ _ => [.ok, .badArg, .illegal]
  | .ioPaddr _ _ => [.ok, .illegal]
  | .ioVaddr _ _ => [.ok, .illegal]

/-! ## Runs -/

/-- A list of commands executed one after the other, stopping where one stops (R52, one port). -/
def execAll : List Instr → State → Result
  | [], s => .next s
  | i :: is, s =>
    match exec i s with
    | .next s' => execAll is s'
    | .fault r => .fault r
    | .refused r => .refused r

/-- The responses sent so far with their ports, oldest first (R71). -/
def replies : List Action → List (Nat × Response)
  | [] => []
  | .reply p r :: as => (p, r) :: replies as
  | .read _ _ :: as => replies as
  | .write _ _ :: as => replies as
  | .ioRead _ _ :: as => replies as
  | .ioWrite _ _ :: as => replies as

/-- The action is a memory access, ordinary or volatile, not a response. -/
def Action.isAccess : Action → Bool
  | .read _ _ => true
  | .write _ _ => true
  | .ioRead _ _ => true
  | .ioWrite _ _ => true
  | .reply _ _ => false

end Sys2Proof.Machine
end

