-- ==== Sys2Proof/Certificates/Slice0/Obligations.lean ====
section
/-! DEFINITION. The statements for the provers. Where a command's rule is stated whole, the statement gives the packet that
encodes it, the next state in full (so that it is the frame as well) and the condition of every other outcome. Written
out, `{ s with … }` says that every field not named is unchanged: the watermark, the slots, memory, the configuration. -/

open Sys2Proof Sys2Proof.Machine

/-! ## Reset and the invariant -/

/-- R231 and the last row of R30: the event of reset sets the block's own state and touches no memory, makes no access and
sends no response; every command in progress is abandoned, and what it has written stays written. -/
def Obligations.ResetEventSetsTheStateAfterReset : Prop :=
  ∀ (s : State) (rest : List Event), configWf s.cfg = true → s.input = .reset :: rest →
    ∃ t, step s = .next t ∧ t.wm.toNat = s.cfg.imageEnd ∧ (∀ k, t.slot k = ⟨false, 0, 0, 0⟩) ∧
      t = { s with input := rest, wm := t.wm, cur := t.cur, flights := [] }

/-- R30, for every instance: the state after reset. The empty `input`, `trace`, `port` 0 and `draws` 0 are the model's
choice (log 4, 5, 7), and so is the instance `State.reset` takes (log 2). -/
def Obligations.StateAfterResetHoldsTheResetValues : Prop :=
  (∀ c : Config, configWf c = true →
    (State.resetOf c).cfg = c ∧ (State.resetOf c).wm.toNat = c.imageEnd ∧
      (∀ k, (State.resetOf c).slot k = ⟨false, 0, 0, 0⟩) ∧ (State.resetOf c).mem = [] ∧
      (State.resetOf c).flights = [] ∧ (State.resetOf c).input = [] ∧ (State.resetOf c).trace = [] ∧ (State.resetOf c).port = 0 ∧
      (State.resetOf c).draws = 0) ∧
    State.reset = State.resetOf Config.vectors ∧ State.reset.wm = 0x80200000

/-- The invariant holds after reset, of every instance within R8's constraints. -/
def Obligations.StateAfterResetMeetsTheInvariant : Prop :=
  State.reset.inv = true ∧ ∀ c : Config, configWf c = true → (State.resetOf c).inv = true

/-- R23 and R24 as one invariant of every step: `IMAGE_END <= WM <= DMA_LIMIT`, every live slot within its buffer and the
address space, memory in canonical form at backed addresses only, at most one command in progress of a port (R52), each
within the address space. -/
def Obligations.EveryStepKeepsTheInvariant : Prop :=
  ∀ s t : State, s.inv = true → step s = .next t → t.inv = true

/-! ## Encoding -/

/-- R80: encoding then decoding is the identity, for every well-formed instruction with every operand. -/
def Obligations.DecodingTheEncodedCommandGivesItBack : Prop :=
  ∀ i : Instr, i.wf = true → decode (encode i) = .ok i

/-- R80, the reverse: a packet that decodes is the one encoding of what it decodes to, and that is well formed. -/
def Obligations.EncodingTheDecodedPacketGivesItBack : Prop :=
  ∀ (p : Packet) (i : Instr), decode p = .ok i → i.wf = true ∧ encode i = p

/-- R80: a packet decodes, to a command of its opcode, exactly when it is legal. -/
def Obligations.DecoderAcceptsExactlyTheLegalPackets : Prop :=
  ∀ (p : Packet) (op : Opcode), legalFor p op ↔ ∃ i, decode p = .ok i ∧ i.opcode = op

/-- R84: `CW & mask == match` selects the command, and no two rows select one word. -/
def Obligations.MaskAndMatchSelectTheCommand : Prop :=
  (∀ (p : Packet) (i : Instr), decode p = .ok i → p.cw &&& i.opcode.mask = i.opcode.pattern) ∧
    ∀ (w : BitVec 32) (op op' : Opcode), w &&& op.mask = op.pattern → w &&& op'.mask = op'.pattern → op = op'

/-- Words written out from R72, R73, R76 and the examples of the command rules decode to the commands they stand for. -/
def Obligations.WordsWrittenOutDecodeToTheirCommands : Prop :=
  decode { cw := 0b00000000_00001000_0000_0010_00010000, a0 := 0x1000 } = .ok (.fget .ip .src 0x1000) ∧
  decode { cw := 0b00000000_00000010_0000_0000_00010001, a0 := 0x2000, a1 := 0x0800 } =
    .ok (.fput .eth .rtype 0x2000 0x0800) ∧
  decode { cw := 0b00000000_00000000_0000_0000_00100000, a0 := 0x1000, a1 := 20 } = .ok (.csum 0x1000 20 0) ∧
  decode { cw := 0b00000000_00000000_0001_1111_00110001, a0 := 5 } = .ok (.curNext 1 (.raw 5)) ∧
  decode { cw := 0b00000000_00000000_0000_0000_01001011, a0 := 0x10001000, a1 := 0x100, a2 := 0x50 } =
    .ok (.ioW32 0x10001000 0x100 0x50 0)

/-! ## One step -/

/-- A command on a port that is free: presented whole, the step runs the decoded command, in the state with that event
taken off and its port noted; started, the step does what the start of the decoded command does and leaves the rest in
progress. (A command on a port with a command in progress waits: `StepWaitsWithoutInputAndRefusesUnknownPorts`.) -/
def Obligations.StepRunsTheDecodedCommand : Prop :=
  ∀ (s : State) (port : Nat) (p : Packet) (i : Instr) (rest : List Event),
    port < s.cfg.nport → s.jobOf port = none → decode p = .ok i →
      (s.input = .command port p :: rest → step s = exec i { s with input := rest, port := port }) ∧
      (s.input = .start port p :: rest →
        step s = .next { (start i { s with input := rest, port := port }).state with
                         flights := s.flights ++ [⟨port, (start i { s with input := rest, port := port }).job⟩] })

/-- A command that starts and then takes its turns with nothing between them is the command run as a whole, in every outcome.
And its whole effect on `WM` and `CUR` happens at its start: R53 and R14 say that the effect is indivisible; that it stands
at the start and not later is the model's choice (log 6). -/
def Obligations.StartedCommandRunToItsEndIsTheCommand : Prop :=
  (∀ (s : State) (port : Nat) (p : Packet) (i : Instr) (rest : List Event),
    port < s.cfg.nport → s.jobOf port = none → decode p = .ok i →
      ∃ n, Host.Core.run Sys2Proof.core (n + 1)
          { s with input := .start port p :: (List.replicate n (.turn port) ++ rest) } =
        exec i { s with input := rest, port := port }) ∧
  ∀ (i : Instr) (s t : State), exec i s = .next t → (start i s).state = { s with wm := t.wm, cur := t.cur }

/-- R48, R52 and R238, for whatever fell between the turns: a turn of a command in progress makes one access or sends the
response, and leaves `WM`, `CUR` and the other ports' commands as they are; the turns left become one fewer, so that the
command ends (R243). A read takes the byte its address holds at that moment, a write stores its byte at that moment, and
the response of a read is computed from the bytes read. A volatile access is one access of its width: a read takes what
memory and the device answer at that moment, with one draw (R47; log 7, log 11), a write stores the bytes that fall on
memory. That a turn leaves `WM` and `CUR` alone, because a command has had its effect on them at its start, is the model's
choice (log 6); that a device register keeps nothing of a write is, too (log 8). -/
def Obligations.EachTurnMakesOneAccessOrSendsTheResponse : Prop :=
  ∀ (s : State) (port : Nat) (j : Job) (rest : List Event), s.input = .turn port :: rest → s.jobOf port = some j →
    (∀ u, step s = .next u →
      (∀ q, q ≠ port → u.jobOf q = s.jobOf q) ∧
      u = { s with
            input := rest, port := port, flights := u.flights, mem := u.mem, draws := u.draws, trace := u.trace } ∧
      ((∃ x j', x.isAccess = true ∧ u.trace = s.trace ++ [x] ∧ u.jobOf port = some j' ∧ j.turns = j'.turns + 1) ∨
        ∃ resp : Response, u.trace = s.trace ++ [.reply port resp] ∧ u.jobOf port = none ∧ u.mem = s.mem ∧
          u.draws = s.draws ∧ j.turns = 1 ∧ (resp.st ≠ .ok → j = .reply resp))) ∧
    (∀ a n got use, j = .reads a (n + 1) got use → backs s.cfg a = true →
      ∃ u, step s = .next u ∧ u.jobOf port = some (.reads (a + 1) n (got ++ [s.byteAt a]) use) ∧ u.mem = s.mem ∧
        u.trace = s.trace ++ [.read a (s.byteAt a)]) ∧
    (∀ a got use, j = .reads a 0 got use →
      ∃ u, step s = .next u ∧ u.trace = s.trace ++ [.reply port ⟨.ok, use.results got⟩]) ∧
    (∀ l a v, j = .patch l a v → backs s.cfg a = true →
      ∃ u, step s = .next u ∧ u.jobOf port = some (.writes a (putField l (s.byteAt a) v)) ∧ u.mem = s.mem ∧
        u.trace = s.trace ++ [.read a (s.byteAt a)]) ∧
    (∀ a b bs, j = .writes a (b :: bs) → backs s.cfg a = true →
      ∃ u, step s = .next u ∧ u.jobOf port = some (.writes (a + 1) bs) ∧ u.byteAt a = b ∧
        (∀ x, x ≠ a → u.byteAt x = s.byteAt x) ∧ u.trace = s.trace ++ [.write a b]) ∧
    (∀ a w, j = .ioRead a w → a % w.bytes = 0 → reachesRange s.cfg a w.bytes = true →
      ∃ u, step s = .next u ∧ u.jobOf port = some (.reply ⟨.ok, ⟨word (le (s.ioBytes a 0 w.bytes)), 0, 0, 0, 0, 0⟩⟩) ∧
        u.mem = s.mem ∧ u.draws = s.draws + 1 ∧ u.trace = s.trace ++ [.ioRead a (s.ioBytes a 0 w.bytes)]) ∧
    (∀ a w v, j = .ioWrite a w v → a % w.bytes = 0 → reachesRange s.cfg a w.bytes = true →
      ∃ u, step s = .next u ∧ u.jobOf port = some (.reply ⟨.ok, ⟨0, 0, 0, 0, 0, 0⟩⟩) ∧
        u.mem = Memory.storeBacked s.cfg s.mem a (bytesLe v w.bytes) ∧
        (∀ x, x < a ∨ a + w.bytes ≤ x ∨ backs s.cfg x = false → u.byteAt x = s.byteAt x) ∧ u.draws = s.draws ∧
        u.trace = s.trace ++ [.ioWrite a (bytesLe v w.bytes)]) ∧
    ∀ resp, j = .reply resp → ∃ u, step s = .next u ∧ u.trace = s.trace ++ [.reply port resp]

/-- R212: an illegal packet gets `ST_ILLEGAL`, whose code is 5 (R211), with all results 0, and no state and no memory is
read or written, whether it is presented whole or starts and then sends its response. -/
def Obligations.IllegalPacketGetsIllegalAndChangesNothing : Prop :=
  Status.illegal.code = 5 ∧
  ∀ (s : State) (port : Nat) (p : Packet) (rest : List Event),
    port < s.cfg.nport → s.jobOf port = none → (∀ op, ¬ legalFor p op) →
      (s.input = .command port p :: rest →
        step s = .next { s with input := rest, port := port,
                                trace := s.trace ++ [.reply port ⟨.illegal, ⟨0, 0, 0, 0, 0, 0⟩⟩] }) ∧
      (s.input = .start port p :: rest →
        step s = .next { s with input := rest, port := port,
                                flights := s.flights ++ [⟨port, .reply ⟨.illegal, ⟨0, 0, 0, 0, 0, 0⟩⟩⟩] })

/-- R219: a store of the environment is no event of the block: it changes no block state and is seen only in the byte. -/
def Obligations.EnvironmentStoresChangeOnlyTheByte : Prop :=
  ∀ (s : State) (a : Nat) (b : Byte) (rest : List Event), s.input = .envStore a b :: rest →
    ∃ t, step s = .next t ∧ t = { s with input := rest, mem := t.mem } ∧
      (∀ x, x ≠ a → t.byteAt x = s.byteAt x) ∧ (backs s.cfg a = true → t.byteAt a = b)

/-- The model's choices about its input (log 4, log 14). With nothing to come and no command in progress the block waits,
unchanged; with one in progress it takes its turns (R243). A packet on a port the instance does not have is refused, because
no requester is there to present it (R8, R14). A port's commands are executed one at a time (R52): while one is in progress
it takes its turns and the next stays where it is. A turn of a free port does nothing. -/
def Obligations.StepWaitsWithoutInputAndRefusesUnknownPorts : Prop :=
  (∀ s : State, s.input = [] → s.flights = [] → step s = .next s) ∧
  (∀ (s : State) (f : Flight) (fs : List Flight), s.input = [] → s.flights = f :: fs → step s = s.takeTurn f.port) ∧
  (∀ (s : State) (port : Nat) (p : Packet) (rest : List Event),
    s.input = .command port p :: rest ∨ s.input = .start port p :: rest →
      (s.cfg.nport ≤ port → step s = .refused .noSuchPort) ∧
      (port < s.cfg.nport → s.jobOf port ≠ none → step s = s.takeTurn port)) ∧
  ∀ (s : State) (port : Nat) (rest : List Event), s.input = .turn port :: rest →
    step s = State.takeTurn { s with input := rest } port ∧ (s.jobOf port = none → step s = .next { s with input := rest })

/-! ## Header Codec -/

/-- R116 whole: the encoding, the six sizes, and `ST_ILLEGAL` for any other `T`. -/
def Obligations.HdrSizeReturnsTheSizeOfTheHeaderType : Prop :=
  (∀ (s : State) (T : BitVec 4) (t : HdrType) (n : Word),
    (T, t, n) ∈ [((0 : BitVec 4), HdrType.eth, (14 : Word)), (1, .arp, 28), (2, .ip, 20), (3, .udp, 8), (4, .tcp, 20),
      (5, .icmp, 8)] →
      decode { cw := (0x00000012 : BitVec 32) ||| (T.setWidth 32 <<< 8) } = .ok (.hdrSize t) ∧
        exec (.hdrSize t) s = .next { s with trace := s.trace ++ [.reply s.port ⟨.ok, ⟨n, 0, 0, 0, 0, 0⟩⟩] }) ∧
    ∀ T : BitVec 4, 6 ≤ T.toNat → decode { cw := (0x00000012 : BitVec 32) ||| (T.setWidth 32 <<< 8) } = .error .badSelector

/-- R76 and R101 to R106 (`fieldTable`): every selector the tables list names that field, with its byte offset, its byte
width and its value range, and no other selector names a field. R100: the offset of a whole field is the sum of the widths
of the fields declared before it, and the widths sum to the header's size, so the fields tile the header; `ver` and `ihl`
share byte 0. -/
def Obligations.FieldLayoutsAreTheTablesAndTileTheHeaders : Prop :=
  (∀ t : HdrType,
    (∀ row ∈ fieldTable t, t.fieldOfSel row.sel = some row.field ∧
      ∃ l, layout t row.field = some l ∧ l.off = row.off ∧ l.width = row.width ∧ l.valueBits = row.bits) ∧
    ∀ F f, t.fieldOfSel F = some f → ∃ row ∈ fieldTable t, row.sel = F ∧ row.field = f) ∧
  (∀ t : HdrType, ((wholeFields t).filterMap fun f => (layout t f).map FieldLayout.width).sum = headerSize t ∧
    ∀ n, n < (wholeFields t).length →
      ((wholeFields t)[n]?.bind fun f => (layout t f).map FieldLayout.off) =
        some (((wholeFields t).take n).filterMap fun f => (layout t f).map FieldLayout.width).sum) ∧
    layout .ip .ver = some ⟨0, 1, .highNibble⟩ ∧ layout .ip .ihl = some ⟨0, 1, .lowNibble⟩ ∧
    ∀ t f, (layout t f).isSome = t.hasField f

/-- R117 and R113 whole: the encoding; for a whole field the big-endian value of exactly the field's bytes, read once each
in ascending order, or `ST_BADARG` where the field leaves the address space; for `ver` and `ihl` bits 7:4 and 3:0 of the
byte at the view address (one byte at any address, so never beyond the space). -/
def Obligations.FgetReturnsTheValueOfTheField : Prop :=
  (∀ (s : State) (t : HdrType) (f : Field) (l : FieldLayout) (addr : Word), layout t f = some l →
    decode { cw := (0x00000010 : BitVec 32) ||| (t.sel.setWidth 32 <<< 8) ||| ((t.fieldSel f).setWidth 32 <<< 16),
             a0 := addr } = .ok (.fget t f addr) ∧
    (l.subByte = false → addr.toNat + l.off + l.width > 2 ^ 64 →
      exec (.fget t f addr) s = .next { s with trace := s.trace ++ [.reply s.port ⟨.badArg, ⟨0, 0, 0, 0, 0, 0⟩⟩] }) ∧
    (l.subByte = false → addr.toNat + l.off + l.width ≤ 2 ^ 64 →
      (∀ j < l.width, backs s.cfg (addr.toNat + l.off + j) = true) →
      ∃ r : Word, r.toNat = be ((List.range l.width).map fun j => s.byteAt (addr.toNat + l.off + j)) ∧
        exec (.fget t f addr) s =
          .next { s with trace := s.trace ++ ((List.range l.width).map fun j =>
              .read (addr.toNat + l.off + j) (s.byteAt (addr.toNat + l.off + j))) ++
            [.reply s.port ⟨.ok, ⟨r, 0, 0, 0, 0, 0⟩⟩] })) ∧
  ∀ (s : State) (addr : Word), backs s.cfg addr.toNat = true →
    exec (.fget .ip .ver addr) s =
      .next { s with trace := s.trace ++ [.read addr.toNat (s.byteAt addr.toNat),
        .reply s.port ⟨.ok, ⟨((s.byteAt addr.toNat).extractLsb' 4 4).setWidth 64, 0, 0, 0, 0, 0⟩⟩] } ∧
    exec (.fget .ip .ihl addr) s =
      .next { s with trace := s.trace ++ [.read addr.toNat (s.byteAt addr.toNat),
        .reply s.port ⟨.ok, ⟨((s.byteAt addr.toNat).extractLsb' 0 4).setWidth 64, 0, 0, 0, 0, 0⟩⟩] }

/-- R118: a value that does not fit the field, or a field beyond the address space, is `ST_BADARG` and nothing else
happens; the value of `ver` and `ihl` must be below 16. -/
def Obligations.FputOutOfRangeIsBadArgAndWritesNothing : Prop :=
  ∀ (s : State) (t : HdrType) (f : Field) (l : FieldLayout) (addr v : Word), layout t f = some l →
    decode { cw := (0x00000011 : BitVec 32) ||| (t.sel.setWidth 32 <<< 8) ||| ((t.fieldSel f).setWidth 32 <<< 16),
             a0 := addr, a1 := v } = .ok (.fput t f addr v) ∧
    (v.toNat ≥ 2 ^ (if f = .ver ∨ f = .ihl then 4 else 8 * l.width) ∨ addr.toNat + l.off + l.width > 2 ^ 64 →
      exec (.fput t f addr v) s = .next { s with trace := s.trace ++ [.reply s.port ⟨.badArg, ⟨0, 0, 0, 0, 0, 0⟩⟩] })

/-- R118 and R114 for every whole field: the value is stored big-endian in exactly the field's bytes (TCP `flags`: with
bits 7:6 cleared, R108), one byte at a time in ascending order, and every other byte of memory is unchanged. -/
def Obligations.FputStoresTheFieldBigEndianAndNothingElse : Prop :=
  ∀ (s : State) (t : HdrType) (f : Field) (l : FieldLayout) (addr v : Word),
    layout t f = some l → l.subByte = false → v.toNat < 2 ^ (8 * l.width) → addr.toNat + l.off + l.width ≤ 2 ^ 64 →
    (∀ j < l.width, backs s.cfg (addr.toNat + l.off + j) = true) →
      ∃ u, exec (.fput t f addr v) s = .next u ∧
        be ((List.range l.width).map fun j => u.byteAt (addr.toNat + l.off + j)) =
          (if f = .flags then v.toNat % 64 else v.toNat) ∧
        (∀ x, x < addr.toNat + l.off ∨ addr.toNat + l.off + l.width ≤ x → u.byteAt x = s.byteAt x) ∧
        u = { s with
              mem := u.mem
              trace := s.trace ++ ((List.range l.width).map fun j =>
                  .write (addr.toNat + l.off + j) (u.byteAt (addr.toNat + l.off + j))) ++
                [.reply s.port ⟨.ok, ⟨0, 0, 0, 0, 0, 0⟩⟩] }

/-- R114 for the sub-byte fields: the byte is read, then written with one nibble replaced and the other kept. -/
def Obligations.FputOfANibbleKeepsTheOtherNibble : Prop :=
  ∀ (s : State) (addr v : Word), v.toNat < 16 → backs s.cfg addr.toNat = true →
    (∃ u, exec (.fput .ip .ver addr v) s = .next u ∧ (∀ x, x ≠ addr.toNat → u.byteAt x = s.byteAt x) ∧
      u.byteAt addr.toNat = v.setWidth 4 ++ (s.byteAt addr.toNat).setWidth 4 ∧
      u = { s with
            mem := u.mem
            trace := s.trace ++ [.read addr.toNat (s.byteAt addr.toNat), .write addr.toNat (u.byteAt addr.toNat),
              .reply s.port ⟨.ok, ⟨0, 0, 0, 0, 0, 0⟩⟩] }) ∧
    (∃ u, exec (.fput .ip .ihl addr v) s = .next u ∧ (∀ x, x ≠ addr.toNat → u.byteAt x = s.byteAt x) ∧
      u.byteAt addr.toNat = (s.byteAt addr.toNat).extractLsb' 4 4 ++ v.setWidth 4 ∧
      u = { s with
            mem := u.mem
            trace := s.trace ++ [.read addr.toNat (s.byteAt addr.toNat), .write addr.toNat (u.byteAt addr.toNat),
              .reply s.port ⟨.ok, ⟨0, 0, 0, 0, 0, 0⟩⟩] })

/-- For every field of every header type, sub-byte fields included: what `FPUT` stored, `FGET` of the same field returns
(TCP `flags`: with bits 7:6 cleared). -/
def Obligations.FgetAfterFputReturnsTheValue : Prop :=
  ∀ (s u : State) (t : HdrType) (f : Field) (addr v : Word) (r : Results),
    exec (.fput t f addr v) s = .next u → u.trace.getLast? = some (.reply s.port ⟨.ok, r⟩) →
      ∃ acc, exec (.fget t f addr) u =
        .next { u with trace := u.trace ++ acc ++
          [.reply u.port ⟨.ok, ⟨if f = .flags then v &&& 0x3F else v, 0, 0, 0, 0, 0⟩⟩] }

/-- R115: `encode_H` has the header's length and `decode_H` inverts it on in-range values (TCP `flags` reduced); on the
bytes of a header, `encode_H` inverts `decode_H` (for TCP, where bits 7:6 of byte 13 are 0). -/
def Obligations.HeaderEncodeAndDecodeAreInverse : Prop :=
  ∀ t : HdrType,
    (∀ vs : List Nat, vs.length = (wholeFields t).length →
      (∀ (n : Nat) (f : Field) (l : FieldLayout) (v : Nat), (wholeFields t)[n]? = some f → layout t f = some l → vs[n]? = some v → v < 2 ^ (8 * l.width)) →
        (encodeHeader t vs).length = headerSize t ∧
        decodeHeader t (encodeHeader t vs) =
          ((wholeFields t).zip vs).map fun e => if e.1 = .flags then e.2 % 64 else e.2) ∧
    ∀ bs : List Byte, bs.length = headerSize t → (t = .tcp → ∀ b, bs[13]? = some b → b.toNat < 64) →
      encodeHeader t (decodeHeader t bs) = bs

/-- R115: performing `FPUT` for every whole field of a header at one address, in any order, leaves the header's bytes
equal to `encode_H` of the values. -/
def Obligations.FputOfEveryFieldInAnyOrderBuildsTheHeader : Prop :=
  ∀ (s : State) (t : HdrType) (addr : Word) (vs : List Word) (puts : List (Field × Word)),
    addr.toNat + headerSize t ≤ 2 ^ 64 → (∀ j < headerSize t, backs s.cfg (addr.toNat + j) = true) →
    vs.length = (wholeFields t).length → puts.Perm ((wholeFields t).zip vs) →
    (∀ f v l, (f, v) ∈ puts → layout t f = some l → v.toNat < 2 ^ (8 * l.width)) →
      ∃ u, execAll (puts.map fun e => .fput t e.1 addr e.2) s = .next u ∧
        u.bytesAt addr.toNat (headerSize t) = encodeHeader t (vs.map BitVec.toNat) ∧
        ∀ x, x < addr.toNat ∨ addr.toNat + headerSize t ≤ x → u.byteAt x = s.byteAt x

/-- R119, with the number 0x0806 of ARP that the spec presumes (G1; log 15). -/
def Obligations.ClsRtypeClassifiesTheEthernetType : Prop :=
  ∀ (s : State) (v : Word),
    decode { cw := 0x00000013, a0 := v } = .ok (.clsRtype v) ∧
    exec (.clsRtype v) s = .next { s with trace := s.trace ++ [.reply s.port
      (if v.toNat < 2 ^ 16 then
        ⟨.ok, ⟨if v = 0x0800 then 0 else if v = 0x0806 then 1 else 255, 0, 0, 0, 0, 0⟩⟩
       else ⟨.badArg, ⟨0, 0, 0, 0, 0, 0⟩⟩)] }

/-- R120, with the four protocol numbers that the spec presumes (G2; log 15). -/
def Obligations.ClsProtoClassifiesTheProtocolNumber : Prop :=
  ∀ (s : State) (v : Word),
    decode { cw := 0x00000014, a0 := v } = .ok (.clsProto v) ∧
    exec (.clsProto v) s = .next { s with trace := s.trace ++ [.reply s.port
      (if v.toNat < 2 ^ 8 then
        ⟨.ok, ⟨if v = 1 then 0 else if v = 2 then 1 else if v = 6 then 2 else if v = 17 then 3 else 255, 0, 0, 0, 0, 0⟩⟩
       else ⟨.badArg, ⟨0, 0, 0, 0, 0, 0⟩⟩)] }

/-- R121 and R122 whole: on whole operand words, `(a | b) & 0x3F` and `a & b & 0x3F`. -/
def Obligations.TfUnionAndInterCombineTheSixFlags : Prop :=
  ∀ (s : State) (a b : Word),
    decode { cw := 0x00000018, a0 := a, a1 := b } = .ok (.tfUnion a b) ∧
    decode { cw := 0x00000019, a0 := a, a1 := b } = .ok (.tfInter a b) ∧
    exec (.tfUnion a b) s = .next { s with trace := s.trace ++ [.reply s.port
      (if a.toNat < 256 ∧ b.toNat < 256 then ⟨.ok, ⟨(a ||| b) &&& 0x3F, 0, 0, 0, 0, 0⟩⟩
       else ⟨.badArg, ⟨0, 0, 0, 0, 0, 0⟩⟩)] } ∧
    exec (.tfInter a b) s = .next { s with trace := s.trace ++ [.reply s.port
      (if a.toNat < 256 ∧ b.toNat < 256 then ⟨.ok, ⟨a &&& b &&& 0x3F, 0, 0, 0, 0, 0⟩⟩
       else ⟨.badArg, ⟨0, 0, 0, 0, 0, 0⟩⟩)] }

/-- R123 whole: 1 exactly when every one of the six flags of `b` is in `a`. -/
def Obligations.TfContainsTestsEveryFlag : Prop :=
  ∀ (s : State) (a b : Word),
    decode { cw := 0x0000001A, a0 := a, a1 := b } = .ok (.tfContains a b) ∧
    exec (.tfContains a b) s = .next { s with trace := s.trace ++ [.reply s.port
      (if a.toNat < 256 ∧ b.toNat < 256 then
        ⟨.ok, ⟨if ∀ n : Fin 6, b.getLsbD n = true → a.getLsbD n = true then 1 else 0, 0, 0, 0, 0, 0⟩⟩
       else ⟨.badArg, ⟨0, 0, 0, 0, 0, 0⟩⟩)] }

/-- R124 whole: the flags byte without bits 7:6. -/
def Obligations.TfDecDropsTheReservedBits : Prop :=
  ∀ (s : State) (b : Word),
    decode { cw := 0x0000001B, a0 := b } = .ok (.tfDec b) ∧
    exec (.tfDec b) s = .next { s with trace := s.trace ++ [.reply s.port
      (if b.toNat < 256 then ⟨.ok, ⟨b &&& 0x3F, 0, 0, 0, 0, 0⟩⟩ else ⟨.badArg, ⟨0, 0, 0, 0, 0, 0⟩⟩)] }

/-! ## Checksum Engine -/

/-- R142: the encoding, the checksum of the range, read byte by byte in ascending order, and the two `ST_BADARG` cases. -/
def Obligations.CsumReturnsTheChecksumOfTheRange : Prop :=
  ∀ (s : State) (addr len seed : Word),
    decode { cw := 0x00000020, a0 := addr, a1 := len, a2 := seed } = .ok (.csum addr len seed) ∧
    (seed.toNat ≥ 2 ^ 32 ∨ addr.toNat + len.toNat > 2 ^ 64 →
      exec (.csum addr len seed) s = .next { s with trace := s.trace ++ [.reply s.port ⟨.badArg, ⟨0, 0, 0, 0, 0, 0⟩⟩] }) ∧
    (seed.toNat < 2 ^ 32 → addr.toNat + len.toNat ≤ 2 ^ 64 → (∀ j < len.toNat, backs s.cfg (addr.toNat + j) = true) →
      ∃ bs : List Byte, bs.length = len.toNat ∧ (∀ j < len.toNat, bs[j]? = some (s.byteAt (addr.toNat + j))) ∧
        exec (.csum addr len seed) s =
          .next { s with trace := s.trace ++ ((List.range len.toNat).map fun j =>
              .read (addr.toNat + j) (s.byteAt (addr.toNat + j))) ++
            [.reply s.port ⟨.ok, ⟨(csum bs (seed.setWidth 32)).setWidth 64, 0, 0, 0, 0, 0⟩⟩] })

/-- R140 whole: the definition, the bounds, and that folding keeps the residue modulo 65535. -/
def Obligations.FoldAbsorbsEveryCarry : Prop :=
  ∀ v : BitVec 32,
    fold1 v = (v &&& 0xFFFF#32) + (v >>> 16) ∧ fold v = fold1 (fold1 v) ∧
    (fold1 v).toNat ≤ 0x1FFFE ∧ (fold v).toNat ≤ 0xFFFF ∧ (v.toNat ≤ 0xFFFF → fold v = v) ∧
    (fold v = 0 → v = 0) ∧ (fold v).toNat % 65535 = v.toNat % 65535

/-- R144: the closed form, whenever no addition overflows: the seed is at most 0xFFFF0000, or the first word added to it
stays below `2^32`. R145: where the first addition reaches `2^32`, one carry is lost: the result is the checksum of
`total - 2^32`; this needs a seed above 0xFFFF0000. -/
def Obligations.ChecksumHasTheClosedFormOrLosesOneCarry : Prop :=
  ∀ (bs : List Byte) (seed : BitVec 32),
    (seed.toNat + wordSum (bs.take 2) < 2 ^ 32 → (csum bs seed).toNat = complementOf (seed.toNat + wordSum bs)) ∧
    (2 ^ 32 ≤ seed.toNat + wordSum (bs.take 2) →
      0xFFFF0000 < seed.toNat ∧ (csum bs seed).toNat = complementOf (seed.toNat + wordSum bs - 2 ^ 32))

/-- R143: filling a zero checksum field at an even offset with the checksum makes the checksum of the whole 0, whenever no
addition of the two runs overflows (R145); a seed of at most 0xFFFF0000 never overflows. -/
def Obligations.ChecksumOfAFilledHeaderIsZero : Prop :=
  ∀ (bs filled : List Byte) (seed : BitVec 32) (k : Nat), k % 2 = 0 → k + 1 < bs.length →
    bs[k]? = some 0 → bs[k + 1]? = some 0 →
    filled = (bs.set k ((csum bs seed).extractLsb' 8 8)).set (k + 1) ((csum bs seed).extractLsb' 0 8) →
    seed.toNat ≤ 0xFFFF0000 ∨
      (seed.toNat + wordSum (bs.take 2) < 2 ^ 32 ∧ seed.toNat + wordSum (filled.take 2) < 2 ^ 32) →
      csum filled seed = 0

/-- R146: chaining two ranges, the first of even length; with a first range of odd length the law fails. -/
def Obligations.ChecksumOfTwoRangesChains : Prop :=
  (∀ (xs ys : List Byte) (seed : BitVec 32), seed.toNat ≤ 0xFFFF0000 → xs.length % 2 = 0 →
    csum (xs ++ ys) seed = csum ys ((~~~(csum xs seed)).setWidth 32)) ∧
    ∃ (xs ys : List Byte) (seed : BitVec 32), seed.toNat ≤ 0xFFFF0000 ∧ xs.length % 2 = 1 ∧
      csum (xs ++ ys) seed ≠ csum ys ((~~~(csum xs seed)).setWidth 32)

/-- R147: swapping the two bytes of every word of the input swaps the two bytes of the checksum (seed 0). -/
def Obligations.SwappingTheBytesOfEveryWordSwapsTheChecksum : Prop :=
  ∀ bs : List Byte, bs.length % 2 = 0 →
    csum (swapBytes bs) 0 = (csum bs 0).extractLsb' 0 8 ++ (csum bs 0).extractLsb' 8 8

/-- The response of `CSUM` depends on the bytes of its range and on nothing else of the state (R13, R28, R142). -/
def Obligations.ChecksumDependsOnItsRangeAlone : Prop :=
  ∀ (s t u : State) (addr len seed : Word) (r : Response),
    s.cfg = t.cfg → (∀ j < len.toNat, s.byteAt (addr.toNat + j) = t.byteAt (addr.toNat + j)) →
    exec (.csum addr len seed) s = .next u → u.trace.getLast? = some (.reply s.port r) →
      ∃ w, exec (.csum addr len seed) t = .next w ∧ w.trace.getLast? = some (.reply t.port r)

/-! ## Buffer Cursor -/

/-- R161 whole: the encoding for every slot and `ST_ILLEGAL` for any other `K`, the four fields written, the other slots and
everything else unchanged. -/
def Obligations.CurOpenWrapsTheBuffer : Prop :=
  (∀ (K : BitVec 4) (base len : Word), 4 ≤ K.toNat →
    decode { cw := (0x00000030 : BitVec 32) ||| (K.setWidth 32 <<< 12), a0 := base, a1 := len } = .error .badSelector) ∧
  ∀ (s : State) (k : Slot) (base len : Word),
    decode { cw := (0x00000030 : BitVec 32) ||| (BitVec.ofNat 32 k.val <<< 12), a0 := base, a1 := len } = .ok (.curOpen k base len) ∧
    (base.toNat + len.toNat > 2 ^ 64 →
      exec (.curOpen k base len) s = .next { s with trace := s.trace ++ [.reply s.port ⟨.badArg, ⟨0, 0, 0, 0, 0, 0⟩⟩] }) ∧
    (base.toNat + len.toNat ≤ 2 ^ 64 →
      ∃ u, exec (.curOpen k base len) s = .next u ∧ u.slot k = ⟨true, base, len, 0⟩ ∧
        (∀ j, j ≠ k → u.slot j = s.slot j) ∧
        u = { s with cur := u.cur, trace := s.trace ++ [.reply s.port ⟨.ok, ⟨0, 0, 0, 0, 0, 0⟩⟩] })

/-- R162 and R163 whole, for `CUR.NEXT` (tag 0) and `CUR.NEXTM` (tag 1): the three outcomes, in the order of R215. -/
def Obligations.CurNextExtractsTheViewAndAdvances : Prop :=
  ∀ (s : State) (k : Slot) (v : ViewType) (i : Instr) (op tag : Word),
    (i, op, tag) ∈ [(Instr.curNext k v, (0x31 : Word), (0 : Word)), (.curNextm k v, 0x32, 1)] →
    decode { cw := op.setWidth 32 ||| (v.sel.setWidth 32 <<< 8) ||| (BitVec.ofNat 32 k.val <<< 12), a0 := v.word } = .ok i ∧
    ((s.slot k).valid = false →
      exec i s = .next { s with trace := s.trace ++ [.reply s.port ⟨.noCur, ⟨0, 0, 0, 0, 0, 0⟩⟩] }) ∧
    ((s.slot k).valid = true → (s.slot k).off.toNat + viewSize v > (s.slot k).len.toNat →
      exec i s = .next { s with trace := s.trace ++ [.reply s.port ⟨.noData, ⟨0, 0, 0, 0, 0, 0⟩⟩] }) ∧
    ((s.slot k).valid = true → (s.slot k).off.toNat + viewSize v ≤ (s.slot k).len.toNat →
      ∃ u, exec i s = .next u ∧ (u.slot k).off.toNat = (s.slot k).off.toNat + viewSize v ∧
        u.slot k = { s.slot k with off := (u.slot k).off } ∧ (∀ j, j ≠ k → u.slot j = s.slot j) ∧
        u = { s with
              cur := u.cur
              trace := s.trace ++ [.reply s.port ⟨.ok,
                ⟨(s.slot k).base + (s.slot k).off, BitVec.ofNat 64 (viewSize v), tag, 0, 0, 0⟩⟩] })

/-- R164 and R165 whole, for `CUR.REM` (tag 0) and `CUR.REMM` (tag 1). The length is stated for slots within the
invariant of R24, which every reachable state has (`EveryStepKeepsTheInvariant`). -/
def Obligations.CurRemConsumesTheCursorAndReturnsTheTail : Prop :=
  ∀ (s : State) (k : Slot) (i : Instr) (op tag : Word),
    (i, op, tag) ∈ [(Instr.curRem k, (0x33 : Word), (0 : Word)), (.curRemm k, 0x34, 1)] →
    decode { cw := op.setWidth 32 ||| (BitVec.ofNat 32 k.val <<< 12) } = .ok i ∧
    ((s.slot k).valid = false →
      exec i s = .next { s with trace := s.trace ++ [.reply s.port ⟨.noCur, ⟨0, 0, 0, 0, 0, 0⟩⟩] }) ∧
    ((s.slot k).valid = true → (s.slot k).off.toNat ≤ (s.slot k).len.toNat →
      ∃ u, exec i s = .next u ∧ u.slot k = { s.slot k with valid := false } ∧ (∀ j, j ≠ k → u.slot j = s.slot j) ∧
        u = { s with
              cur := u.cur
              trace := s.trace ++ [.reply s.port ⟨.ok,
                ⟨(s.slot k).base + (s.slot k).off, (s.slot k).len - (s.slot k).off, tag, 0, 0, 0⟩⟩] })

/-- A view lies inside its buffer (R162, its derived sentence): in a state within the invariant. -/
def Obligations.ViewsLieInsideTheirBuffer : Prop :=
  ∀ (s u : State) (k : Slot) (v : ViewType) (i : Instr) (r : Results), s.inv = true →
    i = .curNext k v ∨ i = .curNextm k v → exec i s = .next u → u.trace.getLast? = some (.reply s.port ⟨.ok, r⟩) →
    r.r1 ≠ 0 →
      (s.slot k).base.toNat ≤ r.r0.toNat ∧
        r.r0.toNat + r.r1.toNat ≤ (s.slot k).base.toNat + (s.slot k).len.toNat ∧
        (s.slot k).base.toNat + (s.slot k).len.toNat ≤ 2 ^ 64

/-- R166. First, after `CUR.OPEN`, extractions of any mix of types succeed while their sizes fit, each at the sum of the
sizes before it. Second, the counting law, for any type of non-zero size `S` on a buffer of length `N`: after `N / S`
extractions (which the first part says succeed) the next returns no data and leaves the offset, and `CUR.REM` then returns
the remaining `N mod S` bytes. -/
def Obligations.CurNextSucceedsExactlyAsOftenAsTheTypeFits : Prop :=
  (∀ (s : State) (k : Slot) (vs : List ViewType) (base len : Word), base.toNat + len.toNat ≤ 2 ^ 64 →
    (vs.map viewSize).sum ≤ len.toNat →
      ∃ u, execAll (.curOpen k base len :: vs.map fun v => .curNext k v) s = .next u ∧
        u.slot k = ⟨true, base, len, BitVec.ofNat 64 (vs.map viewSize).sum⟩ ∧
        u = { s with
              cur := u.cur
              trace := s.trace ++ .reply s.port ⟨.ok, ⟨0, 0, 0, 0, 0, 0⟩⟩ ::
                (List.range vs.length).map fun j => .reply s.port ⟨.ok,
                  ⟨BitVec.ofNat 64 (base.toNat + ((vs.take j).map viewSize).sum),
                   BitVec.ofNat 64 (((vs.drop j).take 1).map viewSize).sum, 0, 0, 0, 0⟩⟩ }) ∧
  ∀ (s : State) (k : Slot) (v : ViewType) (base len : Word),
    0 < viewSize v → base.toNat + len.toNat ≤ 2 ^ 64 →
    ∃ u w, execAll (.curOpen k base len :: List.replicate (len.toNat / viewSize v) (.curNext k v)) s = .next u ∧
      (u.slot k).off.toNat = len.toNat / viewSize v * viewSize v ∧
      exec (.curNext k v) u = .next { u with trace := u.trace ++ [.reply u.port ⟨.noData, ⟨0, 0, 0, 0, 0, 0⟩⟩] } ∧
      exec (.curRem k) u = .next w ∧
      ∃ r : Results, w.trace = u.trace ++ [.reply u.port ⟨.ok, r⟩] ∧ r.r1.toNat = len.toNat % viewSize v

/-! ## Memory HAL -/

/-- R181 and R182: the encodings, `ST_NOMEM` without effect where the request does not fit, and otherwise the range from
the watermark on, with the watermark advanced by the size. -/
def Obligations.AllocationTakesTheBytesAtTheWatermark : Prop :=
  ∀ (s : State) (pages : Word) (i : Instr) (op : BitVec 32), s.cfg.dmaLimit ≤ 2 ^ 64 →
    (i, op) ∈ [(Instr.dmaAlloc pages, (0x00000040 : BitVec 32)), (.dmaAllocb pages, 0x00000041)] →
    decode { cw := op, a0 := pages } = .ok i ∧
    (pages.toNat * 4096 ≥ 2 ^ 64 ∨ s.wm.toNat + pages.toNat * 4096 > s.cfg.dmaLimit →
      exec i s = .next { s with trace := s.trace ++ [.reply s.port ⟨.noMem, ⟨0, 0, 0, 0, 0, 0⟩⟩] }) ∧
    (pages.toNat * 4096 < 2 ^ 64 → s.wm.toNat + pages.toNat * 4096 ≤ s.cfg.dmaLimit →
      ∃ u r, exec i s = .next u ∧ u.wm.toNat = s.wm.toNat + pages.toNat * 4096 ∧
        u = { s with wm := u.wm, trace := s.trace ++ [.reply s.port ⟨.ok, r⟩] } ∧
        r = ⟨s.wm.setWidth 64, r.r1, 0, 0, 0, 0⟩ ∧ r.r1.toNat = pages.toNat * 4096)

/-- R194, the exact sequence: requests that fit together all succeed, each at the end of the one before, without gap. -/
def Obligations.AllocationsAreContiguous : Prop :=
  ∀ (s : State) (reqs : List (Bool × Word)), s.cfg.dmaLimit ≤ 2 ^ 64 → (∀ req ∈ reqs, req.2.toNat * 4096 < 2 ^ 64) →
    s.wm.toNat + bytesAsked reqs ≤ s.cfg.dmaLimit →
      ∃ u, execAll (reqs.map allocInstr) s = .next u ∧ u.wm.toNat = s.wm.toNat + bytesAsked reqs ∧
        u = { s with
              wm := u.wm
              trace := s.trace ++ (List.range reqs.length).map fun n => .reply s.port ⟨.ok,
                ⟨BitVec.ofNat 64 (s.wm.toNat + bytesAsked (reqs.take n)),
                 BitVec.ofNat 64 (bytesAsked ((reqs.drop n).take 1)), 0, 0, 0, 0⟩⟩ }

/-- R194, the non-overlap law: two allocations with any steps between them that take no reset never share a byte. A step
takes the event at the head of the input or none, so the events taken are those the input is shorter by. -/
def Obligations.AllocatedRangesNeverOverlap : Prop :=
  ∀ (s₀ s₁ s₂ s₃ : State) (n : Nat) (a b : Bool × Word) (r q : Results), s₀.inv = true →
    exec (allocInstr a) s₀ = .next s₁ → s₁.trace.getLast? = some (.reply s₀.port ⟨.ok, r⟩) →
    Host.Core.run Sys2Proof.core n s₁ = .next s₂ → (∀ e ∈ s₁.input.take (s₁.input.length - s₂.input.length), e ≠ .reset) →
    exec (allocInstr b) s₂ = .next s₃ → s₃.trace.getLast? = some (.reply s₂.port ⟨.ok, q⟩) →
      (∀ x : Nat, ¬ (r.r0.toNat ≤ x ∧ x < r.r0.toNat + r.r1.toNat ∧ q.r0.toNat ≤ x ∧ x < q.r0.toNat + q.r1.toNat)) ∧
        (r.r1 ≠ 0 → s₀.cfg.imageEnd ≤ r.r0.toNat ∧ r.r0.toNat + r.r1.toNat ≤ s₀.cfg.dmaLimit)

/-- R30 and R232: the first allocation after a reset starts at `IMAGE_END` again, whatever was handed out before, and leaves
memory and the slots as the reset left them. -/
def Obligations.FirstAllocationAfterResetStartsAtImageEnd : Prop :=
  ∀ (s : State) (port : Nat) (pages : Word) (flag : Bool) (rest : List Event), configWf s.cfg = true →
    s.input = .reset :: .command port (encode (allocInstr (flag, pages))) :: rest → port < s.cfg.nport →
    pages.toNat * 4096 < 2 ^ 64 → s.cfg.imageEnd + pages.toNat * 4096 ≤ s.cfg.dmaLimit →
      ∃ t, Host.Core.run Sys2Proof.core 2 s = .next t ∧ t.wm.toNat = s.cfg.imageEnd + pages.toNat * 4096 ∧
        (∀ k, t.slot k = ⟨false, 0, 0, 0⟩) ∧
        t = { s with
              input := rest, port := port, wm := t.wm, cur := t.cur, flights := []
              trace := s.trace ++ [.reply port ⟨.ok,
                ⟨BitVec.ofNat 64 s.cfg.imageEnd, BitVec.ofNat 64 (pages.toNat * 4096), 0, 0, 0, 0⟩⟩] }

/-- R193: no step but a reset lowers the watermark. -/
def Obligations.WatermarkNeverFallsButByReset : Prop :=
  ∀ s t : State, configWf s.cfg = true → step s = .next t → s.input.head? ≠ some .reset → s.wm.toNat ≤ t.wm.toNat

/-- R183, R191 and R192 whole, and that the three agree: the address unchanged, whatever the window's length. -/
def Obligations.AddressCommandsReturnTheAddressUnchanged : Prop :=
  ∀ (s : State) (base len : Word),
    decode { cw := 0x00000042, a0 := base } = .ok (.toPaddr base) ∧
    decode { cw := 0x0000004C, a0 := base, a1 := len } = .ok (.ioPaddr base len) ∧
    decode { cw := 0x0000004D, a0 := base, a1 := len } = .ok (.ioVaddr base len) ∧
    exec (.toPaddr base) s = .next { s with trace := s.trace ++ [.reply s.port ⟨.ok, ⟨base, 0, 0, 0, 0, 0⟩⟩] } ∧
    exec (.ioPaddr base len) s = .next { s with trace := s.trace ++ [.reply s.port ⟨.ok, ⟨base, 0, 0, 0, 0, 0⟩⟩] } ∧
    exec (.ioVaddr base len) s = .next { s with trace := s.trace ++ [.reply s.port ⟨.ok, ⟨base, 0, 0, 0, 0, 0⟩⟩] }

/-- R185 whole: the encoding, the six results as word arithmetic, and `ST_BADARG` exactly where the block leaves the
address space or the offsets are out of order. -/
def Obligations.QLayoutCarvesTheBlock : Prop :=
  ∀ (s : State) (base len d a u : Word),
    decode { cw := 0x00000043, a0 := base, a1 := len, a2 := d, a3 := a, a4 := u } = .ok (.qLayout base len d a u) ∧
    exec (.qLayout base len d a u) s = .next { s with trace := s.trace ++ [.reply s.port
      (if base.toNat + len.toNat ≤ 2 ^ 64 ∧ d.toNat < a.toNat ∧ a.toNat < u.toNat ∧ u.toNat ≤ len.toNat then
        ⟨.ok, ⟨base + d, a - d, base + a, u - a, base + u, len - u⟩⟩
       else ⟨.badArg, ⟨0, 0, 0, 0, 0, 0⟩⟩)] }

/-- R184: the three regions start at `d`, `a`, `u`, are adjacent in that order, end at the end of the block, and the first
two are never empty. -/
def Obligations.QueueRegionsAreAdjacentAndInsideTheBlock : Prop :=
  ∀ (base len d a u : Nat), d < a → a < u → u ≤ len →
    let q := carve base len d a u
    q.desc.start = base + d ∧ q.avail.start = base + a ∧ q.used.start = base + u ∧
      q.desc.start + q.desc.length = q.avail.start ∧ q.avail.start + q.avail.length = q.used.start ∧
      q.used.start + q.used.length = base + len ∧ 0 < q.desc.length ∧ 0 < q.avail.length ∧
      (q.used.length = 0 ↔ u = len) ∧
      (∀ x, ¬ (q.desc.start ≤ x ∧ x < q.desc.start + q.desc.length ∧ q.avail.start ≤ x) ∧
        ¬ (q.avail.start ≤ x ∧ x < q.avail.start + q.avail.length ∧ q.used.start ≤ x)) ∧
      ∀ x, (base + d ≤ x ∧ x < base + len) ↔
        ((q.desc.start ≤ x ∧ x < q.desc.start + q.desc.length) ∨
          (q.avail.start ≤ x ∧ x < q.avail.start + q.avail.length) ∨
          (q.used.start ≤ x ∧ x < q.used.start + q.used.length))

/-- R187 and R188: one volatile read of exactly 1 or 4 bytes at `base + off`, whatever the window's length, whose bytes
are the stored ones on ordinary memory and free draws on a device; the value is little-endian and zero-extended. -/
def Obligations.IoReadMakesOneLittleEndianRead : Prop :=
  ∀ (s : State) (base len off : Word) (i : Instr) (op : BitVec 32) (n : Nat),
    (i, op, n) ∈ [(Instr.ioR8 base len off, (0x00000048 : BitVec 32), 1), (.ioR32 base len off, 0x00000049, 4)] →
    decode { cw := op, a0 := base, a1 := len, a2 := off } = .ok i ∧
    (base.toNat + off.toNat + n > 2 ^ 64 →
      exec i s = .next { s with trace := s.trace ++ [.reply s.port ⟨.badArg, ⟨0, 0, 0, 0, 0, 0⟩⟩] }) ∧
    (base.toNat + off.toNat + n ≤ 2 ^ 64 → (base.toNat + off.toNat) % n = 0 →
      (∀ j < n, backs s.cfg (base.toNat + off.toNat + j) = true ∨ hasDevice s.cfg (base.toNat + off.toNat + j) = true) →
      ∃ (bs : List Byte) (r : Word), bs.length = n ∧ r.toNat = le bs ∧
        (∀ j < n, backs s.cfg (base.toNat + off.toNat + j) = true →
          bs[j]? = some (s.byteAt (base.toNat + off.toNat + j))) ∧
        (∀ j < n, backs s.cfg (base.toNat + off.toNat + j) = false → bs[j]? = some (Config.deviceByte s.draws j)) ∧
        exec i s = .next { s with
                           draws := s.draws + 1
                           trace := s.trace ++ [.ioRead (base.toNat + off.toNat) bs,
                             .reply s.port ⟨.ok, ⟨r, 0, 0, 0, 0, 0⟩⟩] })

/-- R189 and R190: one volatile write of exactly 1 or 4 bytes at `base + off`, little-endian, whatever the window's
length; ordinary memory takes its bytes, every other byte of memory is unchanged; `ST_BADARG` for a value wider than the
access or an address range past the end. -/
def Obligations.IoWriteMakesOneLittleEndianWrite : Prop :=
  ∀ (s : State) (base len off value : Word) (i : Instr) (op : BitVec 32) (n : Nat),
    (i, op, n) ∈ [(Instr.ioW8 base len off value, (0x0000004A : BitVec 32), 1),
      (.ioW32 base len off value, 0x0000004B, 4)] →
    decode { cw := op, a0 := base, a1 := len, a2 := off, a3 := value } = .ok i ∧
    (value.toNat ≥ 2 ^ (8 * n) ∨ base.toNat + off.toNat + n > 2 ^ 64 →
      exec i s = .next { s with trace := s.trace ++ [.reply s.port ⟨.badArg, ⟨0, 0, 0, 0, 0, 0⟩⟩] }) ∧
    (value.toNat < 2 ^ (8 * n) → base.toNat + off.toNat + n ≤ 2 ^ 64 → (base.toNat + off.toNat) % n = 0 →
      (∀ j < n, backs s.cfg (base.toNat + off.toNat + j) = true ∨ hasDevice s.cfg (base.toNat + off.toNat + j) = true) →
      ∃ (u : State) (bs : List Byte), bs.length = n ∧ le bs = value.toNat ∧ exec i s = .next u ∧
        (∀ j < n, backs s.cfg (base.toNat + off.toNat + j) = true → bs[j]? = some (u.byteAt (base.toNat + off.toNat + j))) ∧
        (∀ x, x < base.toNat + off.toNat ∨ base.toNat + off.toNat + n ≤ x ∨ backs s.cfg x = false →
          u.byteAt x = s.byteAt x) ∧
        u = { s with
              mem := u.mem
              trace := s.trace ++ [.ioWrite (base.toNat + off.toNat) bs,
                .reply s.port ⟨.ok, ⟨0, 0, 0, 0, 0, 0⟩⟩] })

/-- R42 and R43: what `IO.W32` wrote to ordinary memory, `IO.R32` returns and `IO.R8` returns byte by byte, bits 7:0 at
the lowest address. -/
def Obligations.RegisterWordsInMemoryAreLittleEndian : Prop :=
  ∀ (s u : State) (base len off value : Word) (r : Results), backsRange s.cfg (base.toNat + off.toNat) 4 = true →
    exec (.ioW32 base len off value) s = .next u → u.trace.getLast? = some (.reply s.port ⟨.ok, r⟩) →
      (∃ acc, exec (.ioR32 base len off) u =
        .next { u with draws := u.draws + 1, trace := u.trace ++ acc ++ [.reply u.port ⟨.ok, ⟨value, 0, 0, 0, 0, 0⟩⟩] }) ∧
      ∀ (o : Word) (j : Nat), j < 4 → o.toNat = off.toNat + j →
        ∃ acc, exec (.ioR8 base len o) u =
          .next { u with
                  draws := u.draws + 1
                  trace := u.trace ++ acc ++ [.reply u.port ⟨.ok, ⟨(value >>> (8 * j)) &&& 0xFF, 0, 0, 0, 0, 0⟩⟩] }

/-- R45, R50 and R217: an access that has no step stops by name, once the command has passed the tests that answer
`ST_BADARG`: a 32-bit register access at an address not a multiple of 4, an ordinary access to a byte memory does not
back, and a register access to a byte neither map covers. That an aligned access comes to the maps only after the
alignment test is the model's choice (log 10). -/
def Obligations.AccessesWithNoStepStopByName : Prop :=
  (∀ (s : State) (base len off value : Word),
    base.toNat + off.toNat + 4 ≤ 2 ^ 64 → (base.toNat + off.toNat) % 4 ≠ 0 → value.toNat < 2 ^ 32 →
      exec (.ioR32 base len off) s = .refused .misalignedRegisterAccess ∧
      exec (.ioW32 base len off value) s = .refused .misalignedRegisterAccess) ∧
  (∀ (s : State) (t : HdrType) (f : Field) (l : FieldLayout) (addr v : Word), layout t f = some l →
    addr.toNat + l.off + l.width ≤ 2 ^ 64 → v.toNat < 2 ^ l.valueBits →
    (∃ j < l.width, backs s.cfg (addr.toNat + l.off + j) = false) →
      exec (.fget t f addr) s = .fault .unbackedAccess ∧ exec (.fput t f addr v) s = .fault .unbackedAccess) ∧
  (∀ (s : State) (addr len seed : Word), seed.toNat < 2 ^ 32 → addr.toNat + len.toNat ≤ 2 ^ 64 →
    (∃ j < len.toNat, backs s.cfg (addr.toNat + j) = false) → exec (.csum addr len seed) s = .fault .unbackedAccess) ∧
  ∀ (s : State) (base len off value : Word) (i : Instr) (n : Nat),
    (i, n) ∈ [(Instr.ioR8 base len off, 1), (.ioR32 base len off, 4), (.ioW8 base len off value, 1),
      (.ioW32 base len off value, 4)] →
    value.toNat < 2 ^ (8 * n) → base.toNat + off.toNat + n ≤ 2 ^ 64 → (base.toNat + off.toNat) % n = 0 →
    (∃ j < n, backs s.cfg (base.toNat + off.toNat + j) = false ∧ hasDevice s.cfg (base.toNat + off.toNat + j) = false) →
      exec i s = .fault .unbackedAccess

/-! ## Every command -/

/-- R71 and R52: a command that completes sends exactly one response, to its own port, after all of its accesses, with
all results 0 unless the status is `ST_OK`. -/
def Obligations.EveryCommandSendsOneResponseAfterItsAccesses : Prop :=
  ∀ (i : Instr) (s t : State), exec i s = .next t →
    ∃ (acc : List Action) (st : Status) (r : Results), t.trace = s.trace ++ acc ++ [.reply s.port ⟨st, r⟩] ∧
      (∀ x ∈ acc, x.isAccess = true) ∧ (st ≠ .ok → r = ⟨0, 0, 0, 0, 0, 0⟩)

/-- R214: a command that ends with any status other than `ST_OK` changes nothing and makes no access: all that happens is
its response, with all results 0. First for the meanings, then for a step that serves a packet, illegal ones included, then
for a packet that starts with such a response to send. (A command with an access to make ends with `ST_OK`:
`EachTurnMakesOneAccessOrSendsTheResponse`.) -/
def Obligations.NonOkStatusChangesNothing : Prop :=
  (∀ (i : Instr) (s t : State) (p : Nat) (resp : Response), exec i s = .next t →
    t.trace.getLast? = some (.reply p resp) → resp.st ≠ .ok →
      t = { s with trace := s.trace ++ [.reply s.port ⟨resp.st, ⟨0, 0, 0, 0, 0, 0⟩⟩] }) ∧
  ∀ (s t : State) (port q : Nat) (p : Packet) (rest : List Event) (resp : Response), s.jobOf port = none →
    step s = .next t → resp.st ≠ .ok →
      (s.input = .command port p :: rest → t.trace.getLast? = some (.reply q resp) →
        t = { s with
              input := rest
              port := port
              trace := s.trace ++ [.reply port ⟨resp.st, ⟨0, 0, 0, 0, 0, 0⟩⟩] }) ∧
      (s.input = .start port p :: rest → t.jobOf port = some (.reply resp) →
        t = { s with
              input := rest
              port := port
              flights := s.flights ++ [⟨port, .reply ⟨resp.st, ⟨0, 0, 0, 0, 0, 0⟩⟩⟩] })

/-- R211: the six status codes. R216: the status matrix. -/
def Obligations.StatusesStayInTheMatrix : Prop :=
  (Status.ok.code = 0 ∧ Status.noData.code = 1 ∧ Status.noMem.code = 2 ∧ Status.badArg.code = 3 ∧
    Status.noCur.code = 4 ∧ Status.illegal.code = 5) ∧
  ∀ (i : Instr) (s t : State) (p : Nat) (resp : Response), exec i s = .next t →
    t.trace.getLast? = some (.reply p resp) → resp.st ∈ allowedStatuses i

/-- R25, the access table: what each command may write of the block's state; and no command changes the configuration, the
commands still to come (R57), the port or the other commands in progress. -/
def Obligations.CommandsWriteOnlyTheStateTheTableGivesThem : Prop :=
  ∀ (i : Instr) (s t : State), exec i s = .next t →
    (t.wm ≠ s.wm → ∃ p, i = .dmaAlloc p ∨ i = .dmaAllocb p) ∧
    (∀ k, t.slot k ≠ s.slot k → ∃ b l v, i = .curOpen k b l ∨ i = .curNext k v ∨ i = .curNextm k v ∨
      i = .curRem k ∨ i = .curRemm k) ∧
    (∀ k, (t.slot k).base ≠ (s.slot k).base ∨ (t.slot k).len ≠ (s.slot k).len → ∃ b l, i = .curOpen k b l) ∧
    (∀ k, (t.slot k).off ≠ (s.slot k).off →
      ∃ b l v, i = .curOpen k b l ∨ i = .curNext k v ∨ i = .curNextm k v) ∧
    (∀ k, (s.slot k).valid = false → (t.slot k).valid = true → ∃ b l, i = .curOpen k b l) ∧
    (∀ k, (s.slot k).valid = true → (t.slot k).valid = false → i = .curRem k ∨ i = .curRemm k) ∧
    (t.mem ≠ s.mem → ∃ h f a v b l o, i = .fput h f a v ∨ i = .ioW8 b l o v ∨ i = .ioW32 b l o v) ∧
    t.cfg = s.cfg ∧ t.input = s.input ∧ t.port = s.port ∧ t.flights = s.flights

/-- R46: the commands outside its table make no memory access of any kind. -/
def Obligations.OnlyTheSevenAccessCommandsTouchMemory : Prop :=
  ∀ (i : Instr) (s t : State), exec i s = .next t → (∃ x ∈ t.trace.drop s.trace.length, x.isAccess = true) →
    ∃ h f a v b l o, i = .fget h f a ∨ i = .fput h f a v ∨ i = .csum a l v ∨ i = .ioR8 b l o ∨ i = .ioR32 b l o ∨
      i = .ioW8 b l o v ∨ i = .ioW32 b l o v

/-- R243 and R217: executing a command answers a next state except in the situations that have no step: a fault needs an
access to a byte of the command's own range that nothing backs (for `FGET`, `FPUT`, `CSUM`: that memory does not back), a
refusal a misaligned 32-bit register access. The third situation of R217, a bus error or timeout, never happens in the model,
and the stop at an unbacked byte is a fault: both are the model's choice (log 12, log 9). -/
def Obligations.CommandsStopOnlyWhereTheSpecHasNoStep : Prop :=
  ∀ (i : Instr) (s : State),
    (∀ e, exec i s = .fault e → e = .unbackedAccess ∧ ∃ x < 2 ^ 64, backs s.cfg x = false ∧
      ((∃ t f l addr v, (i = .fget t f addr ∨ i = .fput t f addr v) ∧ layout t f = some l ∧
          addr.toNat + l.off ≤ x ∧ x < addr.toNat + l.off + l.width) ∨
        (∃ addr len seed, i = .csum addr len seed ∧ addr.toNat ≤ x ∧ x < addr.toNat + len.toNat) ∨
        (hasDevice s.cfg x = false ∧ ∃ base len off value n,
          (i, n) ∈ [(Instr.ioR8 base len off, 1), (.ioR32 base len off, 4), (.ioW8 base len off value, 1),
            (.ioW32 base len off value, 4)] ∧
          base.toNat + off.toNat ≤ x ∧ x < base.toNat + off.toNat + n))) ∧
    (∀ e, exec i s = .refused e → e = .misalignedRegisterAccess ∧ ∃ b l o v, (i = .ioR32 b l o ∨ i = .ioW32 b l o v) ∧
      (b.toNat + o.toNat) % 4 ≠ 0)

/-- R225: no command and no result depends on the port a command came from; the port only says where the response goes. -/
def Obligations.ResultsDoNotDependOnThePort : Prop :=
  ∀ (i : Instr) (s t : State) (p : Nat), exec i s = .next t →
    ∃ acc resp, t.trace = s.trace ++ acc ++ [.reply s.port resp] ∧
      exec i { s with port := p } = .next { t with port := p, trace := s.trace ++ acc ++ [.reply p resp] }
end

