-- ==== Sys2Proof/Laws/Decode.lean ====
section
/-! SUPPORT. The small lemmas of the encoding: the fields of a command word, and each selector with its inverse. -/

namespace Sys2Proof

/-! ## The fields of a command word (R72) -/

theorem commandWord_toNat (op : BitVec 8) (t k : BitVec 4) (f : BitVec 8) :
    (commandWord op t k f).toNat = f.toNat * 2 ^ 16 + k.toNat * 2 ^ 12 + t.toNat * 2 ^ 8 + op.toNat := by
  have h1 := BitVec.toNat_append (0#8 ++ f ++ k ++ t) op
  have h2 := BitVec.toNat_append (0#8 ++ f ++ k) t
  have h3 := BitVec.toNat_append (0#8 ++ f) k
  have h4 := BitVec.toNat_append 0#8 f
  have := op.isLt
  have := t.isLt
  have := k.isLt
  have := f.isLt
  change (0#8 ++ f ++ k ++ t ++ op).toNat = _
  rw [h1, h2, h3, h4, ← Nat.shiftLeft_add_eq_or_of_lt (by omega), ← Nat.shiftLeft_add_eq_or_of_lt (by omega),
    ← Nat.shiftLeft_add_eq_or_of_lt (by omega), ← Nat.shiftLeft_add_eq_or_of_lt (by omega)]
  simp only [Nat.shiftLeft_eq, BitVec.toNat_ofNat]
  omega

@[simp] theorem commandWord_op (op : BitVec 8) (t k : BitVec 4) (f : BitVec 8) :
    (commandWord op t k f).extractLsb' 0 8 = op := by
  apply BitVec.eq_of_toNat_eq
  have := op.isLt
  have := t.isLt
  have := k.isLt
  have := f.isLt
  simp only [BitVec.extractLsb'_toNat, Nat.shiftRight_eq_div_pow, commandWord_toNat]
  omega

@[simp] theorem commandWord_t (op : BitVec 8) (t k : BitVec 4) (f : BitVec 8) :
    (commandWord op t k f).extractLsb' 8 4 = t := by
  apply BitVec.eq_of_toNat_eq
  have := op.isLt
  have := t.isLt
  have := k.isLt
  have := f.isLt
  simp only [BitVec.extractLsb'_toNat, Nat.shiftRight_eq_div_pow, commandWord_toNat]
  omega

@[simp] theorem commandWord_k (op : BitVec 8) (t k : BitVec 4) (f : BitVec 8) :
    (commandWord op t k f).extractLsb' 12 4 = k := by
  apply BitVec.eq_of_toNat_eq
  have := op.isLt
  have := t.isLt
  have := k.isLt
  have := f.isLt
  simp only [BitVec.extractLsb'_toNat, Nat.shiftRight_eq_div_pow, commandWord_toNat]
  omega

@[simp] theorem commandWord_f (op : BitVec 8) (t k : BitVec 4) (f : BitVec 8) :
    (commandWord op t k f).extractLsb' 16 8 = f := by
  apply BitVec.eq_of_toNat_eq
  have := op.isLt
  have := t.isLt
  have := k.isLt
  have := f.isLt
  simp only [BitVec.extractLsb'_toNat, Nat.shiftRight_eq_div_pow, commandWord_toNat]
  omega

@[simp] theorem commandWord_z (op : BitVec 8) (t k : BitVec 4) (f : BitVec 8) :
    (commandWord op t k f).extractLsb' 24 8 = 0#8 := by
  apply BitVec.eq_of_toNat_eq
  have := op.isLt
  have := t.isLt
  have := k.isLt
  have := f.isLt
  simp only [BitVec.extractLsb'_toNat, Nat.shiftRight_eq_div_pow, commandWord_toNat, BitVec.toNat_ofNat]
  omega

/-- A command word whose `Z` is zero is made of its other fields. -/
theorem commandWord_of_fields (w : BitVec 32) (hz : w.extractLsb' 24 8 = 0#8) :
    commandWord (w.extractLsb' 0 8) (w.extractLsb' 8 4) (w.extractLsb' 12 4) (w.extractLsb' 16 8) = w := by
  have hz' := congrArg BitVec.toNat hz
  apply BitVec.eq_of_toNat_eq
  have := w.isLt
  simp only [commandWord_toNat, BitVec.extractLsb'_toNat, Nat.shiftRight_eq_div_pow, BitVec.toNat_ofNat] at hz' ⊢
  omega

/-! ## Opcodes (R75) -/

@[simp] theorem Opcode.ofCode_code (op : Opcode) : Opcode.ofCode op.code = some op := by cases op <;> rfl

theorem Opcode.code_of_ofCode {b : BitVec 8} {op : Opcode} (h : Opcode.ofCode b = some op) : op.code = b := by
  simpa using List.find?_some h

/-- No two opcodes have one number. -/
theorem Opcode.code_injective {op op' : Opcode} (h : op.code = op'.code) : op = op' :=
  Option.some.inj (by rw [← Opcode.ofCode_code op, h, Opcode.ofCode_code])

/-! ## Selectors (R73, R74, R76) -/

@[simp] theorem HdrType.ofSel_sel (t : HdrType) : HdrType.ofSel t.sel = some t := by cases t <;> rfl

theorem HdrType.sel_of_ofSel {b : BitVec 4} {t : HdrType} (h : HdrType.ofSel b = some t) : t.sel = b := by
  revert b t; decide

theorem HdrType.sel_ne_raw (t : HdrType) : t.sel ≠ rawSel := by cases t <;> decide

theorem HdrType.fieldOfSel_fieldSel (t : HdrType) (f : Field) (h : t.hasField f = true) :
    t.fieldOfSel (t.fieldSel f) = some f := by
  revert h; cases t <;> cases f <;> decide

theorem HdrType.fieldSel_of_fieldOfSel {t : HdrType} {b : BitVec 8} {f : Field} (h : t.fieldOfSel b = some f) :
    t.fieldSel f = b ∧ t.hasField f = true := by
  unfold HdrType.fieldOfSel at h
  rw [Option.map_eq_some_iff] at h
  obtain ⟨e, he, rfl⟩ := h
  have h1 := List.mem_of_find?_eq_some he
  have h2 : e.1 = b := by simpa using List.find?_some he
  subst h2
  clear he
  revert e h1
  cases t <;> decide

@[simp] theorem slotOfSel_slotSel (k : Slot) : slotOfSel (slotSel k) = some k := by revert k; decide

theorem slotSel_of_slotOfSel {b : BitVec 4} {k : Slot} (h : slotOfSel b = some k) : slotSel k = b := by
  revert b k; decide

@[simp] theorem ViewType.ofSel_sel (v : ViewType) : ViewType.ofSel v.sel v.word = some v := by
  cases v with
  | hdr t => simp [ViewType.ofSel, ViewType.sel, HdrType.sel_ne_raw]
  | raw size => simp [ViewType.ofSel, ViewType.sel, ViewType.word]

theorem ViewType.sel_of_ofSel {b : BitVec 4} {w : Word} {v : ViewType} (h : ViewType.ofSel b w = some v) :
    v.sel = b ∧ (∀ size, v = .raw size → size = w) := by
  unfold ViewType.ofSel at h
  split at h
  · rename_i hb; cases h; exact ⟨hb.symm, by intro size e; cases e; rfl⟩
  · rw [Option.map_eq_some_iff] at h
    obtain ⟨t, ht, rfl⟩ := h
    exact ⟨HdrType.sel_of_ofSel ht, by intro size e; cases e⟩

end Sys2Proof
end

