-- ==== Sys2Proof/Laws/State.lean ====
section
/-! SUPPORT. One lemma per field per update of the state: what each operation leaves in each field. -/

namespace Sys2Proof.Machine

variable (s : State)

/-! ### `record` -/

@[simp] theorem State.record_cfg (acts : List Action) : (s.record acts).cfg = s.cfg := rfl
@[simp] theorem State.record_wm (acts : List Action) : (s.record acts).wm = s.wm := rfl
@[simp] theorem State.record_cur (acts : List Action) : (s.record acts).cur = s.cur := rfl
@[simp] theorem State.record_mem (acts : List Action) : (s.record acts).mem = s.mem := rfl
@[simp] theorem State.record_input (acts : List Action) : (s.record acts).input = s.input := rfl
@[simp] theorem State.record_port (acts : List Action) : (s.record acts).port = s.port := rfl
@[simp] theorem State.record_trace (acts : List Action) : (s.record acts).trace = s.trace ++ acts := rfl
@[simp] theorem State.record_draws (acts : List Action) : (s.record acts).draws = s.draws := rfl
@[simp] theorem State.record_flights (acts : List Action) : (s.record acts).flights = s.flights := rfl

/-! ### `afterRead` -/

@[simp] theorem State.afterRead_cfg (a n : Nat) : (s.afterRead a n).cfg = s.cfg := rfl
@[simp] theorem State.afterRead_wm (a n : Nat) : (s.afterRead a n).wm = s.wm := rfl
@[simp] theorem State.afterRead_cur (a n : Nat) : (s.afterRead a n).cur = s.cur := rfl
@[simp] theorem State.afterRead_mem (a n : Nat) : (s.afterRead a n).mem = s.mem := rfl
@[simp] theorem State.afterRead_input (a n : Nat) : (s.afterRead a n).input = s.input := rfl
@[simp] theorem State.afterRead_port (a n : Nat) : (s.afterRead a n).port = s.port := rfl
@[simp] theorem State.afterRead_trace (a n : Nat) : (s.afterRead a n).trace = s.trace ++ readActions a (s.bytesAt a n) := rfl
@[simp] theorem State.afterRead_draws (a n : Nat) : (s.afterRead a n).draws = s.draws := rfl
@[simp] theorem State.afterRead_flights (a n : Nat) : (s.afterRead a n).flights = s.flights := rfl

/-! ### `afterWrite` -/

@[simp] theorem State.afterWrite_cfg (a : Nat) (bs : List Byte) : (s.afterWrite a bs).cfg = s.cfg := rfl
@[simp] theorem State.afterWrite_wm (a : Nat) (bs : List Byte) : (s.afterWrite a bs).wm = s.wm := rfl
@[simp] theorem State.afterWrite_cur (a : Nat) (bs : List Byte) : (s.afterWrite a bs).cur = s.cur := rfl
@[simp] theorem State.afterWrite_mem (a : Nat) (bs : List Byte) : (s.afterWrite a bs).mem = Memory.storeBytes s.mem a bs := rfl
@[simp] theorem State.afterWrite_input (a : Nat) (bs : List Byte) : (s.afterWrite a bs).input = s.input := rfl
@[simp] theorem State.afterWrite_port (a : Nat) (bs : List Byte) : (s.afterWrite a bs).port = s.port := rfl
@[simp] theorem State.afterWrite_trace (a : Nat) (bs : List Byte) : (s.afterWrite a bs).trace = s.trace ++ writeActions a bs := rfl
@[simp] theorem State.afterWrite_draws (a : Nat) (bs : List Byte) : (s.afterWrite a bs).draws = s.draws := rfl
@[simp] theorem State.afterWrite_flights (a : Nat) (bs : List Byte) : (s.afterWrite a bs).flights = s.flights := rfl

/-! ### `afterIoRead` -/

@[simp] theorem State.afterIoRead_cfg (a : Nat) (w : IoWidth) : (s.afterIoRead a w).cfg = s.cfg := rfl
@[simp] theorem State.afterIoRead_wm (a : Nat) (w : IoWidth) : (s.afterIoRead a w).wm = s.wm := rfl
@[simp] theorem State.afterIoRead_cur (a : Nat) (w : IoWidth) : (s.afterIoRead a w).cur = s.cur := rfl
@[simp] theorem State.afterIoRead_mem (a : Nat) (w : IoWidth) : (s.afterIoRead a w).mem = s.mem := rfl
@[simp] theorem State.afterIoRead_input (a : Nat) (w : IoWidth) : (s.afterIoRead a w).input = s.input := rfl
@[simp] theorem State.afterIoRead_port (a : Nat) (w : IoWidth) : (s.afterIoRead a w).port = s.port := rfl
@[simp] theorem State.afterIoRead_trace (a : Nat) (w : IoWidth) : (s.afterIoRead a w).trace = s.trace ++ [.ioRead a (s.ioBytes a 0 w.bytes)] := rfl
@[simp] theorem State.afterIoRead_draws (a : Nat) (w : IoWidth) : (s.afterIoRead a w).draws = s.draws + 1 := rfl
@[simp] theorem State.afterIoRead_flights (a : Nat) (w : IoWidth) : (s.afterIoRead a w).flights = s.flights := rfl

/-! ### `afterIoWrite` -/

@[simp] theorem State.afterIoWrite_cfg (a : Nat) (bs : List Byte) : (s.afterIoWrite a bs).cfg = s.cfg := rfl
@[simp] theorem State.afterIoWrite_wm (a : Nat) (bs : List Byte) : (s.afterIoWrite a bs).wm = s.wm := rfl
@[simp] theorem State.afterIoWrite_cur (a : Nat) (bs : List Byte) : (s.afterIoWrite a bs).cur = s.cur := rfl
@[simp] theorem State.afterIoWrite_mem (a : Nat) (bs : List Byte) : (s.afterIoWrite a bs).mem = Memory.storeBacked s.cfg s.mem a bs := rfl
@[simp] theorem State.afterIoWrite_input (a : Nat) (bs : List Byte) : (s.afterIoWrite a bs).input = s.input := rfl
@[simp] theorem State.afterIoWrite_port (a : Nat) (bs : List Byte) : (s.afterIoWrite a bs).port = s.port := rfl
@[simp] theorem State.afterIoWrite_trace (a : Nat) (bs : List Byte) : (s.afterIoWrite a bs).trace = s.trace ++ [.ioWrite a bs] := rfl
@[simp] theorem State.afterIoWrite_draws (a : Nat) (bs : List Byte) : (s.afterIoWrite a bs).draws = s.draws := rfl
@[simp] theorem State.afterIoWrite_flights (a : Nat) (bs : List Byte) : (s.afterIoWrite a bs).flights = s.flights := rfl

/-! ### `setSlot` -/

@[simp] theorem State.setSlot_cfg (k : Slot) (c : Cursor) : (s.setSlot k c).cfg = s.cfg := rfl
@[simp] theorem State.setSlot_wm (k : Slot) (c : Cursor) : (s.setSlot k c).wm = s.wm := rfl
@[simp] theorem State.setSlot_cur (k : Slot) (c : Cursor) : (s.setSlot k c).cur = s.cur.set k c := rfl
@[simp] theorem State.setSlot_mem (k : Slot) (c : Cursor) : (s.setSlot k c).mem = s.mem := rfl
@[simp] theorem State.setSlot_input (k : Slot) (c : Cursor) : (s.setSlot k c).input = s.input := rfl
@[simp] theorem State.setSlot_port (k : Slot) (c : Cursor) : (s.setSlot k c).port = s.port := rfl
@[simp] theorem State.setSlot_trace (k : Slot) (c : Cursor) : (s.setSlot k c).trace = s.trace := rfl
@[simp] theorem State.setSlot_draws (k : Slot) (c : Cursor) : (s.setSlot k c).draws = s.draws := rfl
@[simp] theorem State.setSlot_flights (k : Slot) (c : Cursor) : (s.setSlot k c).flights = s.flights := rfl

/-! ### `setWm` -/

@[simp] theorem State.setWm_cfg (v : Nat) : (s.setWm v).cfg = s.cfg := rfl
@[simp] theorem State.setWm_wm (v : Nat) : (s.setWm v).wm = BitVec.ofNat 65 v := rfl
@[simp] theorem State.setWm_cur (v : Nat) : (s.setWm v).cur = s.cur := rfl
@[simp] theorem State.setWm_mem (v : Nat) : (s.setWm v).mem = s.mem := rfl
@[simp] theorem State.setWm_input (v : Nat) : (s.setWm v).input = s.input := rfl
@[simp] theorem State.setWm_port (v : Nat) : (s.setWm v).port = s.port := rfl
@[simp] theorem State.setWm_trace (v : Nat) : (s.setWm v).trace = s.trace := rfl
@[simp] theorem State.setWm_draws (v : Nat) : (s.setWm v).draws = s.draws := rfl
@[simp] theorem State.setWm_flights (v : Nat) : (s.setWm v).flights = s.flights := rfl

/-! ### `respond` -/

@[simp] theorem State.respond_cfg (st : Status) (r : Results) : (s.respond st r).cfg = s.cfg := rfl
@[simp] theorem State.respond_wm (st : Status) (r : Results) : (s.respond st r).wm = s.wm := rfl
@[simp] theorem State.respond_cur (st : Status) (r : Results) : (s.respond st r).cur = s.cur := rfl
@[simp] theorem State.respond_mem (st : Status) (r : Results) : (s.respond st r).mem = s.mem := rfl
@[simp] theorem State.respond_input (st : Status) (r : Results) : (s.respond st r).input = s.input := rfl
@[simp] theorem State.respond_port (st : Status) (r : Results) : (s.respond st r).port = s.port := rfl
@[simp] theorem State.respond_trace (st : Status) (r : Results) : (s.respond st r).trace = s.trace ++ [.reply s.port ⟨st, r⟩] := rfl
@[simp] theorem State.respond_draws (st : Status) (r : Results) : (s.respond st r).draws = s.draws := rfl
@[simp] theorem State.respond_flights (st : Status) (r : Results) : (s.respond st r).flights = s.flights := rfl

/-! ### `applyReset` -/

@[simp] theorem State.applyReset_cfg : (s.applyReset).cfg = s.cfg := rfl
@[simp] theorem State.applyReset_wm : (s.applyReset).wm = BitVec.ofNat 65 s.cfg.imageEnd := rfl
@[simp] theorem State.applyReset_cur : (s.applyReset).cur = Vector.replicate ncur Cursor.empty := rfl
@[simp] theorem State.applyReset_mem : (s.applyReset).mem = s.mem := rfl
@[simp] theorem State.applyReset_input : (s.applyReset).input = s.input := rfl
@[simp] theorem State.applyReset_port : (s.applyReset).port = s.port := rfl
@[simp] theorem State.applyReset_trace : (s.applyReset).trace = s.trace := rfl
@[simp] theorem State.applyReset_draws : (s.applyReset).draws = s.draws := rfl
@[simp] theorem State.applyReset_flights : (s.applyReset).flights = [] := rfl

/-! ### `serving` -/

@[simp] theorem State.serving_cfg (p : Nat) (rest : List Event) : (s.serving p rest).cfg = s.cfg := rfl
@[simp] theorem State.serving_wm (p : Nat) (rest : List Event) : (s.serving p rest).wm = s.wm := rfl
@[simp] theorem State.serving_cur (p : Nat) (rest : List Event) : (s.serving p rest).cur = s.cur := rfl
@[simp] theorem State.serving_mem (p : Nat) (rest : List Event) : (s.serving p rest).mem = s.mem := rfl
@[simp] theorem State.serving_input (p : Nat) (rest : List Event) : (s.serving p rest).input = rest := rfl
@[simp] theorem State.serving_port (p : Nat) (rest : List Event) : (s.serving p rest).port = p := rfl
@[simp] theorem State.serving_trace (p : Nat) (rest : List Event) : (s.serving p rest).trace = s.trace := rfl
@[simp] theorem State.serving_draws (p : Nat) (rest : List Event) : (s.serving p rest).draws = s.draws := rfl
@[simp] theorem State.serving_flights (p : Nat) (rest : List Event) : (s.serving p rest).flights = s.flights := rfl

/-! ### `presenting` -/

@[simp] theorem State.presenting_cfg (p : Packet) : (s.presenting p).cfg = s.cfg := rfl
@[simp] theorem State.presenting_wm (p : Packet) : (s.presenting p).wm = s.wm := rfl
@[simp] theorem State.presenting_cur (p : Packet) : (s.presenting p).cur = s.cur := rfl
@[simp] theorem State.presenting_mem (p : Packet) : (s.presenting p).mem = s.mem := rfl
@[simp] theorem State.presenting_input (p : Packet) : (s.presenting p).input = .command 0 p :: s.input := rfl
@[simp] theorem State.presenting_port (p : Packet) : (s.presenting p).port = s.port := rfl
@[simp] theorem State.presenting_trace (p : Packet) : (s.presenting p).trace = s.trace := rfl
@[simp] theorem State.presenting_draws (p : Packet) : (s.presenting p).draws = s.draws := rfl
@[simp] theorem State.presenting_flights (p : Packet) : (s.presenting p).flights = putJob s.flights 0 none := rfl

/-! ### `launch` -/

variable (b : Started) (port : Nat)

@[simp] theorem Started.launch_cfg : (b.launch port).cfg = b.state.cfg := rfl
@[simp] theorem Started.launch_wm : (b.launch port).wm = b.state.wm := rfl
@[simp] theorem Started.launch_cur : (b.launch port).cur = b.state.cur := rfl
@[simp] theorem Started.launch_mem : (b.launch port).mem = b.state.mem := rfl
@[simp] theorem Started.launch_input : (b.launch port).input = b.state.input := rfl
@[simp] theorem Started.launch_port : (b.launch port).port = b.state.port := rfl
@[simp] theorem Started.launch_trace : (b.launch port).trace = b.state.trace := rfl
@[simp] theorem Started.launch_draws : (b.launch port).draws = b.state.draws := rfl
@[simp] theorem Started.launch_flights : (b.launch port).flights = b.state.flights ++ [⟨port, b.job⟩] := rfl

/-! ### `envStore`, which branches -/

@[simp] theorem State.envStore_cfg (a : Nat) (b : Byte) : (s.envStore a b).cfg = s.cfg := by
  unfold State.envStore; split <;> rfl
@[simp] theorem State.envStore_wm (a : Nat) (b : Byte) : (s.envStore a b).wm = s.wm := by
  unfold State.envStore; split <;> rfl
@[simp] theorem State.envStore_cur (a : Nat) (b : Byte) : (s.envStore a b).cur = s.cur := by
  unfold State.envStore; split <;> rfl
@[simp] theorem State.envStore_input (a : Nat) (b : Byte) : (s.envStore a b).input = s.input := by
  unfold State.envStore; split <;> rfl
@[simp] theorem State.envStore_port (a : Nat) (b : Byte) : (s.envStore a b).port = s.port := by
  unfold State.envStore; split <;> rfl
@[simp] theorem State.envStore_trace (a : Nat) (b : Byte) : (s.envStore a b).trace = s.trace := by
  unfold State.envStore; split <;> rfl
@[simp] theorem State.envStore_draws (a : Nat) (b : Byte) : (s.envStore a b).draws = s.draws := by
  unfold State.envStore; split <;> rfl
@[simp] theorem State.envStore_flights (a : Nat) (b : Byte) : (s.envStore a b).flights = s.flights := by
  unfold State.envStore; split <;> rfl

/-- A slot just set reads as set. -/
@[simp] theorem State.slot_setSlot_same (k : Slot) (c : Cursor) : (s.setSlot k c).slot k = c := by
  simp [State.slot]

/-- The other slots are as before. -/
@[simp] theorem State.slot_setSlot_other (k j : Slot) (c : Cursor) (h : j ≠ k) : (s.setSlot k c).slot j = s.slot j := by
  have h' : k.val ≠ j.val := fun e => h (Fin.ext e.symm)
  simp [State.slot, h']

/-- After reset every slot is empty. -/
@[simp] theorem State.slot_applyReset (k : Slot) : s.applyReset.slot k = Cursor.empty := by
  simp [State.slot]

end Sys2Proof.Machine
end

