-- ==== Sys2Proof/Laws/Memory.lean ====
section
/-! SUPPORT. Memory: reading after writing, the canonical form, and byte strings. -/

namespace Sys2Proof.Machine

/-! ## Reading after writing -/

theorem Memory.lookup_store_same (m : Memory) (a : Nat) (b : Byte) : Memory.lookup (Memory.store m a b) a = some b := by
  induction m with
  | nil => simp [Memory.store, Memory.lookup]
  | cons e m ih =>
    obtain ⟨a', b'⟩ := e
    unfold Memory.store
    split
    · simp [Memory.lookup]
    · split
      · simp [Memory.lookup]
      · simp [Memory.lookup, *]

theorem Memory.lookup_store_other (m : Memory) (a x : Nat) (b : Byte) (h : x ≠ a) :
    Memory.lookup (Memory.store m a b) x = Memory.lookup m x := by
  induction m with
  | nil => simp [Memory.store, Memory.lookup, h]
  | cons e m ih =>
    obtain ⟨a', b'⟩ := e
    unfold Memory.store
    split
    · simp [Memory.lookup, h]
    · split
      · subst a; simp [Memory.lookup, h]
      · simp [Memory.lookup, ih]

/-- A byte outside the stored ones is as before. -/
theorem Memory.lookup_storeBytes_outside (bs : List Byte) : ∀ (m : Memory) (a x : Nat),
    (x < a ∨ a + bs.length ≤ x) → Memory.lookup (Memory.storeBytes m a bs) x = Memory.lookup m x := by
  induction bs with
  | nil => intro m a x _; rfl
  | cons b bs ih =>
    intro m a x h
    simp only [List.length_cons] at h
    rw [Memory.storeBytes, ih _ _ _ (by omega), Memory.lookup_store_other _ _ _ _ (by omega)]

/-- A stored byte reads as stored. -/
theorem Memory.lookup_storeBytes_inside (bs : List Byte) : ∀ (m : Memory) (a j : Nat) (h : j < bs.length),
    Memory.lookup (Memory.storeBytes m a bs) (a + j) = some bs[j] := by
  induction bs with
  | nil => intro m a j h; simp at h
  | cons b bs ih =>
    intro m a j h
    rw [Memory.storeBytes]
    cases j with
    | zero =>
      rw [Memory.lookup_storeBytes_outside _ _ _ _ (by omega)]
      simpa using Memory.lookup_store_same m a b
    | succ j =>
      have := ih (Memory.store m a b) (a + 1) j (by simpa using h)
      rw [show a + (j + 1) = a + 1 + j by omega, this]
      simp

/-- A volatile write leaves the bytes outside it as before. -/
theorem Memory.lookup_storeBacked_outside (c : Config) (bs : List Byte) : ∀ (m : Memory) (a x : Nat),
    (x < a ∨ a + bs.length ≤ x) → Memory.lookup (Memory.storeBacked c m a bs) x = Memory.lookup m x := by
  induction bs with
  | nil => intro m a x _; rfl
  | cons b bs ih =>
    intro m a x h
    simp only [List.length_cons] at h
    rw [Memory.storeBacked, ih _ _ _ (by omega)]
    split
    · exact Memory.lookup_store_other _ _ _ _ (by omega)
    · rfl

/-- A volatile write stores nothing at an address memory does not back. -/
theorem Memory.lookup_storeBacked_unbacked (c : Config) (x : Nat) (hx : backs c x = false) (bs : List Byte) :
    ∀ (m : Memory) (a : Nat), Memory.lookup (Memory.storeBacked c m a bs) x = Memory.lookup m x := by
  induction bs with
  | nil => intro m a; rfl
  | cons b bs ih =>
    intro m a
    rw [Memory.storeBacked, ih]
    split
    · rename_i h
      exact Memory.lookup_store_other _ _ _ _ (by rintro rfl; simp [hx] at h)
    · rfl

theorem backsRange_iff (c : Config) (n : Nat) : ∀ a, backsRange c a n = true ↔ ∀ j < n, backs c (a + j) = true := by
  induction n with
  | zero => intro a; simp [backsRange]
  | succ n ih =>
    intro a
    simp only [backsRange, Bool.and_eq_true, ih]
    constructor
    · rintro ⟨h0, h⟩ j hj
      cases j with
      | zero => simpa using h0
      | succ j => have := h j (by omega); rwa [show a + 1 + j = a + (j + 1) by omega] at this
    · intro h
      exact ⟨by simpa using h 0 (by omega), fun j hj => by
        have := h (j + 1) (by omega); rwa [show a + (j + 1) = a + 1 + j by omega] at this⟩

theorem reachesRange_iff (c : Config) (n : Nat) :
    ∀ a, reachesRange c a n = true ↔ ∀ j < n, (backs c (a + j) || hasDevice c (a + j)) = true := by
  induction n with
  | zero => intro a; simp [reachesRange]
  | succ n ih =>
    intro a
    simp only [reachesRange, Bool.and_eq_true, ih]
    constructor
    · rintro ⟨h0, h⟩ j hj
      cases j with
      | zero => simpa using h0
      | succ j => have := h j (by omega); rwa [show a + 1 + j = a + (j + 1) by omega] at this
    · intro h
      exact ⟨by simpa using h 0 (by omega), fun j hj => by
        have := h (j + 1) (by omega); rwa [show a + (j + 1) = a + 1 + j by omega] at this⟩

/-- On ordinary memory a volatile write stores its bytes. -/
theorem Memory.storeBacked_of_backed (c : Config) (bs : List Byte) : ∀ (m : Memory) (a : Nat),
    backsRange c a bs.length = true → Memory.storeBacked c m a bs = Memory.storeBytes m a bs := by
  induction bs with
  | nil => intro m a _; rfl
  | cons b bs ih =>
    intro m a h
    simp only [List.length_cons, backsRange, Bool.and_eq_true] at h
    simp [Memory.storeBacked, Memory.storeBytes, h.1, ih _ _ h.2]

/-- On device registers alone a volatile write stores nothing. -/
theorem Memory.storeBacked_of_device (c : Config) (bs : List Byte) : ∀ (m : Memory) (a : Nat),
    (∀ j < bs.length, backs c (a + j) = false) → Memory.storeBacked c m a bs = m := by
  induction bs with
  | nil => intro m a _; rfl
  | cons b bs ih =>
    intro m a h
    have h0 := h 0 (by simp)
    rw [Memory.storeBacked, ih _ _ fun j hj => by
      have := h (j + 1) (by simpa using hj); rwa [show a + (j + 1) = a + 1 + j by omega] at this]
    simp_all

/-! ## The canonical form -/

theorem Memory.risingFrom_mono {lo lo' : Nat} (hle : lo' ≤ lo) :
    ∀ {m : Memory}, Memory.risingFrom lo m = true → Memory.risingFrom lo' m = true
  | [], _ => rfl
  | (a, b) :: m, h => by
    simp only [Memory.risingFrom, Bool.and_eq_true, decide_eq_true_eq] at h ⊢
    exact ⟨by omega, h.2⟩

theorem Memory.risingFrom_store (m : Memory) (a : Nat) (b : Byte) : ∀ lo, lo ≤ a →
    Memory.risingFrom lo m = true → Memory.risingFrom lo (Memory.store m a b) = true := by
  induction m with
  | nil => intro lo h _; simp [Memory.store, Memory.risingFrom, h]
  | cons e m ih =>
    obtain ⟨a', b'⟩ := e
    intro lo hlo h
    simp only [Memory.risingFrom, Bool.and_eq_true, decide_eq_true_eq] at h
    unfold Memory.store
    split
    · simp only [Memory.risingFrom, Bool.and_eq_true, decide_eq_true_eq]
      exact ⟨hlo, by omega, h.2⟩
    · split
      · subst a; simp [Memory.risingFrom, h.1, h.2]
      · simp only [Memory.risingFrom, Bool.and_eq_true, decide_eq_true_eq]
        exact ⟨h.1, ih _ (by omega) h.2⟩

/-- A store keeps the canonical form. -/
theorem Memory.wf_store (m : Memory) (a : Nat) (b : Byte) (h : Memory.wf m = true) :
    Memory.wf (Memory.store m a b) = true := Memory.risingFrom_store m a b 0 (by omega) h

/-- `MemWrite` keeps the canonical form. -/
theorem Memory.wf_storeBytes (bs : List Byte) : ∀ (m : Memory) (a : Nat), Memory.wf m = true →
    Memory.wf (Memory.storeBytes m a bs) = true := by
  induction bs with
  | nil => intro m a h; exact h
  | cons b bs ih => intro m a h; exact ih _ _ (Memory.wf_store m a b h)

/-- A volatile write keeps the canonical form. -/
theorem Memory.wf_storeBacked (c : Config) (bs : List Byte) : ∀ (m : Memory) (a : Nat), Memory.wf m = true →
    Memory.wf (Memory.storeBacked c m a bs) = true := by
  induction bs with
  | nil => intro m a h; exact h
  | cons b bs ih =>
    intro m a h
    rw [Memory.storeBacked]
    apply ih
    split
    · exact Memory.wf_store m a b h
    · exact h

/-- The memory after reset is in canonical form. -/
theorem Memory.wf_reset : Memory.wf State.reset.mem = true := rfl

/-- In canonical form no address below the first is listed. -/
theorem Memory.lookup_of_risingFrom {lo : Nat} : ∀ {m : Memory}, Memory.risingFrom lo m = true → ∀ x, x < lo →
    Memory.lookup m x = none
  | [], _, _, _ => rfl
  | (a, b) :: m, h, x, hx => by
    simp only [Memory.risingFrom, Bool.and_eq_true, decide_eq_true_eq] at h
    rw [Memory.lookup, if_neg (by omega)]
    exact Memory.lookup_of_risingFrom h.2 x (by omega)

/-- Every entry of a stored memory is an old one or the one stored. -/
theorem Memory.mem_store (m : Memory) (a : Nat) (b : Byte) (e : Nat × Byte) (h : e ∈ Memory.store m a b) :
    e ∈ m ∨ e = (a, b) := by
  induction m with
  | nil => simp_all [Memory.store]
  | cons x m ih =>
    obtain ⟨a', b'⟩ := x
    unfold Memory.store at h
    split at h
    · simp at h ⊢; tauto
    · split at h
      · simp at h; rcases h with h | h <;> simp [h]
      · simp at h; rcases h with h | h
        · simp [h]
        · rcases ih h with h | h <;> simp [h]

/-- A store at a backed address keeps every listed address backed. -/
theorem Memory.all_backed_store (c : Config) (m : Memory) (a : Nat) (b : Byte) (ha : backs c a = true)
    (h : m.all (fun e => backs c e.1) = true) : (Memory.store m a b).all (fun e => backs c e.1) = true := by
  rw [List.all_eq_true] at h ⊢
  intro e he
  rcases Memory.mem_store m a b e he with he | rfl
  · exact h e he
  · exact ha

theorem Memory.all_backed_storeBytes (c : Config) (bs : List Byte) : ∀ (m : Memory) (a : Nat),
    backsRange c a bs.length = true → m.all (fun e => backs c e.1) = true →
    (Memory.storeBytes m a bs).all (fun e => backs c e.1) = true := by
  induction bs with
  | nil => intro m a _ h; exact h
  | cons b bs ih =>
    intro m a hr h
    simp only [List.length_cons, backsRange, Bool.and_eq_true] at hr
    exact ih _ _ hr.2 (Memory.all_backed_store c m a b hr.1 h)

theorem Memory.all_backed_storeBacked (c : Config) (bs : List Byte) : ∀ (m : Memory) (a : Nat),
    m.all (fun e => backs c e.1) = true → (Memory.storeBacked c m a bs).all (fun e => backs c e.1) = true := by
  induction bs with
  | nil => intro m a h; exact h
  | cons b bs ih =>
    intro m a h
    rw [Memory.storeBacked]
    apply ih
    split
    · rename_i ha; exact Memory.all_backed_store c m a b ha h
    · exact h

/-! ## The bytes of a state -/

/-- The byte at an address depends on that address's entry alone. -/
theorem State.byteAt_congr {s t : State} {a : Nat} (h : Memory.lookup s.mem a = Memory.lookup t.mem a) :
    s.byteAt a = t.byteAt a := by simp [State.byteAt, h]

/-- A store outside `x` leaves the byte at `x`. -/
theorem State.byteAt_afterWrite_outside (s : State) (a : Nat) (bs : List Byte) (x : Nat)
    (h : x < a ∨ a + bs.length ≤ x) : (s.afterWrite a bs).byteAt x = s.byteAt x :=
  State.byteAt_congr (Memory.lookup_storeBytes_outside bs s.mem a x h)

/-- A stored byte reads as stored. -/
theorem State.byteAt_afterWrite_inside (s : State) (a : Nat) (bs : List Byte) (j : Nat) (h : j < bs.length) :
    (s.afterWrite a bs).byteAt (a + j) = bs[j] := by
  simp [State.byteAt, Memory.lookup_storeBytes_inside bs s.mem a j h]

@[simp] theorem State.bytesAt_length (s : State) (n : Nat) : ∀ a, (s.bytesAt a n).length = n := by
  induction n with
  | zero => intro a; rfl
  | succ n ih => intro a; simp [State.bytesAt, ih]

@[simp] theorem State.bytesAt_getElem (s : State) (n : Nat) : ∀ a j (h : j < (s.bytesAt a n).length),
    (s.bytesAt a n)[j] = s.byteAt (a + j) := by
  induction n with
  | zero => intro a j h; simp [State.bytesAt] at h
  | succ n ih =>
    intro a j h
    cases j with
    | zero => simp [State.bytesAt]
    | succ j => simp [State.bytesAt, ih, show a + 1 + j = a + (j + 1) by omega]

/-- Two states whose bytes agree on a range read the same bytes there. -/
theorem State.bytesAt_congr {s t : State} (n : Nat) : ∀ a, (∀ j < n, s.byteAt (a + j) = t.byteAt (a + j)) →
    s.bytesAt a n = t.bytesAt a n := by
  intro a h
  apply List.ext_getElem (by simp)
  intro j h1 h2
  simp [h j (by simpa using h1)]

/-- The bytes just written read as written. -/
theorem State.bytesAt_afterWrite (s : State) (a : Nat) (bs : List Byte) :
    (s.afterWrite a bs).bytesAt a bs.length = bs := by
  apply List.ext_getElem (by simp)
  intro j h1 h2
  simp only [State.bytesAt_getElem]
  exact State.byteAt_afterWrite_inside s a bs j h2

@[simp] theorem State.ioBytes_length (s : State) (n : Nat) : ∀ a lane, (s.ioBytes a lane n).length = n := by
  induction n with
  | zero => intro a lane; rfl
  | succ n ih => intro a lane; simp [State.ioBytes, ih]

/-- On ordinary memory a volatile read returns the stored bytes (R187, R188). -/
theorem State.ioBytes_of_backed (s : State) (n : Nat) : ∀ a lane, backsRange s.cfg a n = true →
    s.ioBytes a lane n = s.bytesAt a n := by
  induction n with
  | zero => intro a lane _; rfl
  | succ n ih =>
    intro a lane h
    simp only [backsRange, Bool.and_eq_true] at h
    simp [State.ioBytes, State.bytesAt, State.ioByte, h.1, ih _ _ h.2]

/-! ## Byte strings as numbers (R10) -/

@[simp] theorem bytesBe_length (v n : Nat) : (bytesBe v n).length = n := by
  induction n with
  | zero => rfl
  | succ n ih => simp [bytesBe, ih]

@[simp] theorem bytesLe_length (n : Nat) : ∀ v, (bytesLe v n).length = n := by
  induction n with
  | zero => intro v; rfl
  | succ n ih => intro v; simp [bytesLe, ih]

theorem be_foldl (bs : List Byte) : ∀ acc : Nat,
    bs.foldl (fun acc b => acc * 256 + b.toNat) acc = acc * 256 ^ bs.length + be bs := by
  induction bs with
  | nil => intro acc; simp [be]
  | cons b bs ih =>
    intro acc
    have h1 := ih (acc * 256 + b.toNat)
    have h2 := ih (0 * 256 + b.toNat)
    simp only [List.foldl_cons, be, List.length_cons, pow_succ] at h1 h2 ⊢
    rw [h1, h2]; ring

/-- The first byte of a big-endian number is its most significant one. -/
theorem be_cons (b : Byte) (bs : List Byte) : be (b :: bs) = b.toNat * 256 ^ bs.length + be bs := by
  have := be_foldl bs b.toNat
  simpa [be] using this

theorem be_lt (bs : List Byte) : be bs < 256 ^ bs.length := by
  induction bs with
  | nil => simp [be]
  | cons b bs ih =>
    rw [be_cons, List.length_cons, pow_succ]
    have hb : b.toNat < 256 := b.isLt
    nlinarith [Nat.mul_le_mul_right (256 ^ bs.length) (Nat.le_of_lt_succ hb)]

theorem be_bytesBe_mod (v n : Nat) : be (bytesBe v n) = v % 256 ^ n := by
  induction n with
  | zero => simp [bytesBe, be, Nat.mod_one]
  | succ n ih =>
    rw [bytesBe, be_cons, ih, bytesBe_length, BitVec.toNat_ofNat, pow_succ 256 n, Nat.mod_mul, Nat.add_comm,
      Nat.mul_comm]

/-- `bytes_be` is a right inverse of `be` (R10). -/
theorem be_bytesBe (v n : Nat) (h : v < 256 ^ n) : be (bytesBe v n) = v := by
  rw [be_bytesBe_mod, Nat.mod_eq_of_lt h]

theorem bytesBe_be (bs : List Byte) : bytesBe (be bs) bs.length = bs := by
  suffices h : ∀ (bs : List Byte) (k : Nat), bytesBe (k * 256 ^ bs.length + be bs) bs.length = bs by simpa using h bs 0
  intro bs
  induction bs with
  | nil => intro k; rfl
  | cons b bs ih =>
    intro k
    have hlt := be_lt bs
    have hpos : 0 < 256 ^ bs.length := Nat.pow_pos (by decide)
    have e : k * 256 ^ (b :: bs).length + be (b :: bs) = (k * 256 + b.toNat) * 256 ^ bs.length + be bs := by
      rw [be_cons, List.length_cons, pow_succ]; ring
    rw [e, List.length_cons, bytesBe, ih]
    congr 1
    rw [Nat.add_comm, Nat.add_mul_div_right _ _ hpos, Nat.div_eq_of_lt hlt]
    apply BitVec.eq_of_toNat_eq
    have := b.isLt
    simp only [BitVec.toNat_ofNat]
    omega

theorem le_bytesLe_mod (n : Nat) : ∀ v, le (bytesLe v n) = v % 256 ^ n := by
  induction n with
  | zero => intro v; simp [bytesLe, le, Nat.mod_one]
  | succ n ih =>
    intro v
    rw [bytesLe, le, ih, BitVec.toNat_ofNat, pow_succ 256 n, Nat.mul_comm (256 ^ n) 256, Nat.mod_mul]

/-- `bytes_le` is a right inverse of `le` (R10). -/
theorem le_bytesLe (v n : Nat) (h : v < 256 ^ n) : le (bytesLe v n) = v := by
  rw [le_bytesLe_mod, Nat.mod_eq_of_lt h]

theorem le_lt (bs : List Byte) : le bs < 256 ^ bs.length := by
  induction bs with
  | nil => simp [le]
  | cons b bs ih =>
    rw [le, List.length_cons, pow_succ]
    have hb : b.toNat < 256 := b.isLt
    omega

end Sys2Proof.Machine
end

