-- ==== Sys2Proof/Laws/Turns.lean ====
section
/-! SUPPORT. The turns of a command: each leaves one fewer, and what all of them do when nothing falls between. -/

namespace Sys2Proof.Machine

/-! ## One turn -/

/-- How many bytes a field's write has does not depend on the byte that was there. -/
theorem putField_length (l : FieldLayout) (b c : Byte) (v : Nat) : (putField l b v).length = (putField l c v).length := by
  unfold putField; split <;> rfl

/-- A sub-byte field is written as one byte. -/
theorem putField_length_subByte {l : FieldLayout} (h : l.subByte = true) (b : Byte) (v : Nat) :
    (putField l b v).length = 1 := by
  unfold FieldLayout.subByte at h
  unfold putField
  split at h <;> simp_all

/-- Everything a turn can do: it makes the next access and leaves one turn fewer, it sends the response, or the access has
no step. -/
theorem Job.turn_cases (j : Job) (s : State) :
    (∃ t j' x, j.turn s = .next (t, some j') ∧ j.turns = j'.turns + 1 ∧ x.isAccess = true ∧
      t = { s with mem := t.mem, trace := s.trace ++ [x], draws := t.draws }) ∨
    (∃ resp : Response, j.turn s = .next (s.respond resp.st resp.r, none) ∧ j.turns = 1) ∨
    j.turn s = .fault .unbackedAccess ∨ j.turn s = .refused .misalignedRegisterAccess := by
  cases j with
  | reads a n got use =>
    cases n with
    | zero => exact .inr (.inl ⟨⟨.ok, use.results got⟩, rfl, rfl⟩)
    | succ n =>
      by_cases h : backs s.cfg a = true
      · exact .inl ⟨_, _, .read a (s.byteAt a), if_pos h, rfl, rfl, rfl⟩
      · exact .inr (.inr (.inl (if_neg h)))
  | patch l a v =>
    by_cases h : backs s.cfg a = true
    · exact .inl ⟨_, _, .read a (s.byteAt a), if_pos h, by simp only [Job.turns]; rw [putField_length l 0], rfl, rfl⟩
    · exact .inr (.inr (.inl (if_neg h)))
  | writes a bs =>
    cases bs with
    | nil => exact .inr (.inl ⟨⟨.ok, {}⟩, rfl, rfl⟩)
    | cons b bs =>
      by_cases h : backs s.cfg a = true
      · exact .inl ⟨_, _, .write a b, if_pos h, rfl, rfl, rfl⟩
      · exact .inr (.inr (.inl (if_neg h)))
  | ioRead a w =>
    by_cases h : a % w.bytes = 0
    · by_cases h' : reachesRange s.cfg a w.bytes = true
      · exact .inl ⟨s.afterIoRead a w, .reply ⟨.ok, { r0 := word (le (s.ioBytes a 0 w.bytes)) }⟩,
          .ioRead a (s.ioBytes a 0 w.bytes), by simp only [Job.turn, h, h', if_true], rfl, rfl, rfl⟩
      · exact .inr (.inr (.inl (by simp only [Job.turn, h, h', if_true]; rfl)))
    · exact .inr (.inr (.inr (if_neg h)))
  | ioWrite a w v =>
    by_cases h : a % w.bytes = 0
    · by_cases h' : reachesRange s.cfg a w.bytes = true
      · exact .inl ⟨s.afterIoWrite a (bytesLe v w.bytes), .reply ⟨.ok, {}⟩, .ioWrite a (bytesLe v w.bytes),
          by simp only [Job.turn, h, h', if_true], rfl, rfl, rfl⟩
      · exact .inr (.inr (.inl (by simp only [Job.turn, h, h', if_true]; rfl)))
    · exact .inr (.inr (.inr (if_neg h)))
  | reply resp => exact .inr (.inl ⟨resp, rfl, rfl⟩)

/-- A turn neither looks at the input and the other commands in progress nor changes them. -/
theorem Job.turn_congr (j : Job) (s : State) (inp : List Event) (fl : List Flight) :
    j.turn { s with input := inp, flights := fl } = match j.turn s with
      | .next (t, j') => .next ({ t with input := inp, flights := fl }, j')
      | .fault e => .fault e
      | .refused e => .refused e := by
  have hio : ∀ a lane n, State.ioBytes { s with input := inp, flights := fl } a lane n = s.ioBytes a lane n := by
    intro a lane n
    induction n generalizing a lane with
    | zero => rfl
    | succ n ih => simp only [State.ioBytes, ih]; rfl
  cases j with
  | reads a n got use => cases n <;> simp only [Job.turn] <;> [rfl; (split <;> rfl)]
  | patch l a v => simp only [Job.turn]; split <;> rfl
  | writes a bs => cases bs <;> simp only [Job.turn] <;> [rfl; (split <;> rfl)]
  | ioRead a w => simp only [Job.turn, State.afterIoRead, hio]; split <;> [(split <;> rfl); rfl]
  | ioWrite a w v => simp only [Job.turn]; split <;> [(split <;> rfl); rfl]
  | reply r => rfl

/-- A turn of a read takes the byte its address holds at that moment. -/
theorem Job.turn_reads_succ {s : State} {a : Nat} (h : backs s.cfg a = true) (n : Nat) (got : List Byte) (use : ReadUse) :
    (Job.reads a (n + 1) got use).turn s = .next (s.afterRead a 1, some (.reads (a + 1) n (got ++ [s.byteAt a]) use)) :=
  if_pos h

/-! ## All the turns, with nothing between them -/

/-- The next turn, then the rest. -/
theorem Job.finish_eq (j : Job) (s : State) :
    j.finish s = match j.turn s with
      | .next (t, some j') => j'.finish t
      | .next (t, none) => .next t
      | .fault e => .fault e
      | .refused e => .refused e := by
  rcases Job.turn_cases j s with ⟨t, j', x, h, ht, -⟩ | ⟨resp, h, ht⟩ | h | h
  · simp only [h, Job.finish, ht, Job.run]
  · simp only [h, Job.finish, ht, Job.run]
  · have : j.turns = j.turns - 1 + 1 := by cases j <;> simp [Job.turns]
    rw [Job.finish, this]; simp only [h, Job.run]
  · have : j.turns = j.turns - 1 + 1 := by cases j <;> simp [Job.turns]
    rw [Job.finish, this]; simp only [h, Job.run]

/-- What the turns of a command can change: memory, the draws and the record. -/
theorem Job.finish_frame {j : Job} {s t : State} (h : j.finish s = .next t) :
    t = { s with mem := t.mem, draws := t.draws, trace := t.trace } := by
  induction hn : j.turns generalizing j s with
  | zero => cases j <;> simp [Job.turns] at hn
  | succ n ih =>
    rw [Job.finish_eq] at h
    rcases Job.turn_cases j s with ⟨t', j', x, h', ht, -, he⟩ | ⟨r, h', ht⟩ | h' | h'
    · simp only [h'] at h
      have e := ih h (by omega)
      rw [he] at e
      rw [e]
    · simp only [h'] at h; cases h; rfl
    · simp [h'] at h
    · simp [h'] at h

@[simp] theorem Job.finish_reply (resp : Response) (s : State) :
    (Job.reply resp).finish s = .next (s.respond resp.st resp.r) := rfl

/-- A command without accesses completes with its response. -/
@[simp] theorem complete_done (s : State) (r : Results) : (done s r).complete = .next (s.respond .ok r) := rfl

/-- A command turned away completes with its status alone (R214). -/
@[simp] theorem complete_reject (s : State) (st : Status) : (reject s st).complete = .next (s.respond st {}) := rfl

theorem State.afterRead_afterRead (s : State) (a n : Nat) : (s.afterRead a 1).afterRead (a + 1) n = s.afterRead a (n + 1) := by
  have h : (s.afterRead a 1).bytesAt (a + 1) n = s.bytesAt (a + 1) n := State.bytesAt_congr n (a + 1) fun _ _ => rfl
  simp only [State.afterRead] at h ⊢
  rw [h]
  simp [State.record, readActions, State.bytesAt]

theorem State.afterWrite_afterWrite (s : State) (a : Nat) (b : Byte) (bs : List Byte) :
    (s.afterWrite a [b]).afterWrite (a + 1) bs = s.afterWrite a (b :: bs) := by
  simp [State.afterWrite, Memory.storeBytes, writeActions]

/-- The reads of a range: the response is computed from the bytes the range holds. -/
theorem Job.finish_reads (use : ReadUse) (n : Nat) : ∀ (a : Nat) (got : List Byte) (s : State),
    (Job.reads a n got use).finish s =
      if backsRange s.cfg a n then .next ((s.afterRead a n).respond .ok (use.results (got ++ s.bytesAt a n)))
      else .fault .unbackedAccess := by
  induction n with
  | zero => intro a got s; rw [Job.finish_eq]; simp [Job.turn, backsRange, State.bytesAt, State.afterRead, readActions, State.record]
  | succ n ih =>
    intro a got s
    rw [Job.finish_eq]
    rcases h : backs s.cfg a with _ | _
    · simp [Job.turn, backsRange, h]
    · have hb : (s.afterRead a 1).bytesAt (a + 1) n = s.bytesAt (a + 1) n := State.bytesAt_congr n (a + 1) fun _ _ => rfl
      simp only [Job.turn, h, if_true, ih, State.afterRead_cfg, State.afterRead_afterRead, hb, backsRange, Bool.true_and,
        State.bytesAt, List.append_assoc, List.cons_append, List.nil_append]

/-- The writes of a byte string. -/
theorem Job.finish_writes (bs : List Byte) : ∀ (a : Nat) (s : State),
    (Job.writes a bs).finish s =
      if backsRange s.cfg a bs.length then .next ((s.afterWrite a bs).respond .ok {}) else .fault .unbackedAccess := by
  induction bs with
  | nil => intro a s; rw [Job.finish_eq]; simp [Job.turn, backsRange, State.afterWrite, writeActions, Memory.storeBytes]
  | cons b bs ih =>
    intro a s
    rw [Job.finish_eq]
    rcases h : backs s.cfg a with _ | _
    · simp [Job.turn, backsRange, h]
    · simp only [Job.turn, h, if_true, ih, State.afterWrite_cfg, State.afterWrite_afterWrite, List.length_cons, backsRange,
        Bool.true_and]

/-- The read and the write of a sub-byte field. -/
theorem Job.finish_patch {l : FieldLayout} (hl : l.subByte = true) (a v : Nat) (s : State) :
    (Job.patch l a v).finish s =
      if backs s.cfg a then
        .next (((s.afterRead a 1).afterWrite a (putField l (s.byteAt a) v)).respond .ok {})
      else .fault .unbackedAccess := by
  rw [Job.finish_eq]
  rcases h : backs s.cfg a with _ | _
  · simp [Job.turn, h]
  · simp [Job.turn, h, Job.finish_writes, putField_length_subByte hl, backsRange]

/-- One volatile read. -/
theorem Job.finish_ioRead (a : Nat) (w : IoWidth) (s : State) :
    (Job.ioRead a w).finish s =
      if a % w.bytes = 0 then
        if reachesRange s.cfg a w.bytes then
          .next ((s.afterIoRead a w).respond .ok { r0 := word (le (s.ioBytes a 0 w.bytes)) })
        else .fault .unbackedAccess
      else .refused .misalignedRegisterAccess := by
  rw [Job.finish_eq]
  by_cases h : a % w.bytes = 0
  · by_cases h' : reachesRange s.cfg a w.bytes = true <;> simp [Job.turn, h, h']
  · simp [Job.turn, h]

/-- One volatile write. -/
theorem Job.finish_ioWrite (a : Nat) (w : IoWidth) (v : Nat) (s : State) :
    (Job.ioWrite a w v).finish s =
      if a % w.bytes = 0 then
        if reachesRange s.cfg a w.bytes then .next ((s.afterIoWrite a (bytesLe v w.bytes)).respond .ok {})
        else .fault .unbackedAccess
      else .refused .misalignedRegisterAccess := by
  rw [Job.finish_eq]
  by_cases h : a % w.bytes = 0
  · by_cases h' : reachesRange s.cfg a w.bytes = true <;> simp [Job.turn, h, h']
  · simp [Job.turn, h]

/-- Every meaning is its start, completed. -/
theorem exec_eq_complete (i : Instr) (s : State) : exec i s = (start i s).complete := by cases i <;> rfl

/-! ## The list of commands in progress -/

theorem jobIn_eq_none {fs : List Flight} {port : Nat} : jobIn fs port = none ↔ ∀ f ∈ fs, f.port ≠ port := by
  induction fs with
  | nil => simp [jobIn]
  | cons f fs ih => by_cases h : f.port = port <;> simp [jobIn, h, ih]

theorem jobIn_append_of_none {fs : List Flight} {port : Nat} (h : jobIn fs port = none) (gs : List Flight) :
    jobIn (fs ++ gs) port = jobIn gs port := by
  induction fs with
  | nil => rfl
  | cons f fs ih => by_cases hf : f.port = port <;> simp_all [jobIn]

/-- A port without a command in progress leaves the list as it is. -/
theorem putJob_of_free {port : Nat} {fs : List Flight} (h : jobIn fs port = none) (j : Option Job) : putJob fs port j = fs := by
  induction fs with
  | nil => rfl
  | cons f fs ih => by_cases hf : f.port = port <;> simp_all [jobIn, putJob]

/-- A turn of one port leaves the others' commands as they are. -/
theorem jobIn_putJob_other {port q : Nat} (hq : q ≠ port) (j : Option Job) (fs : List Flight) :
    jobIn (putJob fs port j) q = jobIn fs q := by
  induction fs with
  | nil => rfl
  | cons f fs ih =>
    by_cases hf : f.port = port
    · have h' : ¬ port = q := fun e => hq e.symm
      cases j <;> simp [putJob, jobIn, hf, ih, h']
    · simp [putJob, jobIn, hf, ih]

/-- A turn of a port leaves what its command still has to do. -/
theorem jobIn_putJob_same {port : Nat} (j : Option Job) (fs : List Flight) (h : jobIn fs port ≠ none) :
    jobIn (putJob fs port j) port = j := by
  induction fs with
  | nil => exact absurd rfl h
  | cons f fs ih =>
    by_cases hf : f.port = port
    · cases j with
      | some j => simp [putJob, jobIn, hf]
      | none =>
        simp only [putJob, hf, if_true]
        by_cases h' : jobIn fs port = none
        · rw [putJob_of_free h']; exact h'
        · exact ih h'
    · simp only [putJob, jobIn, hf, if_false] at h ⊢
      exact ih h

theorem putJob_append (port : Nat) (j : Option Job) (fs gs : List Flight) :
    putJob (fs ++ gs) port j = putJob fs port j ++ putJob gs port j := by
  induction fs with
  | nil => rfl
  | cons f fs ih => by_cases hf : f.port = port <;> cases j <;> simp [putJob, hf, ih]

end Sys2Proof.Machine
end

