-- ==== Sys2Proof/Laws/Ops.lean ====
section
/-! SUPPORT. For each shared operation, one lemma that says everything it can do. Callers cite these; they do not unfold the
operation again. -/

namespace Sys2Proof.Machine

/-! ## Tests on operands -/

theorem fits_iff (v : Word) (n : Nat) : fits v n = true ↔ v.toNat < 2 ^ n := by simp only [fits, decide_eq_true_eq]

theorem inSpace_iff (a n : Nat) : inSpace a n = true ↔ a + n ≤ 2 ^ 64 := by simp only [inSpace, decide_eq_true_eq]

theorem fits_eq_false (v : Word) (n : Nat) : fits v n = false ↔ 2 ^ n ≤ v.toNat := by
  simp only [fits, decide_eq_false_iff_not, not_lt]

theorem inSpace_eq_false (a n : Nat) : inSpace a n = false ↔ 2 ^ 64 < a + n := by
  simp only [inSpace, decide_eq_false_iff_not, not_le]

theorem word_toNat (v : Nat) : (word v).toNat = v % 2 ^ 64 := by simp only [word, BitVec.toNat_ofNat]

theorem word_toNat_of_lt {v : Nat} (h : v < 2 ^ 64) : (word v).toNat = v := by
  rw [word_toNat, Nat.mod_eq_of_lt h]

/-! ## Answers -/

/-- A command turned away answers one next state: the response alone (R214). -/
theorem complete_reject_next {s t : State} {st : Status} (h : (reject s st).complete = .next t) : t = s.respond st {} := by
  cases h; rfl

/-- A command without accesses answers one next state: the response with the results. -/
theorem complete_done_next {s t : State} {r : Results} (h : (done s r).complete = .next t) : t = s.respond .ok r := by
  cases h; rfl

/-- The last action of a state that has just responded is the response. -/
@[simp] theorem respond_getLast (s : State) (st : Status) (r : Results) :
    (s.respond st r).trace.getLast? = some (.reply s.port ⟨st, r⟩) := by simp

/-! ## Cursors (R162 to R165) -/

/-- Everything `CUR.NEXT` and `CUR.NEXTM` can do: no live cursor, no data, or the view with the offset advanced. -/
theorem nextView_cases (m : Bool) (k : Slot) (v : ViewType) (s : State) :
    ((s.slot k).valid = false ∧ nextView m k v s = reject s .noCur) ∨
    ((s.slot k).valid = true ∧ (s.slot k).len.toNat < (s.slot k).off.toNat + viewSize v ∧
      nextView m k v s = reject s .noData) ∨
    ((s.slot k).valid = true ∧ (s.slot k).off.toNat + viewSize v ≤ (s.slot k).len.toNat ∧
      nextView m k v s = done (s.setSlot k { s.slot k with off := word ((s.slot k).off.toNat + viewSize v) })
        { r0 := (s.slot k).address, r1 := word (viewSize v), r2 := tagWord m }) := by
  unfold nextView
  rcases hv : (s.slot k).valid with _ | _
  · simp [hv]
  · by_cases h : (s.slot k).len.toNat < (s.slot k).off.toNat + viewSize v
    · simp [hv, h]
    · simp [hv, h, Nat.le_of_not_lt h]

/-- Everything `CUR.REM` and `CUR.REMM` can do: no live cursor, or the tail with the cursor consumed. -/
theorem takeRest_cases (m : Bool) (k : Slot) (s : State) :
    ((s.slot k).valid = false ∧ takeRest m k s = reject s .noCur) ∨
    ((s.slot k).valid = true ∧ takeRest m k s = done (s.setSlot k { s.slot k with valid := false })
        { r0 := (s.slot k).address, r1 := word ((s.slot k).len.toNat - (s.slot k).off.toNat), r2 := tagWord m }) := by
  unfold takeRest
  rcases hv : (s.slot k).valid with _ | _ <;> simp [hv]

/-! ## The allocator (R181, R182) -/

/-- Everything `DMA.ALLOC` and `DMA.ALLOCB` can do: refuse with `ST_NOMEM`, or take the range at the watermark. -/
theorem allocPages_cases (pages : Word) (s : State) :
    ((2 ^ 64 ≤ pages.toNat * 4096 ∨ s.cfg.dmaLimit < s.wm.toNat + pages.toNat * 4096) ∧
      allocPages pages s = reject s .noMem) ∨
    (pages.toNat * 4096 < 2 ^ 64 ∧ s.wm.toNat + pages.toNat * 4096 ≤ s.cfg.dmaLimit ∧
      allocPages pages s = done (s.setWm (s.wm.toNat + pages.toNat * 4096))
        { r0 := word s.wm.toNat, r1 := word (pages.toNat * 4096) }) := by
  unfold allocPages
  by_cases h : 2 ^ 64 ≤ pages.toNat * 4096 ∨ s.cfg.dmaLimit < s.wm.toNat + pages.toNat * 4096
  · exact .inl ⟨h, if_pos h⟩
  · exact .inr ⟨by omega, by omega, if_neg h⟩

/-! ## The register window (R187 to R190) -/

/-- Everything `IO.R8` and `IO.R32` can do, run to the response. -/
theorem ioRead_cases (w : IoWidth) (base off : Word) (s : State) :
    (2 ^ 64 < base.toNat + off.toNat + w.bytes ∧ (ioRead w base off s).complete = .next (s.respond .badArg {})) ∨
    (base.toNat + off.toNat + w.bytes ≤ 2 ^ 64 ∧ (base.toNat + off.toNat) % w.bytes ≠ 0 ∧
      (ioRead w base off s).complete = .refused .misalignedRegisterAccess) ∨
    (base.toNat + off.toNat + w.bytes ≤ 2 ^ 64 ∧ (base.toNat + off.toNat) % w.bytes = 0 ∧
      reachesRange s.cfg (base.toNat + off.toNat) w.bytes = false ∧
      (ioRead w base off s).complete = .fault .unbackedAccess) ∨
    (base.toNat + off.toNat + w.bytes ≤ 2 ^ 64 ∧ (base.toNat + off.toNat) % w.bytes = 0 ∧
      reachesRange s.cfg (base.toNat + off.toNat) w.bytes = true ∧
      (ioRead w base off s).complete = .next ((s.afterIoRead (base.toNat + off.toNat) w).respond .ok
        { r0 := word (le (s.ioBytes (base.toNat + off.toNat) 0 w.bytes)) })) := by
  rcases h1 : inSpace (base.toNat + off.toNat) w.bytes with _ | _
  · exact .inl ⟨(inSpace_eq_false _ _).1 h1, by simp [ioRead, h1]⟩
  · have hc : (ioRead w base off s).complete = (Job.ioRead (base.toNat + off.toNat) w).finish s := by
      simp [ioRead, h1, Started.complete]
    rw [hc, Job.finish_ioRead]
    refine .inr ?_
    have h1' := (inSpace_iff _ _).1 h1
    by_cases h2 : (base.toNat + off.toNat) % w.bytes = 0
    · rcases h3 : reachesRange s.cfg (base.toNat + off.toNat) w.bytes with _ | _
      · exact .inr (.inl ⟨h1', h2, rfl, by simp [h2]⟩)
      · exact .inr (.inr ⟨h1', h2, rfl, by simp [h2]⟩)
    · exact .inl ⟨h1', h2, if_neg h2⟩

/-- Everything `IO.W8` and `IO.W32` can do, run to the response. -/
theorem ioWrite_cases (w : IoWidth) (base off value : Word) (s : State) :
    ((2 ^ (8 * w.bytes) ≤ value.toNat ∨ 2 ^ 64 < base.toNat + off.toNat + w.bytes) ∧
      (ioWrite w base off value s).complete = .next (s.respond .badArg {})) ∨
    (value.toNat < 2 ^ (8 * w.bytes) ∧ base.toNat + off.toNat + w.bytes ≤ 2 ^ 64 ∧
      (base.toNat + off.toNat) % w.bytes ≠ 0 ∧
      (ioWrite w base off value s).complete = .refused .misalignedRegisterAccess) ∨
    (value.toNat < 2 ^ (8 * w.bytes) ∧ base.toNat + off.toNat + w.bytes ≤ 2 ^ 64 ∧
      (base.toNat + off.toNat) % w.bytes = 0 ∧ reachesRange s.cfg (base.toNat + off.toNat) w.bytes = false ∧
      (ioWrite w base off value s).complete = .fault .unbackedAccess) ∨
    (value.toNat < 2 ^ (8 * w.bytes) ∧ base.toNat + off.toNat + w.bytes ≤ 2 ^ 64 ∧
      (base.toNat + off.toNat) % w.bytes = 0 ∧ reachesRange s.cfg (base.toNat + off.toNat) w.bytes = true ∧
      (ioWrite w base off value s).complete =
        .next ((s.afterIoWrite (base.toNat + off.toNat) (bytesLe value.toNat w.bytes)).respond .ok {})) := by
  rcases h0 : fits value (8 * w.bytes) with _ | _
  · exact .inl ⟨.inl ((fits_eq_false _ _).1 h0), by simp [ioWrite, h0]⟩
  have h0' := (fits_iff _ _).1 h0
  rcases h1 : inSpace (base.toNat + off.toNat) w.bytes with _ | _
  · exact .inl ⟨.inr ((inSpace_eq_false _ _).1 h1), by simp [ioWrite, h1]⟩
  · have hc : (ioWrite w base off value s).complete = (Job.ioWrite (base.toNat + off.toNat) w value.toNat).finish s := by
      simp [ioWrite, h0, h1, Started.complete]
    rw [hc, Job.finish_ioWrite]
    refine .inr ?_
    have h1' := (inSpace_iff _ _).1 h1
    by_cases h2 : (base.toNat + off.toNat) % w.bytes = 0
    · rcases h3 : reachesRange s.cfg (base.toNat + off.toNat) w.bytes with _ | _
      · exact .inr (.inl ⟨h0', h1', h2, rfl, by simp [h2]⟩)
      · exact .inr (.inr ⟨h0', h1', h2, rfl, by simp [h2]⟩)
    · exact .inl ⟨h0', h1', h2, if_neg h2⟩

/-! ## Header fields (R117, R118) and the checksum (R142) -/

/-- Everything `FGET` of a field of the header type can do, run to the response. -/
theorem execFget_cases (t : HdrType) (f : Field) (addr : Word) (s : State) (l : FieldLayout) (hl : layout t f = some l) :
    (2 ^ 64 < addr.toNat + l.off + l.width ∧ execFget t f addr s = .next (s.respond .badArg {})) ∨
    (addr.toNat + l.off + l.width ≤ 2 ^ 64 ∧ backsRange s.cfg (addr.toNat + l.off) l.width = false ∧
      execFget t f addr s = .fault .unbackedAccess) ∨
    (addr.toNat + l.off + l.width ≤ 2 ^ 64 ∧ backsRange s.cfg (addr.toNat + l.off) l.width = true ∧
      execFget t f addr s = .next ((s.afterRead (addr.toNat + l.off) l.width).respond .ok
        { r0 := word (getField l (s.bytesAt (addr.toNat + l.off) l.width)) })) := by
  rcases h1 : inSpace (addr.toNat + l.off) l.width with _ | _
  · exact .inl ⟨(inSpace_eq_false _ _).1 h1, by simp [execFget, startFget, hl, h1]⟩
  · have hc : execFget t f addr s = (Job.reads (addr.toNat + l.off) l.width [] (.field l)).finish s := by
      simp [execFget, startFget, hl, h1, Started.complete]
    rw [hc, Job.finish_reads]
    have h1' := (inSpace_iff _ _).1 h1
    rcases h2 : backsRange s.cfg (addr.toNat + l.off) l.width with _ | _
    · exact .inr (.inl ⟨h1', rfl, rfl⟩)
    · exact .inr (.inr ⟨h1', rfl, rfl⟩)

/-- A sub-byte field is one byte wide. -/
theorem layout_width_subByte {t : HdrType} {f : Field} {l : FieldLayout} (hl : layout t f = some l) (h : l.subByte = true) :
    l.width = 1 := by
  revert l; cases t <;> cases f <;> simp [layout, FieldLayout.subByte]

/-- The bytes of a whole field are as many as the field is wide. -/
theorem layout_putField_length {t : HdrType} {f : Field} {l : FieldLayout} (hl : layout t f = some l) (b : Byte) (v : Nat) :
    (putField l b v).length = l.width := by
  revert l; cases t <;> cases f <;> simp [layout, putField]

/-- The state after a field's write: a sub-byte field reads its byte before it writes it (R46, R114). -/
def State.afterPut (s : State) (l : FieldLayout) (a v : Nat) : State :=
  if l.subByte then (s.afterRead a 1).afterWrite a (putField l (s.byteAt a) v) else s.afterWrite a (putField l 0 v)

/-- Everything `FPUT` of a field of the header type can do, run to the response. -/
theorem execFput_cases (t : HdrType) (f : Field) (addr v : Word) (s : State) (l : FieldLayout)
    (hl : layout t f = some l) :
    ((2 ^ l.valueBits ≤ v.toNat ∨ 2 ^ 64 < addr.toNat + l.off + l.width) ∧
      execFput t f addr v s = .next (s.respond .badArg {})) ∨
    (v.toNat < 2 ^ l.valueBits ∧ addr.toNat + l.off + l.width ≤ 2 ^ 64 ∧
      backsRange s.cfg (addr.toNat + l.off) l.width = false ∧ execFput t f addr v s = .fault .unbackedAccess) ∨
    (v.toNat < 2 ^ l.valueBits ∧ addr.toNat + l.off + l.width ≤ 2 ^ 64 ∧
      backsRange s.cfg (addr.toNat + l.off) l.width = true ∧
      execFput t f addr v s = .next ((s.afterPut l (addr.toNat + l.off) v.toNat).respond .ok {})) := by
  rcases h0 : fits v l.valueBits with _ | _
  · exact .inl ⟨.inl ((fits_eq_false _ _).1 h0), by simp [execFput, startFput, hl, h0]⟩
  have h0' := (fits_iff _ _).1 h0
  rcases h1 : inSpace (addr.toNat + l.off) l.width with _ | _
  · exact .inl ⟨.inr ((inSpace_eq_false _ _).1 h1), by simp [execFput, startFput, hl, h1]⟩
  · have hc : execFput t f addr v s = if backsRange s.cfg (addr.toNat + l.off) l.width then
        .next ((s.afterPut l (addr.toNat + l.off) v.toNat).respond .ok {}) else .fault .unbackedAccess := by
      rcases h3 : l.subByte with _ | _
      · simp [execFput, startFput, hl, h0, h1, h3, Started.complete, Job.finish_writes, layout_putField_length hl,
          State.afterPut]
      · have hw := layout_width_subByte hl h3
        have h1' : inSpace (addr.toNat + l.off) 1 = true := hw ▸ h1
        simp [execFput, startFput, hl, h0, h1', h3, Started.complete, Job.finish_patch h3, hw, State.afterPut, backsRange]
    have h1' := (inSpace_iff _ _).1 h1
    rw [hc]
    rcases h2 : backsRange s.cfg (addr.toNat + l.off) l.width with _ | _
    · exact .inr (.inl ⟨h0', h1', rfl, rfl⟩)
    · exact .inr (.inr ⟨h0', h1', rfl, rfl⟩)

/-- Everything `CSUM` can do, run to the response. -/
theorem execCsum_cases (addr len seed : Word) (s : State) :
    ((2 ^ 32 ≤ seed.toNat ∨ 2 ^ 64 < addr.toNat + len.toNat) ∧
      execCsum addr len seed s = .next (s.respond .badArg {})) ∨
    (seed.toNat < 2 ^ 32 ∧ addr.toNat + len.toNat ≤ 2 ^ 64 ∧ backsRange s.cfg addr.toNat len.toNat = false ∧
      execCsum addr len seed s = .fault .unbackedAccess) ∨
    (seed.toNat < 2 ^ 32 ∧ addr.toNat + len.toNat ≤ 2 ^ 64 ∧ backsRange s.cfg addr.toNat len.toNat = true ∧
      execCsum addr len seed s = .next ((s.afterRead addr.toNat len.toNat).respond .ok
        { r0 := (csum (s.bytesAt addr.toNat len.toNat) (seed.setWidth 32)).setWidth 64 })) := by
  rcases h0 : fits seed 32 with _ | _
  · exact .inl ⟨.inl ((fits_eq_false _ _).1 h0), by simp [execCsum, startCsum, h0]⟩
  have h0' := (fits_iff _ _).1 h0
  rcases h1 : inSpace addr.toNat len.toNat with _ | _
  · exact .inl ⟨.inr ((inSpace_eq_false _ _).1 h1), by simp [execCsum, startCsum, h1]⟩
  · have hc : execCsum addr len seed s =
        (Job.reads addr.toNat len.toNat [] (.checksum (seed.setWidth 32))).finish s := by
      simp [execCsum, startCsum, h0, h1, Started.complete]
    rw [hc, Job.finish_reads]
    have h1' := (inSpace_iff _ _).1 h1
    rcases h2 : backsRange s.cfg addr.toNat len.toNat with _ | _
    · exact .inr (.inl ⟨h0', h1', rfl, rfl⟩)
    · exact .inr (.inr ⟨h0', h1', rfl, rfl⟩)

/-! ## The start of a command -/

/-- What the start of a command can change: `WM` and `CUR` alone. -/
theorem start_state (i : Instr) (s : State) :
    (start i s).state = { s with wm := (start i s).state.wm, cur := (start i s).state.cur } := by
  cases i with
  | fget t f addr => simp only [start, startFget]; split <;> [rfl; (split <;> rfl)]
  | fput t f addr v => simp only [start, startFput]; split <;> [rfl; (split <;> rfl)]
  | hdrSize t => rfl
  | clsRtype v => simp only [start, startClsRtype]; split <;> rfl
  | clsProto v => simp only [start, startClsProto]; split <;> rfl
  | tfUnion a b => simp only [start, startTfUnion]; split <;> rfl
  | tfInter a b => simp only [start, startTfInter]; split <;> rfl
  | tfContains a b => simp only [start, startTfContains]; split <;> rfl
  | tfDec b => simp only [start, startTfDec]; split <;> rfl
  | csum addr len seed => simp only [start, startCsum]; split <;> rfl
  | curOpen k base len => simp only [start, startCurOpen]; split <;> rfl
  | curNext k v => simp only [start, startCurNext]; rcases nextView_cases false k v s with h | h | h <;> simp only [h] <;> rfl
  | curNextm k v => simp only [start, startCurNextm]; rcases nextView_cases true k v s with h | h | h <;> simp only [h] <;> rfl
  | curRem k => simp only [start, startCurRem]; rcases takeRest_cases false k s with h | h <;> simp only [h] <;> rfl
  | curRemm k => simp only [start, startCurRemm]; rcases takeRest_cases true k s with h | h <;> simp only [h] <;> rfl
  | dmaAlloc p => simp only [start, startDmaAlloc]; rcases allocPages_cases p s with h | h <;> simp only [h] <;> rfl
  | dmaAllocb p => simp only [start, startDmaAllocb]; rcases allocPages_cases p s with h | h <;> simp only [h] <;> rfl
  | toPaddr v => rfl
  | qLayout base len d a u => simp only [start, startQLayout]; split <;> rfl
  | ioR8 b l o => simp only [start, startIoR8, ioRead]; split <;> rfl
  | ioR32 b l o => simp only [start, startIoR32, ioRead]; split <;> rfl
  | ioW8 b l o v => simp only [start, startIoW8, ioWrite]; split <;> rfl
  | ioW32 b l o v => simp only [start, startIoW32, ioWrite]; split <;> rfl
  | ioPaddr b l => rfl
  | ioVaddr b l => rfl

/-- What a command that runs to its response can change. -/
theorem exec_frame {i : Instr} {s t : State} (h : exec i s = .next t) :
    t = { s with wm := t.wm, cur := t.cur, mem := t.mem, draws := t.draws, trace := t.trace } := by
  rw [exec_eq_complete] at h
  have e := Job.finish_frame h
  rw [start_state] at e
  rw [e]

/-! ## The input -/

/-- Everything a turn of a port can do: nothing where the port is free, or one turn of its command. -/
theorem takeTurn_cases {s u : State} {port : Nat} (h : s.takeTurn port = .next u) :
    (s.jobOf port = none ∧ u = s) ∨
    ∃ j j' t, s.jobOf port = some j ∧ j.turn { s with port := port } = .next (t, j') ∧
      u = { t with flights := putJob t.flights port j' } := by
  unfold State.takeTurn at h
  split at h
  · rename_i hj; cases h; exact .inl ⟨hj, rfl⟩
  · rename_i j hj
    split at h
    · rename_i t j' ht; cases h; exact .inr ⟨j, j', t, hj, ht, rfl⟩
    · cases h
    · cases h

/-- Everything a command that comes on a port can meet: it goes, or it waits for the port's command in progress. -/
theorem accept_cases {s u : State} {port : Nat} {go : Result} (h : s.accept port go = .next u) :
    port < s.cfg.nport ∧
      ((s.jobOf port = none ∧ go = .next u) ∨ ((∃ j, s.jobOf port = some j) ∧ s.takeTurn port = .next u)) := by
  unfold State.accept at h
  split at h
  · rename_i hp
    split at h
    · rename_i hj; exact ⟨hp, .inl ⟨hj, h⟩⟩
    · rename_i j hj; exact ⟨hp, .inr ⟨⟨j, hj⟩, h⟩⟩
  · cases h

/-- Everything a step can do, by the event at the head of the input. -/
theorem step_cases {s u : State} (h : step s = .next u) :
    (s.input = [] ∧ s.flights = [] ∧ u = s) ∨
    (∃ port s', (s' = s ∨ ∃ rest, s.input = .turn port :: rest ∧ s' = { s with input := rest }) ∧
      s'.takeTurn port = .next u) ∨
    (∃ port p rest, s.input = .command port p :: rest ∧ port < s.cfg.nport ∧ s.jobOf port = none ∧
      runPacket p (s.serving port rest) = .next u) ∨
    (∃ port p rest, s.input = .start port p :: rest ∧ port < s.cfg.nport ∧ s.jobOf port = none ∧
      u = (startPacket p (s.serving port rest)).launch port) ∨
    (∃ a b rest, s.input = .envStore a b :: rest ∧ u = State.envStore { s with input := rest } a b) ∨
    (∃ rest, s.input = .reset :: rest ∧ u = State.applyReset { s with input := rest }) := by
  unfold step takeEvent at h
  split at h
  · rename_i hi
    split at h
    · rename_i hf; cases h; exact .inl ⟨hi, hf, rfl⟩
    · rename_i f fs hf; exact .inr (.inl ⟨f.port, s, .inl rfl, h⟩)
  · rename_i port p rest hi
    obtain ⟨hp, ⟨hj, hg⟩ | ⟨-, ht⟩⟩ := accept_cases h
    · exact .inr (.inr (.inl ⟨port, p, rest, hi, hp, hj, hg⟩))
    · exact .inr (.inl ⟨port, s, .inl rfl, ht⟩)
  · rename_i port p rest hi
    obtain ⟨hp, ⟨hj, hg⟩ | ⟨-, ht⟩⟩ := accept_cases h
    · cases hg; exact .inr (.inr (.inr (.inl ⟨port, p, rest, hi, hp, hj, rfl⟩)))
    · exact .inr (.inl ⟨port, s, .inl rfl, ht⟩)
  · rename_i port rest hi; exact .inr (.inl ⟨port, _, .inr ⟨rest, hi, rfl⟩, h⟩)
  · rename_i a b rest hi; cases h; exact .inr (.inr (.inr (.inr (.inl ⟨a, b, rest, hi, rfl⟩))))
  · rename_i rest hi; cases h; exact .inr (.inr (.inr (.inr (.inr ⟨rest, hi, rfl⟩))))

end Sys2Proof.Machine
end

