-- ==== Sys2Proof/Laws/PerInstr.lean ====
section
/-! SUPPORT. The family `EncodedWord`, one lemma per instruction: the command word of a well-formed instruction has the
fixed bits of its row of the opcode table (spec/30_encoding.md R84). -/

namespace Sys2Proof.Laws.EncodedWord

open Sys2Proof

/-- The command word of `i` has its row's fixed bits. -/
def Statement (i : Instr) : Prop := i.wf = true → (encode i).cw &&& i.opcode.mask = i.opcode.pattern

theorem fget (t : HdrType) (f : Field) (addr : Word) : Statement (.fget t f addr) := by
  intro h
  change t.hasField f = true at h
  change commandWord 0x10 t.sel 0 (t.fieldSel f) &&& Opcode.fget.mask = Opcode.fget.pattern
  revert h; cases t <;> cases f <;> decide
theorem fput (t : HdrType) (f : Field) (addr v : Word) : Statement (.fput t f addr v) := by
  intro h
  change t.hasField f = true at h
  change commandWord 0x11 t.sel 0 (t.fieldSel f) &&& Opcode.fput.mask = Opcode.fput.pattern
  revert h; cases t <;> cases f <;> decide
theorem hdrSize (t : HdrType) : Statement (.hdrSize t) := fun _ => by cases t <;> rfl
theorem clsRtype (v : Word) : Statement (.clsRtype v) := by
  intro _
  change 0x00000013#32 &&& Opcode.clsRtype.mask = Opcode.clsRtype.pattern; decide
theorem clsProto (v : Word) : Statement (.clsProto v) := by
  intro _
  change 0x00000014#32 &&& Opcode.clsProto.mask = Opcode.clsProto.pattern; decide
theorem tfUnion (a b : Word) : Statement (.tfUnion a b) := by
  intro _
  change 0x00000018#32 &&& Opcode.tfUnion.mask = Opcode.tfUnion.pattern; decide
theorem tfInter (a b : Word) : Statement (.tfInter a b) := by
  intro _
  change 0x00000019#32 &&& Opcode.tfInter.mask = Opcode.tfInter.pattern; decide
theorem tfContains (a b : Word) : Statement (.tfContains a b) := by
  intro _
  change 0x0000001A#32 &&& Opcode.tfContains.mask = Opcode.tfContains.pattern; decide
theorem tfDec (b : Word) : Statement (.tfDec b) := by
  intro _
  change 0x0000001B#32 &&& Opcode.tfDec.mask = Opcode.tfDec.pattern; decide
theorem csum (addr len seed : Word) : Statement (.csum addr len seed) := by
  intro _
  change 0x00000020#32 &&& Opcode.csum.mask = Opcode.csum.pattern; decide
theorem curOpen (k : Slot) (base len : Word) : Statement (.curOpen k base len) := by
  intro h; clear h
  change commandWord 0x30 0 (slotSel k) 0 &&& Opcode.curOpen.mask = Opcode.curOpen.pattern
  revert k; decide
theorem curNext (k : Slot) (v : ViewType) : Statement (.curNext k v) := by
  intro h; clear h
  change commandWord 0x31 v.sel (slotSel k) 0 &&& Opcode.curNext.mask = Opcode.curNext.pattern
  generalize v.sel = t; clear v; revert k t; decide
theorem curNextm (k : Slot) (v : ViewType) : Statement (.curNextm k v) := by
  intro h; clear h
  change commandWord 0x32 v.sel (slotSel k) 0 &&& Opcode.curNextm.mask = Opcode.curNextm.pattern
  generalize v.sel = t; clear v; revert k t; decide
theorem curRem (k : Slot) : Statement (.curRem k) := by
  intro h; clear h
  change commandWord 0x33 0 (slotSel k) 0 &&& Opcode.curRem.mask = Opcode.curRem.pattern
  revert k; decide
theorem curRemm (k : Slot) : Statement (.curRemm k) := by
  intro h; clear h
  change commandWord 0x34 0 (slotSel k) 0 &&& Opcode.curRemm.mask = Opcode.curRemm.pattern
  revert k; decide
theorem dmaAlloc (pages : Word) : Statement (.dmaAlloc pages) := by
  intro _
  change 0x00000040#32 &&& Opcode.dmaAlloc.mask = Opcode.dmaAlloc.pattern; decide
theorem dmaAllocb (pages : Word) : Statement (.dmaAllocb pages) := by
  intro _
  change 0x00000041#32 &&& Opcode.dmaAllocb.mask = Opcode.dmaAllocb.pattern; decide
theorem toPaddr (vaddr : Word) : Statement (.toPaddr vaddr) := by
  intro _
  change 0x00000042#32 &&& Opcode.toPaddr.mask = Opcode.toPaddr.pattern; decide
theorem qLayout (base len d a u : Word) : Statement (.qLayout base len d a u) := by
  intro _
  change 0x00000043#32 &&& Opcode.qLayout.mask = Opcode.qLayout.pattern; decide
theorem ioR8 (base len off : Word) : Statement (.ioR8 base len off) := by
  intro _
  change 0x00000048#32 &&& Opcode.ioR8.mask = Opcode.ioR8.pattern; decide
theorem ioR32 (base len off : Word) : Statement (.ioR32 base len off) := by
  intro _
  change 0x00000049#32 &&& Opcode.ioR32.mask = Opcode.ioR32.pattern; decide
theorem ioW8 (base len off value : Word) : Statement (.ioW8 base len off value) := by
  intro _
  change 0x0000004A#32 &&& Opcode.ioW8.mask = Opcode.ioW8.pattern; decide
theorem ioW32 (base len off value : Word) : Statement (.ioW32 base len off value) := by
  intro _
  change 0x0000004B#32 &&& Opcode.ioW32.mask = Opcode.ioW32.pattern; decide
theorem ioPaddr (base len : Word) : Statement (.ioPaddr base len) := by
  intro _
  change 0x0000004C#32 &&& Opcode.ioPaddr.mask = Opcode.ioPaddr.pattern; decide
theorem ioVaddr (base len : Word) : Statement (.ioVaddr base len) := by
  intro _
  change 0x0000004D#32 &&& Opcode.ioVaddr.mask = Opcode.ioVaddr.pattern; decide

end Sys2Proof.Laws.EncodedWord
end

