-- ==== Sys2Proof/Tests/Slice0.lean ====
section
/-! SUPPORT. The model's own tests: well-formedness, decoding of words written out from the spec, one step of every
command (expected results from spec/95_test_vectors.md V1 to V17, P3, P5, and the examples of the command rules), and, for
every statement that has hypotheses, a theorem `test_hyps_…` that shows a state and operands meeting them. -/

namespace Sys2Proof.Tests

open Sys2Proof Sys2Proof.Machine

/-! ## Helpers -/

/-- The reset state with bytes in memory from `a` on. -/
def withBytes (a : Nat) (bs : List Byte) : State := { State.reset with mem := Memory.storeBytes [] a bs }

/-- The reset state with a live cursor in slot 0. -/
def withCursor (base len off : Word) : State := State.reset.setSlot 0 ⟨true, base, len, off⟩

/-- The state after one step that serves the packet. -/
def after (s : State) (p : Packet) : Option State :=
  match step (s.presenting p) with
  | .next t => some t
  | .fault _ => none
  | .refused _ => none

/-- The response to one packet. -/
def answer (s : State) (p : Packet) : Option Response :=
  match (after s p).bind fun t => t.trace.getLast? with
  | some (.reply _ r) => some r
  | _ => none

/-- The state an outcome answers; the state after reset where it answers none. -/
def nextOf : Result → State
  | .next t => t
  | .fault _ => State.reset
  | .refused _ => State.reset

/-- The outcome is a next state. -/
def goesOn : Result → Bool
  | .next _ => true
  | .fault _ => false
  | .refused _ => false

theorem eq_next_nextOf (o : Result) (h : goesOn o = true) : o = .next (nextOf o) := by
  cases o <;> simp_all [goesOn, nextOf]

/-- The V3 header, its checksum field zero. -/
def v3 : List Byte :=
  [0x45, 0x00, 0x00, 0x3C, 0x1C, 0x46, 0x40, 0x00, 0x40, 0x06, 0x00, 0x00, 0xAC, 0x10, 0x0A, 0x63, 0xAC, 0x10, 0x0A, 0x0C]

/-- `ST_OK` with one result. -/
def ok1 (r0 : Word) : Option Response := some ⟨.ok, { r0 := r0 }⟩

/-- `ST_OK` without results. -/
def okNone : Option Response := some ⟨.ok, {}⟩

/-- A status without results. -/
def bare (st : Status) : Option Response := some ⟨st, {}⟩

/-! ## Well-formedness: each check refuses an ill-formed term -/

theorem test_wf_refuses_fget_of_a_foreign_field : (Instr.fget .eth .ttl 0).wf = false := by decide
theorem test_wf_refuses_fput_of_a_foreign_field : (Instr.fput .udp .win 0 0).wf = false := by decide
theorem test_wf_accepts_a_sub_byte_field : (Instr.fget .ip .ihl 0).wf = true := by decide
theorem test_ill_formed_fget_answers_illegal :
    exec (.fget .eth .ttl 0) State.reset = .next (State.reset.respond .illegal {}) := rfl

/-! ## Decoding: one written-out word for every command (R72, R75; the encodings of V1 to V16) -/

theorem test_decode_fget : decode { cw := 0x00080210, a0 := 0x1000 } = .ok (.fget .ip .src 0x1000) := by decide
theorem test_decode_fput : decode { cw := 0x00060111, a0 := 0x2101, a1 := 0xC0A80001 } =
    .ok (.fput .arp .spa 0x2101 0xC0A80001) := by decide
theorem test_decode_hdr_size : decode { cw := 0x00000512 } = .ok (.hdrSize .icmp) := by decide
theorem test_decode_cls_rtype : decode { cw := 0x00000013, a0 := 0x800 } = .ok (.clsRtype 0x800) := by decide
theorem test_decode_cls_proto : decode { cw := 0x00000014, a0 := 17 } = .ok (.clsProto 17) := by decide
theorem test_decode_tf_union : decode { cw := 0x00000018, a0 := 2, a1 := 0x10 } = .ok (.tfUnion 2 0x10) := by decide
theorem test_decode_tf_inter : decode { cw := 0x00000019, a0 := 0x12, a1 := 5 } = .ok (.tfInter 0x12 5) := by decide
theorem test_decode_tf_contains : decode { cw := 0x0000001A, a0 := 0x12, a1 := 2 } = .ok (.tfContains 0x12 2) := by decide
theorem test_decode_tf_dec : decode { cw := 0x0000001B, a0 := 0xD2 } = .ok (.tfDec 0xD2) := by decide
theorem test_decode_csum : decode { cw := 0x00000020, a0 := 0x100C, a1 := 8, a2 := 0xE188 } =
    .ok (.csum 0x100C 8 0xE188) := by decide
theorem test_decode_cur_open : decode { cw := 0x00003030, a0 := 0x3000, a1 := 42 } = .ok (.curOpen 3 0x3000 42) := by decide
theorem test_decode_cur_next : decode { cw := 0x00002331 } = .ok (.curNext 2 (.hdr .udp)) := by decide
theorem test_decode_cur_next_raw : decode { cw := 0x00000F31, a0 := 5 } = .ok (.curNext 0 (.raw 5)) := by decide
theorem test_decode_cur_nextm : decode { cw := 0x00000232 } = .ok (.curNextm 0 (.hdr .ip)) := by decide
theorem test_decode_cur_rem : decode { cw := 0x00001033 } = .ok (.curRem 1) := by decide
theorem test_decode_cur_remm : decode { cw := 0x00003034 } = .ok (.curRemm 3) := by decide
theorem test_decode_dma_alloc : decode { cw := 0x00000040, a0 := 3 } = .ok (.dmaAlloc 3) := by decide
theorem test_decode_dma_allocb : decode { cw := 0x00000041, a0 := 2 } = .ok (.dmaAllocb 2) := by decide
theorem test_decode_to_paddr : decode { cw := 0x00000042, a0 := 5 } = .ok (.toPaddr 5) := by decide
theorem test_decode_q_layout : decode { cw := 0x00000043, a0 := 0x1234, a1 := 0x999, a2 := 0x11, a3 := 0x222, a4 := 0x333 } =
    .ok (.qLayout 0x1234 0x999 0x11 0x222 0x333) := by decide
theorem test_decode_io_r8 : decode { cw := 0x00000048, a0 := 0x9000, a1 := 0x10, a2 := 3 } = .ok (.ioR8 0x9000 0x10 3) := by decide
theorem test_decode_io_r32 : decode { cw := 0x00000049, a0 := 0x9000, a1 := 0x10, a2 := 4 } = .ok (.ioR32 0x9000 0x10 4) := by decide
theorem test_decode_io_w8 : decode { cw := 0x0000004A, a0 := 0x9000, a1 := 0x10, a2 := 7, a3 := 0xEE } =
    .ok (.ioW8 0x9000 0x10 7 0xEE) := by decide
theorem test_decode_io_w32 : decode { cw := 0x0000004B, a0 := 0x9000, a1 := 0x10, a2 := 4, a3 := 0xA1B2C3D4 } =
    .ok (.ioW32 0x9000 0x10 4 0xA1B2C3D4) := by decide
theorem test_decode_io_paddr : decode { cw := 0x0000004C, a0 := 0x9000, a1 := 0x10 } = .ok (.ioPaddr 0x9000 0x10) := by decide
theorem test_decode_io_vaddr : decode { cw := 0x0000004D, a0 := 0x9000, a1 := 0x10 } = .ok (.ioVaddr 0x9000 0x10) := by decide

/-- CSUM0 is the packet of CSUM with seed 0 (R86). -/
theorem test_csum0_encodes_as_csum : encode (Instr.csum0 0x1000 20) = { cw := 0x00000020, a0 := 0x1000, a1 := 20 } := by decide

/-- The rejections by name, one or more rows of V17 for each step of R80. -/
theorem test_decode_rejects_reserved_bits : decode { cw := 0x01000012 } = .error .reservedBits := by decide
theorem test_decode_rejects_unknown_opcodes :
    ([0x00, 0x15, 0x1C, 0x21, 0x35, 0x44, 0x4E, 0xFF] : List (BitVec 32)).all
      (fun w => decode { cw := w } == .error .unknownOpcode) = true := by decide
theorem test_decode_rejects_unused_fields :
    ([0x00001012, 0x00010012, 0x00002010, 0x00000113, 0x00000220, 0x00000130, 0x00010032, 0x00000F33, 0x00001042] :
      List (BitVec 32)).all (fun w => decode { cw := w } == .error .unusedField) = true := by decide
theorem test_decode_rejects_selectors :
    ([0x00000612, 0x00000F12, 0x00030010, 0x000A0210, 0x00120210, 0x00100010, 0x00040310, 0x00090410, 0x00050510,
      0x00090110, 0x00000F10, 0x00004030, 0x0000F030, 0x00000731, 0x00005031] :
      List (BitVec 32)).all (fun w => decode { cw := w } == .error .badSelector) = true := by decide
theorem test_decode_rejects_unused_operands :
    ([{ cw := 0x00000012, a0 := 1 }, { cw := 0x00000010, a0 := 0x1000, a1 := 1 }, { cw := 0x00000011, a0 := 0x1000, a2 := 1 },
      { cw := 0x00000018, a0 := 1, a1 := 2, a2 := 1 }, { cw := 0x00000020, a0 := 0x1000, a1 := 0x14, a3 := 1 },
      { cw := 0x00000031, a0 := 14 }, { cw := 0x00000F31, a0 := 4, a1 := 1 }, { cw := 0x00000034, a0 := 1 },
      { cw := 0x00000040, a0 := 1, a1 := 1 }, { cw := 0x00000043, a0 := 0x1000, a1 := 0x1000, a3 := 1, a4 := 2, a5 := 1 },
      { cw := 0x00000048, a0 := 0x9000, a1 := 0x10, a3 := 1 }, { cw := 0x0000004B, a0 := 0x9000, a1 := 0x10, a4 := 1 },
      { cw := 0x0000004C, a0 := 0x9000, a1 := 0x10, a2 := 1 }] : List Packet).all
      (fun p => decode p == .error .unusedOperand) = true := by decide

/-- The mask and match words of spec/opcode_table.json for one row of each shape of R84. -/
theorem test_masks_of_the_opcode_table :
    Opcode.fget.mask = 0xFF00F0FF ∧ Opcode.hdrSize.mask = 0xFFFFF0FF ∧ Opcode.csum.mask = 0xFFFFFFFF ∧
      Opcode.curOpen.mask = 0xFFFF0FFF ∧ Opcode.curNextm.mask = 0xFFFF00FF ∧ Opcode.ioVaddr.pattern = 0x0000004D := by decide

/-! ## Reset, memory, the input -/

theorem test_reset_watermark : State.reset.wm = 0x80200000 := by decide
theorem test_reset_slots : State.reset.cur.toList.all (fun c => !c.valid) = true := by decide
theorem test_store_keeps_order : Memory.store [(5, 1), (9, 2)] 7 3 = [(5, 1), (7, 3), (9, 2)] := by decide
theorem test_store_replaces : Memory.store [(5, 1), (9, 2)] 9 3 = [(5, 1), (9, 3)] := by decide
theorem test_wf_refuses_unsorted_memory : Memory.wf [(9, 2), (5, 1)] = false := by decide
theorem test_with_fetch_word_runs_the_command :
    (match step (State.reset.withFetchWord 96 (0x40 + 2 * 2 ^ 32)) with
      | .next t => some (t.wm, t.input, t.trace)
      | _ => none) = some (0x80202000, [], [.reply 0 ⟨.ok, { r0 := 0x80200000, r1 := 0x2000 }⟩]) := by decide
/-- Bits above `nbits` are dropped, and the last operand word is the topmost. -/
theorem test_packet_of_bits : Packet.ofBits 416 0x90000000000000000000000000000000000000000000000000000000000000000000000000000000700000043 = { cw := 0x43, a0 := 7, a5 := 9 } ∧
    Packet.ofBits 32 (0x43 + 7 * 2 ^ 32) = { cw := 0x43 } := ⟨rfl, rfl⟩
theorem test_decode_table_word : decodeTableWord 32 0x00080210 = some (.fget .ip .src 0) := by decide
theorem test_illegal_packet_answers_illegal : answer State.reset { cw := 0 } = bare .illegal := by decide
/-- P5, port 1 first: the ranges follow the order in which the ports are served. -/
theorem test_two_ports_share_the_watermark :
    (match Host.Core.run Sys2Proof.core 2 { State.reset with
        cfg := { Config.vectors with nport := 2 }
        input := [.command 1 { cw := 0x41, a0 := 2 }, .command 0 { cw := 0x40, a0 := 1 }] } with
      | .next t => some (t.wm, replies t.trace)
      | _ => none) =
    some (0x80203000, [(1, ⟨.ok, { r0 := 0x80200000, r1 := 0x2000 }⟩), (0, ⟨.ok, { r0 := 0x80202000, r1 := 0x1000 }⟩)]) := by
  decide

/-! ## Turns: what falls between the accesses of a command (R48, R53, R54, R233, R238) -/

/-- The state after some steps. -/
def steps : Nat → State → State
  | 0, s => s
  | n + 1, s => steps n (nextOf (step s))

/-- `FGET IP.len` over the bytes 11 22, with the environment storing AA BB between its two reads: the value mixes the two
moments. -/
theorem test_fget_reads_torn_bytes :
    (steps 6 { withBytes 0x1002 [0x11, 0x22] with
      input := [.start 0 { cw := 0x00020210, a0 := 0x1000 }, .turn 0, .envStore 0x1002 0xAA, .envStore 0x1003 0xBB,
        .turn 0, .turn 0] }).trace.getLast? = some (.reply 0 ⟨.ok, { r0 := 0x11BB }⟩) := by decide

/-- `FGET IP.len` of port 0 with an `FPUT IP.len` of port 1 between its two reads. -/
theorem test_two_ports_interleave_their_accesses :
    (steps 5 { withBytes 0x1002 [0x11, 0x22] with
      cfg := { Config.vectors with nport := 2 }
      input := [.start 0 { cw := 0x00020210, a0 := 0x1000 }, .turn 0,
        .command 1 { cw := 0x00020211, a0 := 0x1000, a1 := 0x3344 }, .turn 0, .turn 0] }).trace.getLast? =
      some (.reply 0 ⟨.ok, { r0 := 0x1144 }⟩) := by decide

/-- R233: `FPUT` of a 6-byte field, reset after 3 bytes: they stay stored, and no response comes. -/
theorem test_reset_abandons_a_store_half_done :
    let t := steps 6 { State.reset with
      input := [.start 0 { cw := 0x00000011, a0 := 0x2000, a1 := 0x525400123456 }, .turn 0, .turn 0, .turn 0, .reset, .turn 0] }
    t.mem = [(0x2000, 0x52), (0x2001, 0x54), (0x2002, 0x00)] ∧ t.flights = [] ∧ t.trace.length = 3 := by decide

/-- The environment's store between the read and the write of a sub-byte `FPUT` is overwritten. -/
theorem test_nibble_fput_writes_the_byte_it_read :
    (steps 4 { withBytes 0x1000 [0x45] with
      input := [.start 0 { cw := 0x00100211, a0 := 0x1000, a1 := 6 }, .turn 0, .envStore 0x1000 0xFF, .turn 0] }).byteAt 0x1000 =
      0x65 := by decide

/-- R52: the second command of a port waits until the first has sent its response. -/
theorem test_commands_of_a_port_are_served_in_order :
    (steps 3 { State.reset with input := [.start 0 { cw := 0x12 }, .command 0 { cw := 0x112 }] }).trace =
      [.reply 0 ⟨.ok, { r0 := 14 }⟩, .reply 0 ⟨.ok, { r0 := 28 }⟩] := by decide

/-- The codes of R211. -/
theorem test_status_codes : [Status.ok, .noData, .noMem, .badArg, .noCur, .illegal].map Status.code = [0, 1, 2, 3, 4, 5] := by decide

/-! ## One step of each command -/

/-- V3. -/
theorem test_fget_ip_src : answer (withBytes 0x1000 v3) { cw := 0x00080210, a0 := 0x1000 } = ok1 0xAC100A63 := by decide
/-- V10: the field must end in the address space. -/
theorem test_fget_past_the_top : answer State.reset { cw := 0x00090210, a0 := 0xFFFFFFFFFFFFFFED } = bare .badArg := by decide
/-- V10: an unaligned field, big-endian. -/
theorem test_fput_arp_spa : (after State.reset { cw := 0x00060111, a0 := 0x2101, a1 := 0xC0A80001 }).map State.mem =
    some [(0x210F, 0xC0), (0x2110, 0xA8), (0x2111, 0x00), (0x2112, 0x01)] := by decide
/-- V10: 0xAB becomes 0x4B, the low nibble kept. -/
theorem test_fput_ip_ver : (after (withBytes 0x2200 [0xAB]) { cw := 0x00100211, a0 := 0x2200, a1 := 4 }).map State.mem =
    some [(0x2200, 0x4B)] := by decide
/-- V10: bits 7:6 of TCP flags are written as zero. -/
theorem test_fput_tcp_flags : (after State.reset { cw := 0x00050411, a0 := 0x2300, a1 := 0xD2 }).map State.mem =
    some [(0x230D, 0x12)] := by decide
/-- V1. -/
theorem test_hdr_size_arp : answer State.reset { cw := 0x00000112 } = ok1 28 := by decide
/-- V9. -/
theorem test_cls_rtype_swapped_is_unknown : answer State.reset { cw := 0x00000013, a0 := 8 } = ok1 0xFF := by decide
theorem test_cls_rtype_wide : answer State.reset { cw := 0x00000013, a0 := 0x10000 } = bare .badArg := by decide
/-- V9. -/
theorem test_cls_proto_tcp : answer State.reset { cw := 0x00000014, a0 := 6 } = ok1 2 := by decide
theorem test_cls_proto_wide : answer State.reset { cw := 0x00000014, a0 := 0x100 } = bare .badArg := by decide
/-- V6. -/
theorem test_tf_union_drops_bits_7_6 : answer State.reset { cw := 0x00000018, a0 := 0xFF, a1 := 0xFF } = ok1 0x3F := by decide
theorem test_tf_union_wide : answer State.reset { cw := 0x00000018, a1 := 0x100 } = bare .badArg := by decide
/-- V11. -/
theorem test_tf_inter_of_bits_7_6 : answer State.reset { cw := 0x00000019, a0 := 0xFF, a1 := 0xC0 } = ok1 0 := by decide
theorem test_tf_contains_direction : answer State.reset { cw := 0x0000001A, a0 := 2, a1 := 0x12 } = ok1 0 := by decide
theorem test_tf_contains_ignores_bits_7_6 : answer State.reset { cw := 0x0000001A, a0 := 0x12, a1 := 0xC2 } = ok1 1 := by decide
theorem test_tf_dec : answer State.reset { cw := 0x0000001B, a0 := 0xD2 } = ok1 0x12 := by decide
/-- V3. -/
theorem test_csum_known_vector : answer (withBytes 0x1000 v3) { cw := 0x00000020, a0 := 0x1000, a1 := 20 } = ok1 0xB1E6 := by
  decide
/-- V12: seeding with a partial sum. -/
theorem test_csum_seeded : answer (withBytes 0x1000 v3) { cw := 0x00000020, a0 := 0x100C, a1 := 8, a2 := 0xE188 } = ok1 0xB1E6 := by
  decide
/-- V12: odd length, a wrapped first addition, and the fold values. -/
theorem test_csum_function_values :
    csum [0x01, 0x02, 0x03] 0 = 0xFBFD ∧ csum [0xFF] 0xFF01 = 0x01FD ∧ csum [0x00, 0x02] 0xFFFFFFFF = 0xFFFE ∧
      csum [] 0x12345678 = 0x9753 ∧ csum [0xFF, 0xFF] 0xFFFF0001 = 0xFFFF ∧ fold1 0xFFFFFFFF = 0x1FFFE ∧ fold 0x1FFFF = 1 := by
  decide
/-- V13: a buffer that ends exactly at 2^64. -/
theorem test_cur_open_at_the_top : (after State.reset { cw := 0x00003030, a0 := 0xFFFFFFFFFFFFFFF8, a1 := 8 }).map
    (fun t => t.slot 3) = some ⟨true, 0xFFFFFFFFFFFFFFF8, 8, 0⟩ := by decide
theorem test_cur_open_past_the_top : answer State.reset { cw := 0x00002030, a0 := 0xFFFFFFFFFFFFFFF8, a1 := 9 } = bare .badArg := by
  decide
/-- V13: exactly 8 bytes left. -/
theorem test_cur_next_exact_fit : (after (withCursor 0x3000 42 34) { cw := 0x00000331 }).map (fun t => (t.slot 0, t.trace)) =
    some (⟨true, 0x3000, 42, 42⟩, [.reply 0 ⟨.ok, { r0 := 0x3022, r1 := 8 }⟩]) := by decide
/-- V13: compared without wrap. -/
theorem test_cur_next_huge_raw : answer (withCursor 0x3000 42 42) { cw := 0x00000F31, a0 := 0xFFFFFFFFFFFFFFFF } = bare .noData := by
  decide
/-- V13. -/
theorem test_cur_nextm_tags_the_view : answer (withCursor 0x3000 42 14) { cw := 0x00000232 } =
    some ⟨.ok, { r0 := 0x300E, r1 := 20, r2 := 1 }⟩ := by decide
/-- V17: NOCUR before NODATA. -/
theorem test_cur_nextm_dead_slot : answer State.reset { cw := 0x00000F32, a0 := 0xFFFFFFFFFFFFFFFF } = bare .noCur := by decide
/-- V13: the empty tail at 2^64 is address 0. -/
theorem test_cur_rem_at_the_top : answer (withCursor 0xFFFFFFFFFFFFFFF8 8 8) { cw := 0x00000033 } = okNone := by decide
/-- V13: the whole buffer, mutable; the slot is invalid afterwards. -/
theorem test_cur_remm : (after (withCursor 0x7000 5 0) { cw := 0x00000034 }).map (fun t => ((t.slot 0).valid, t.trace)) =
    some (false, [.reply 0 ⟨.ok, { r0 := 0x7000, r1 := 5, r2 := 1 }⟩]) := by decide
/-- V14: the last page ends exactly at the limit. -/
theorem test_dma_alloc_last_page : (after { State.reset with wm := 0xFFFFFFFFFFFFF000 } { cw := 0x00000040, a0 := 1 }).map
    (fun t => (t.wm, t.trace)) =
    some (0x10000000000000000, [.reply 0 ⟨.ok, { r0 := 0xFFFFFFFFFFFFF000, r1 := 0x1000 }⟩]) := by decide
/-- V14: the product does not wrap. -/
theorem test_dma_alloc_huge : answer State.reset { cw := 0x00000040, a0 := 0xFFFFFFFFFFFFFFFF } = bare .noMem := by decide
/-- V14: an empty page at 2^64 is address 0. -/
theorem test_dma_allocb_empty_at_the_top : answer { State.reset with wm := 0x10000000000000000 } { cw := 0x00000041 } = okNone := by
  decide
/-- V14. -/
theorem test_to_paddr : answer State.reset { cw := 0x00000042, a0 := 0xFFFFFFFFFFFFFFFF } = ok1 0xFFFFFFFFFFFFFFFF := by decide
/-- V15. -/
theorem test_q_layout : answer State.reset { cw := 0x00000043, a0 := 0x1234, a1 := 0x999, a2 := 0x11, a3 := 0x222, a4 := 0x333 } =
    some ⟨.ok, ⟨0x1245, 0x211, 0x1456, 0x111, 0x1567, 0x666⟩⟩ := by decide
theorem test_q_layout_order : answer State.reset { cw := 0x00000043, a0 := 0x80200000, a1 := 0x1000, a2 := 0x100, a3 := 0x100, a4 := 0x200 } =
    bare .badArg := by decide
/-- V16: the window's length takes no part. -/
theorem test_io_r8_beyond_the_window : answer (withBytes 0x9020 [0x5A]) { cw := 0x00000048, a0 := 0x9000, a2 := 0x20 } = ok1 0x5A := by
  decide
/-- P3: the register is drawn, and the read is on record with its width. -/
theorem test_io_r8_of_a_device : (after State.reset { cw := 0x00000048, a0 := 0x10001000, a1 := 0x200, a2 := 0x70 }).map
    (fun t => (t.draws, t.trace.head?)) = some (1, some (.ioRead 0x10001070 [Config.deviceByte 0 0])) := rfl
/-- V16: little-endian. -/
theorem test_io_r32 : answer (withBytes 0x9000 [0x78, 0x56, 0x34, 0x12]) { cw := 0x00000049, a0 := 0x9000, a1 := 0x10 } =
    ok1 0x12345678 := by decide
theorem test_io_r32_past_the_top : answer State.reset { cw := 0x00000049, a0 := 0xFFFFFFFFFFFFFFF8, a1 := 8, a2 := 5 } = bare .badArg := by
  decide
/-- V16. -/
theorem test_io_w8 : (after (withBytes 0x9007 [0xA1]) { cw := 0x0000004A, a0 := 0x9000, a1 := 0x10, a2 := 7, a3 := 0xEE }).map State.mem =
    some [(0x9007, 0xEE)] := by decide
theorem test_io_w8_wide : answer State.reset { cw := 0x0000004A, a0 := 0x9000, a1 := 0x10, a2 := 7, a3 := 0x100 } = bare .badArg := by
  decide
/-- V16. -/
theorem test_io_w32 : (after State.reset { cw := 0x0000004B, a0 := 0x9000, a1 := 0x10, a2 := 4, a3 := 0xA1B2C3D4 }).map State.mem =
    some [(0x9004, 0xD4), (0x9005, 0xC3), (0x9006, 0xB2), (0x9007, 0xA1)] := by decide
/-- P3: a device write is one access on record and stores nothing. -/
theorem test_io_w32_to_a_device : (after State.reset { cw := 0x0000004B, a0 := 0x10001000, a1 := 0x200, a2 := 0x50 }).map
    (fun t => (t.mem, t.trace.head?)) = some ([], some (.ioWrite 0x10001050 [0, 0, 0, 0])) := by decide
/-- V16. -/
theorem test_io_paddr : answer State.reset { cw := 0x0000004C, a0 := 0xFFFFFFFFFFFFFFFF, a1 := 0xFFFFFFFFFFFFFFFF } =
    ok1 0xFFFFFFFFFFFFFFFF := by decide
theorem test_io_vaddr : answer State.reset { cw := 0x0000004D, a0 := 0x9000, a1 := 0x10 } = ok1 0x9000 := by decide

/-! ## The hypotheses of the statements are met

Each theorem gives, for the statement it is named after, states and operands that meet its hypotheses, one for each clause,
at the edges of the ranges. -/

/-- A state with one live slot and a byte in memory, within the invariant, with the given input. -/
def busy (input : List Event) : State :=
  { withCursor 0x3000 42 34 with mem := [(0x3000, 7)], input := input }

/-- The same with a read of port 0 in progress, one byte read and one to come. -/
def inFlight (input : List Event) : State :=
  { busy input with flights := [⟨0, .reads 0x3000 1 [9] (.field ⟨2, 2, .whole⟩)⟩] }

theorem test_hyps_ResetEventSetsTheStateAfterReset :
    configWf (busy [.reset]).cfg = true ∧ (busy [.reset]).input = [.reset] ∧ (busy [.reset]).slot 0 ≠ Cursor.empty ∧
      configWf (inFlight [.reset]).cfg = true ∧ (inFlight [.reset]).flights ≠ [] := by decide

theorem test_hyps_StateAfterReset : configWf Config.vectors = true ∧
    configWf ⟨0, 0, 1, [], []⟩ = true ∧ configWf ⟨2 ^ 64, 2 ^ 64, 1, [⟨0, 2 ^ 64⟩], []⟩ = true := by decide

theorem test_hyps_EveryStepKeepsTheInvariant :
    (inFlight [.turn 0]).inv = true ∧ (steps 1 (inFlight [.turn 0])).inv = true ∧ (busy [.command 0 { cw := 0x00000331 }]).inv = true ∧
      (after (busy []) { cw := 0x00000331 }).map (fun t => (t.slot 0).off) = some 42 := by decide

theorem test_hyps_DecodingTheEncodedCommandGivesItBack :
    (Instr.fput .ip .ihl 0xFFFFFFFFFFFFFFFF 0xFFFFFFFFFFFFFFFF).wf = true ∧
      (Instr.curNext 3 (.raw 0xFFFFFFFFFFFFFFFF)).wf = true := by decide

theorem test_hyps_EncodingTheDecodedPacketGivesItBack :
    decode { cw := 0x00003F32, a0 := 0xFFFFFFFFFFFFFFFF } = .ok (.curNextm 3 (.raw 0xFFFFFFFFFFFFFFFF)) := by decide

theorem test_hyps_DecoderAcceptsExactlyTheLegalPackets : legalFor { cw := 0x00110210, a0 := 1 } .fget := by
  refine ⟨by decide, by decide, by simp [tLegal], by simp [kLegal, Opcode.usesK], by simp [fLegal, Opcode.usesF], ?_⟩
  intro j hj
  match j, hj with
  | 1, _ | 2, _ | 3, _ | 4, _ | 5, _ | _ + 6, _ => rfl

theorem test_hyps_MaskAndMatchSelectTheCommand : decode { cw := 0x00000210 } = .ok (.fget .ip .vhl 0) ∧
    (0x00000210 : BitVec 32) &&& Opcode.fget.mask = Opcode.fget.pattern := by decide

theorem test_hyps_StepRunsTheDecodedCommand :
    (busy [.command 0 { cw := 0x12 }]).input = [.command 0 { cw := 0x12 }] ∧ 0 < (busy []).cfg.nport ∧
      (busy [.command 0 { cw := 0x12 }]).jobOf 0 = none ∧ (busy [.start 0 { cw := 0x12 }]).input = [.start 0 { cw := 0x12 }] ∧
      (busy [.start 0 { cw := 0x12 }]).jobOf 0 = none ∧ decode { cw := 0x12 } = .ok (.hdrSize .eth) := by decide

/-- A free port, and a command that completes and changes the state of the block. -/
theorem test_hyps_StartedCommandRunToItsEndIsTheCommand :
    0 < (busy []).cfg.nport ∧ (busy []).jobOf 0 = none ∧ decode { cw := 0x40, a0 := 1 } = .ok (.dmaAlloc 1) ∧
      goesOn (exec (.dmaAlloc 1) (busy [])) = true ∧ (nextOf (exec (.dmaAlloc 1) (busy []))).wm ≠ (busy []).wm := by decide

/-- A command in progress of each kind, with an access to make and with none. -/
theorem test_hyps_EachTurnMakesOneAccessOrSendsTheResponse :
    (inFlight [.turn 0]).input = [.turn 0] ∧ goesOn (step (inFlight [.turn 0])) = true ∧
      (inFlight [.turn 0]).jobOf 0 = some (.reads 0x3000 1 [9] (.field ⟨2, 2, .whole⟩)) ∧
      backs (inFlight []).cfg 0x3000 = true ∧
      ((0x10001000 % IoWidth.w32.bytes = 0 ∧ reachesRange (busy []).cfg 0x10001000 IoWidth.w32.bytes = true) ∧
        0x10001000 % IoWidth.w8.bytes = 0 ∧ reachesRange (busy []).cfg 0x10001000 IoWidth.w8.bytes = true) ∧
      ∀ j ∈ [Job.reads 0x3002 0 [9, 8] (.field ⟨2, 2, .whole⟩), .patch ⟨0, 1, .lowNibble⟩ 0x3000 5, .writes 0x3000 [1],
          .writes 0x3001 [], .ioRead 0x10001000 .w32, .ioWrite 0x10001000 .w8 3, .reply ⟨.noData, {}⟩],
        ({ busy [] with input := [.turn 0], flights := [⟨0, j⟩] } : State).jobOf 0 = some j ∧
          goesOn (step { busy [] with input := [.turn 0], flights := [⟨0, j⟩] }) = true := by decide

/-- Waiting with and without a command in progress; a port that does not exist; a port that is not free; a turn of each. -/
theorem test_hyps_StepWaitsWithoutInputAndRefusesUnknownPorts :
    (busy []).input = [] ∧ (busy []).flights = [] ∧ (inFlight []).input = [] ∧ (inFlight []).flights ≠ [] ∧
      (busy [.command 1 { cw := 0x12 }]).input = [.command 1 { cw := 0x12 }] ∧ (busy []).cfg.nport ≤ 1 ∧
      0 < (inFlight [.command 0 { cw := 0x12 }]).cfg.nport ∧
      (inFlight [.command 0 { cw := 0x12 }]).jobOf 0 ≠ none ∧ (busy [.turn 0]).jobOf 0 = none := by decide

/-- The all-zero packet and a packet with a selector out of range. -/
theorem test_hyps_IllegalPacketGetsIllegalAndChangesNothing :
    ((busy [.command 0 { cw := 0 }]).input = [.command 0 { cw := 0 }] ∧ (busy [.command 0 { cw := 0 }]).jobOf 0 = none) ∧
      0 < (busy []).cfg.nport ∧
      (∀ op, ¬ legalFor { cw := 0 } op) ∧ ∀ op, ¬ legalFor { cw := 0x00000612 } op := by
  refine ⟨by decide, by decide, ?_, ?_⟩
  · rintro op ⟨h, -⟩; revert h; cases op <;> decide
  · rintro op ⟨h, -, ht, -⟩
    cases op <;> first | (revert h; decide) | exact absurd ht (by simp [tLegal])

theorem test_hyps_EnvironmentStoresChangeOnlyTheByte :
    (busy [.envStore 0x3000 9]).input = [.envStore 0x3000 9] ∧ backs (busy []).cfg 0x3000 = true ∧
      backs (busy []).cfg 0x10001000 = false ∧
      (match step (busy [.envStore 0x3000 9]) with | .next t => t.mem | _ => []) = [(0x3000, 9)] := by decide

theorem test_hyps_HdrSizeReturnsTheSizeOfTheHeaderType :
    ((5 : BitVec 4), HdrType.icmp, (8 : Word)) ∈ [((0 : BitVec 4), HdrType.eth, (14 : Word)), (1, .arp, 28), (2, .ip, 20),
      (3, .udp, 8), (4, .tcp, 20), (5, .icmp, 8)] ∧ 6 ≤ (6 : BitVec 4).toNat ∧ 6 ≤ (15 : BitVec 4).toNat := by decide

theorem test_hyps_FieldLayoutsAreTheTablesAndTileTheHeaders : (⟨17, .ihl, 0, 1, 4⟩ : FieldRow) ∈ fieldTable .ip ∧
    HdrType.ip.fieldOfSel 17 = some .ihl := by decide

/-- ETH.rtype at the last address where it fits, and one further; a nibble at the last byte. -/
theorem test_hyps_FgetReturnsTheValueOfTheField :
    layout .eth .rtype = some ⟨12, 2, .whole⟩ ∧ FieldLayout.subByte ⟨12, 2, .whole⟩ = false ∧
      (0xFFFFFFFFFFFFFFF3 : Word).toNat + 12 + 2 > 2 ^ 64 ∧ (0xFFFFFFFFFFFFFFF2 : Word).toNat + 12 + 2 ≤ 2 ^ 64 ∧
      (∀ j < 2, backs State.reset.cfg ((0xFFFFFFFFFFFFFFF2 : Word).toNat + 12 + j) = true) ∧
      backs State.reset.cfg (0xFFFFFFFFFFFFFFFF : Word).toNat = true := by decide

/-- The first value that does not fit, for a whole field and for a nibble, and the first address that does not. -/
theorem test_hyps_FputOutOfRangeIsBadArgAndWritesNothing :
    layout .eth .rtype = some ⟨12, 2, .whole⟩ ∧ layout .ip .ver = some ⟨0, 1, .highNibble⟩ ∧
      (0x10000 : Word).toNat ≥ 2 ^ (8 * 2) ∧ (16 : Word).toNat ≥ 2 ^ 4 ∧
      (0xFFFFFFFFFFFFFFF3 : Word).toNat + 12 + 2 > 2 ^ 64 := by decide

/-- The largest value at the last address, and TCP flags with bits 7:6 set. -/
theorem test_hyps_FputStoresTheFieldBigEndianAndNothingElse :
    layout .eth .rtype = some ⟨12, 2, .whole⟩ ∧ (0xFFFF : Word).toNat < 2 ^ (8 * 2) ∧
      (0xFFFFFFFFFFFFFFF2 : Word).toNat + 12 + 2 ≤ 2 ^ 64 ∧
      (∀ j < 2, backs State.reset.cfg ((0xFFFFFFFFFFFFFFF2 : Word).toNat + 12 + j) = true) ∧
      layout .tcp .flags = some ⟨13, 1, .flagByte⟩ ∧ FieldLayout.subByte ⟨13, 1, .flagByte⟩ = false ∧
      (0xFF : Word).toNat < 2 ^ (8 * 1) ∧ (∀ j < 1, backs State.reset.cfg ((0x2300 : Word).toNat + 13 + j) = true) := by decide

theorem test_hyps_FputOfANibbleKeepsTheOtherNibble :
    (15 : Word).toNat < 16 ∧ backs State.reset.cfg (0xFFFFFFFFFFFFFFFF : Word).toNat = true := by decide

/-- TCP flags with bits 7:6 set, and a nibble. -/
theorem test_hyps_FgetAfterFputReturnsTheValue :
    (∃ u r, exec (.fput .tcp .flags 0x2300 0xD2) State.reset = .next u ∧
      u.trace.getLast? = some (.reply State.reset.port ⟨.ok, r⟩)) ∧
    ∃ u r, exec (.fput .ip .ver 0x2200 15) (withBytes 0x2200 [0xAB]) = .next u ∧
      u.trace.getLast? = some (.reply (withBytes 0x2200 [0xAB]).port ⟨.ok, r⟩) := ⟨⟨_, _, rfl, rfl⟩, ⟨_, _, rfl, rfl⟩⟩

/-- The largest values of the ICMP fields; TCP bytes with byte 13 at its largest. -/
theorem test_hyps_HeaderEncodeAndDecodeAreInverse :
    [0xFF, 0xFF, 0xFFFF, 0xFFFF, 0xFFFF].length = (wholeFields .icmp).length ∧
      (∀ (n : Nat) (f : Field) (l : FieldLayout) (v : Nat), (wholeFields .icmp)[n]? = some f → layout .icmp f = some l →
        [0xFF, 0xFF, 0xFFFF, 0xFFFF, 0xFFFF][n]? = some v → v < 2 ^ (8 * l.width)) ∧
      (List.replicate 20 (0x3F : Byte)).length = headerSize .tcp ∧
      (∀ b, (List.replicate 20 (0x3F : Byte))[13]? = some b → b.toNat < 64) := by
  refine ⟨by decide, ?_, by decide, ?_⟩
  · intro n f l v hf hl hv
    match n with
    | 0 | 1 | 2 | 3 | 4 => cases hf; cases hl; cases hv; decide
    | n + 5 => cases hv
  · intro b hb; cases hb; decide

/-- The ICMP fields in reverse order, at the last address where the header fits. -/
theorem test_hyps_FputOfEveryFieldInAnyOrderBuildsTheHeader :
    let vs : List Word := [8, 0, 0xFFFF, 1, 2]
    let puts := ((wholeFields .icmp).zip vs).reverse
    (0xFFFFFFFFFFFFFFF8 : Word).toNat + headerSize .icmp ≤ 2 ^ 64 ∧
      (∀ j < headerSize .icmp, backs State.reset.cfg ((0xFFFFFFFFFFFFFFF8 : Word).toNat + j) = true) ∧
      vs.length = (wholeFields .icmp).length ∧ puts.Perm ((wholeFields .icmp).zip vs) ∧
      (∀ f v l, (f, v) ∈ puts → layout .icmp f = some l → v.toNat < 2 ^ (8 * l.width)) := by
  refine ⟨by decide, by decide, by decide, List.reverse_perm _, ?_⟩
  intro f v l h hl
  have h' : (f, v) ∈ [(Field.seq, (2 : Word)), (.id, 1), (.checksum, 0xFFFF), (.code, 0), (.type, 8)] := h
  simp only [List.mem_cons, List.not_mem_nil, or_false, Prod.mk.injEq] at h'
  rcases h' with ⟨rfl, rfl⟩ | ⟨rfl, rfl⟩ | ⟨rfl, rfl⟩ | ⟨rfl, rfl⟩ | ⟨rfl, rfl⟩ <;> cases hl <;> decide

/-- The first seed and the first range that are too large, and the largest that are not. -/
theorem test_hyps_CsumReturnsTheChecksumOfTheRange :
    (0x100000000 : Word).toNat ≥ 2 ^ 32 ∧ (0xFFFFFFFFFFFFFFFE : Word).toNat + (3 : Word).toNat > 2 ^ 64 ∧
      (0xFFFFFFFF : Word).toNat < 2 ^ 32 ∧ (0xFFFFFFFFFFFFFFFE : Word).toNat + (2 : Word).toNat ≤ 2 ^ 64 ∧
      (∀ j < (2 : Word).toNat, backs State.reset.cfg ((0xFFFFFFFFFFFFFFFE : Word).toNat + j) = true) := by decide

theorem test_hyps_FoldAbsorbsEveryCarry : (0xFFFF : BitVec 32).toNat ≤ 0xFFFF ∧ fold 0 = 0 := by decide

theorem test_hyps_ChecksumHasTheClosedFormOrLosesOneCarry :
    (0xFFFF0000 : BitVec 32).toNat + wordSum (List.take 2 [0xFF, 0xFF, 0x01]) < 2 ^ 32 ∧
      2 ^ 32 ≤ (0xFFFF0001 : BitVec 32).toNat + wordSum (List.take 2 [0xFF, 0xFF]) ∧
      2 ^ 32 ≤ (0xFFFFFFFF : BitVec 32).toNat + wordSum (List.take 2 [0x01]) := by decide

/-- V2, with an odd trailing byte and the largest safe seed; and a larger seed that still does not overflow. -/
theorem test_hyps_ChecksumOfAFilledHeaderIsZero :
    (let bs : List Byte := [0x08, 0, 0, 0, 0x12, 0x34, 0, 1, 0x61]
     2 % 2 = 0 ∧ 2 + 1 < bs.length ∧ bs[2]? = some 0 ∧ bs[2 + 1]? = some 0 ∧ (0xFFFF0000 : BitVec 32).toNat ≤ 0xFFFF0000) ∧
    (let bs : List Byte := [0, 0]
     let filled := (bs.set 0 ((csum bs 0xFFFF0001).extractLsb' 8 8)).set 1 ((csum bs 0xFFFF0001).extractLsb' 0 8)
     bs[0]? = some 0 ∧ bs[0 + 1]? = some 0 ∧ (0xFFFF0001 : BitVec 32).toNat + wordSum (bs.take 2) < 2 ^ 32 ∧
      (0xFFFF0001 : BitVec 32).toNat + wordSum (filled.take 2) < 2 ^ 32) := by decide

theorem test_hyps_ChecksumOfTwoRangesChains :
    (0xFFFF0000 : BitVec 32).toNat ≤ 0xFFFF0000 ∧ (v3.take 12).length % 2 = 0 ∧
      csum (v3.take 12 ++ v3.drop 12) 0 = csum (v3.drop 12) 0xE188 := by decide

theorem test_hyps_SwappingTheBytesOfEveryWordSwapsTheChecksum : v3.length % 2 = 0 ∧ csum (swapBytes v3) 0 = 0xE6B1 := by decide

/-- Two states that agree on the range and differ elsewhere. -/
theorem test_hyps_ChecksumDependsOnItsRangeAlone :
    (∀ j < (2 : Word).toNat, (withBytes 0x1000 [1, 2, 3]).byteAt (0x1000 + j) = (withBytes 0x1000 [1, 2, 4]).byteAt (0x1000 + j)) ∧
    ∃ u r, exec (.csum 0x1000 2 0) (withBytes 0x1000 [1, 2, 3]) = .next u ∧
      u.trace.getLast? = some (.reply (withBytes 0x1000 [1, 2, 3]).port r) := ⟨by decide, ⟨_, _, rfl, rfl⟩⟩

theorem test_hyps_CurOpenWrapsTheBuffer : 4 ≤ (4 : BitVec 4).toNat ∧ 4 ≤ (15 : BitVec 4).toNat ∧
    (0xFFFFFFFFFFFFFFF8 : Word).toNat + (9 : Word).toNat > 2 ^ 64 ∧
    (0xFFFFFFFFFFFFFFF8 : Word).toNat + (8 : Word).toNat ≤ 2 ^ 64 := by decide

/-- A dead slot, one byte too few, and an exact fit. -/
theorem test_hyps_CurNextExtractsTheViewAndAdvances :
    (State.reset.slot 3).valid = false ∧
      ((withCursor 0x3000 41 34).slot 0).valid = true ∧
      ((withCursor 0x3000 41 34).slot 0).off.toNat + viewSize (.hdr .udp) > ((withCursor 0x3000 41 34).slot 0).len.toNat ∧
      ((withCursor 0x3000 42 34).slot 0).off.toNat + viewSize (.hdr .udp) ≤ ((withCursor 0x3000 42 34).slot 0).len.toNat := by
  decide

/-- A dead slot, an empty tail, and a whole buffer. -/
theorem test_hyps_CurRemConsumesTheCursorAndReturnsTheTail :
    (State.reset.slot 0).valid = false ∧ ((withCursor 0x3000 42 42).slot 0).valid = true ∧
      ((withCursor 0x3000 42 42).slot 0).off.toNat ≤ ((withCursor 0x3000 42 42).slot 0).len.toNat ∧
      ((withCursor 0x3000 42 0).slot 0).off.toNat ≤ ((withCursor 0x3000 42 0).slot 0).len.toNat := by decide

/-- A view that ends at 2^64. -/
theorem test_hyps_ViewsLieInsideTheirBuffer : (withCursor 0xFFFFFFFFFFFFFFF8 8 0).inv = true ∧
    ∃ u r, exec (.curNext 0 (.hdr .icmp)) (withCursor 0xFFFFFFFFFFFFFFF8 8 0) = .next u ∧
      u.trace.getLast? = some (.reply (withCursor 0xFFFFFFFFFFFFFFF8 8 0).port ⟨.ok, r⟩) ∧ r.r1 ≠ 0 :=
  ⟨by decide, ⟨_, _, rfl, rfl, by decide⟩⟩

/-- V4: 42 bytes of ETH headers; and a mix of types that fills a buffer that ends at 2^64. -/
theorem test_hyps_CurNextSucceedsExactlyAsOftenAsTheTypeFits :
    0 < viewSize (.hdr .eth) ∧ (0x3000 : Word).toNat + (42 : Word).toNat ≤ 2 ^ 64 ∧
      (0xFFFFFFFFFFFFFFD6 : Word).toNat + (42 : Word).toNat ≤ 2 ^ 64 ∧
      ([.hdr .eth, .hdr .ip, .raw 8].map viewSize).sum ≤ (42 : Word).toNat := by decide

/-- A size of 2^64, a size one page too large, and the last page. -/
theorem test_hyps_AllocationTakesTheBytesAtTheWatermark :
    State.reset.cfg.dmaLimit ≤ 2 ^ 64 ∧
      (Instr.dmaAllocb 1, (0x00000041 : BitVec 32)) ∈ [(Instr.dmaAlloc 1, (0x00000040 : BitVec 32)), (.dmaAllocb 1, 0x00000041)] ∧
      (0x10000000000000 : Word).toNat * 4096 ≥ 2 ^ 64 ∧
      (0xFFFFFFFFFFFFF001 : BitVec 65).toNat + (1 : Word).toNat * 4096 > State.reset.cfg.dmaLimit ∧
      (1 : Word).toNat * 4096 < 2 ^ 64 ∧
      (0xFFFFFFFFFFFFF000 : BitVec 65).toNat + (1 : Word).toNat * 4096 ≤ State.reset.cfg.dmaLimit := by decide

theorem test_hyps_AllocationsAreContiguous :
    State.reset.cfg.dmaLimit ≤ 2 ^ 64 ∧ (∀ req ∈ [(false, (1 : Word)), (true, 2), (false, 0)], req.2.toNat * 4096 < 2 ^ 64) ∧
      State.reset.wm.toNat + bytesAsked [(false, 1), (true, 2), (false, 0)] ≤ State.reset.cfg.dmaLimit :=
  ⟨by decide, by simp, by decide⟩

/-- Two allocations with a step between them: a third allocation is waiting. -/
def arena₀ : State := { State.reset with input := [.command 0 { cw := 0x40, a0 := 3 }] }
def arena₁ : State := nextOf (exec (allocInstr (false, 1)) arena₀)
def arena₂ : State := nextOf (step arena₁)
def arena₃ : State := nextOf (exec (allocInstr (true, 2)) arena₂)

theorem run_one (s : State) : Host.Core.run Sys2Proof.core 1 s = step s := by
  simp only [Host.Core.run, Sys2Proof.core]
  cases step s <;> rfl

theorem test_hyps_AllocatedRangesNeverOverlap :
    arena₀.inv = true ∧ exec (allocInstr (false, 1)) arena₀ = .next arena₁ ∧
      arena₁.trace.getLast? = some (.reply arena₀.port ⟨.ok, { r0 := 0x80200000, r1 := 0x1000 }⟩) ∧
      Host.Core.run Sys2Proof.core 1 arena₁ = .next arena₂ ∧ (∀ e ∈ arena₁.input.take (arena₁.input.length - arena₂.input.length), e ≠ .reset) ∧
      exec (allocInstr (true, 2)) arena₂ = .next arena₃ ∧
      arena₃.trace.getLast? = some (.reply arena₂.port ⟨.ok, { r0 := 0x80204000, r1 := 0x2000 }⟩) := by
  have h₀ : exec (allocInstr (false, 1)) arena₀ = .next arena₁ := eq_next_nextOf (exec (allocInstr (false, 1)) arena₀) (by decide)
  have h₁ : step arena₁ = .next arena₂ := eq_next_nextOf (step arena₁) (by decide)
  have h₂ : exec (allocInstr (true, 2)) arena₂ = .next arena₃ := eq_next_nextOf (exec (allocInstr (true, 2)) arena₂) (by decide)
  exact ⟨by decide, h₀, by decide, (run_one arena₁).trans h₁, by decide, h₂, by decide⟩

/-- The arena is asked for whole. -/
theorem test_hyps_FirstAllocationAfterResetStartsAtImageEnd :
    let c : Config := { Config.vectors with dmaLimit := 0x80202000 }
    configWf c = true ∧ 0 < c.nport ∧ (2 : Word).toNat * 4096 < 2 ^ 64 ∧ c.imageEnd + (2 : Word).toNat * 4096 ≤ c.dmaLimit ∧
      encode (allocInstr (true, 2)) = { cw := 0x41, a0 := 2 } := by decide

theorem test_hyps_WatermarkNeverFallsButByReset :
    configWf State.reset.cfg = true ∧ (State.reset.presenting { cw := 0x40, a0 := 1 }).input.head? ≠ some .reset ∧
      (after State.reset { cw := 0x40, a0 := 1 }).map State.wm = some 0x80201000 := by decide

/-- The smallest block that can be carved, and an empty used ring. -/
theorem test_hyps_QueueRegionsAreAdjacentAndInsideTheBlock : 0 < 1 ∧ 1 < 2 ∧ 2 ≤ 2 := by decide

/-- The last address where the access fits, one further, and a device register. -/
theorem test_hyps_IoReadMakesOneLittleEndianRead :
    (0xFFFFFFFFFFFFFFFC : Word).toNat + (1 : Word).toNat + 4 > 2 ^ 64 ∧
      (0xFFFFFFFFFFFFFFFC : Word).toNat + (0 : Word).toNat + 4 ≤ 2 ^ 64 ∧
      ((0xFFFFFFFFFFFFFFFC : Word).toNat + (0 : Word).toNat) % 4 = 0 ∧
      (∀ j < 4, backs State.reset.cfg ((0xFFFFFFFFFFFFFFFC : Word).toNat + (0 : Word).toNat + j) = true) ∧
      (∀ j < 4, backs State.reset.cfg ((0x10001000 : Word).toNat + (0x1FC : Word).toNat + j) = false ∧
        hasDevice State.reset.cfg ((0x10001000 : Word).toNat + (0x1FC : Word).toNat + j) = true) := by decide

/-- The first value that is too wide and the largest that is not, in memory and in a device window. -/
theorem test_hyps_IoWriteMakesOneLittleEndianWrite :
    (0x100 : Word).toNat ≥ 2 ^ (8 * 1) ∧ (0xFFFFFFFFFFFFFFFF : Word).toNat + (1 : Word).toNat + 1 > 2 ^ 64 ∧
      (0xFF : Word).toNat < 2 ^ (8 * 1) ∧ (0xFFFFFFFFFFFFFFFF : Word).toNat + (0 : Word).toNat + 1 ≤ 2 ^ 64 ∧
      backs State.reset.cfg ((0xFFFFFFFFFFFFFFFF : Word).toNat + (0 : Word).toNat) = true ∧
      (0xFFFFFFFF : Word).toNat < 2 ^ (8 * 4) ∧ ((0x10001000 : Word).toNat + (0x50 : Word).toNat) % 4 = 0 ∧
      (∀ j < 4, hasDevice State.reset.cfg ((0x10001000 : Word).toNat + (0x50 : Word).toNat + j) = true) := by decide

theorem test_hyps_RegisterWordsInMemoryAreLittleEndian :
    backsRange State.reset.cfg ((0x9000 : Word).toNat + (4 : Word).toNat) 4 = true ∧
      (7 : Word).toNat = (4 : Word).toNat + 3 ∧
      ∃ u r, exec (.ioW32 0x9000 0x10 4 0xA1B2C3D4) State.reset = .next u ∧
        u.trace.getLast? = some (.reply State.reset.port ⟨.ok, r⟩) :=
  ⟨by decide, by decide, ⟨nextOf (exec (.ioW32 0x9000 0x10 4 0xA1B2C3D4) State.reset), {}, eq_next_nextOf _ (by decide), by decide⟩⟩

/-- An instance with memory at 0x1000 .. 0x1FFF and a device at 0x3000 .. 0x30FF only. -/
def small : Config := { Config.vectors with memMap := [⟨0x1000, 0x2000⟩], ioMap := [⟨0x3000, 0x3100⟩] }

/-- A misaligned address; a field and a range that leave memory at their last byte; a register at an address of no map. -/
theorem test_hyps_AccessesWithNoStepStopByName :
    ((0x9000 : Word).toNat + (1 : Word).toNat) % 4 ≠ 0 ∧ (0xFFFFFFFF : Word).toNat < 2 ^ 32 ∧
      layout .eth .rtype = some ⟨12, 2, .whole⟩ ∧ (0xFFFF : Word).toNat < 2 ^ (FieldLayout.valueBits ⟨12, 2, .whole⟩) ∧
      (∃ j < 2, backs small ((0x1FF3 : Word).toNat + 12 + j) = false) ∧
      (∃ j < (2 : Word).toNat, backs small ((0x1FFF : Word).toNat + j) = false) ∧
      ((0x3000 : Word).toNat + (0x100 : Word).toNat) % 4 = 0 ∧
      (∃ j < 4, backs small ((0x3000 : Word).toNat + (0x100 : Word).toNat + j) = false ∧
        hasDevice small ((0x3000 : Word).toNat + (0x100 : Word).toNat + j) = false) := by decide

/-- A command that completes with accesses, one that completes without, and one that is turned away. -/
theorem test_hyps_EveryCommand :
    (∃ t, exec (.fput .eth .rtype 0x2000 0x0800) State.reset = .next t ∧
      ∃ x ∈ t.trace.drop State.reset.trace.length, x.isAccess = true) ∧
    (∃ t resp, exec (.toPaddr 5) State.reset = .next t ∧ t.trace.getLast? = some (.reply 0 resp) ∧ resp.st = .ok) ∧
    ∃ t resp, exec (.tfDec 0x100) State.reset = .next t ∧ t.trace.getLast? = some (.reply 0 resp) ∧ resp.st ≠ .ok :=
  ⟨⟨_, rfl, by decide⟩, ⟨_, _, rfl, rfl, by decide⟩, ⟨_, _, rfl, rfl, by decide⟩⟩

/-- A step that serves an illegal packet, and one that serves a command that is turned away. -/
theorem test_hyps_NonOkStatusChangesNothing :
    answer (busy []) { cw := 0xFF } = bare .illegal ∧ answer (busy []) { cw := 0x35 } = bare .illegal ∧
      answer State.reset { cw := 0x31 } = bare .noCur ∧ (busy []).jobOf 0 = none ∧
      (steps 1 { State.reset with input := [.start 0 { cw := 0x31 }] }).jobOf 0 = some (.reply ⟨.noCur, {}⟩) := by decide

/-- Each clause of the table of R25 meets a command that writes that state. -/
theorem test_hyps_CommandsWriteOnlyTheStateTheTableGivesThem :
    (∃ t, exec (.dmaAlloc 1) State.reset = .next t ∧ t.wm ≠ State.reset.wm) ∧
    (∃ t, exec (.curOpen 3 1 2) State.reset = .next t ∧ (State.reset.slot 3).valid = false ∧ (t.slot 3).valid = true ∧
      (t.slot 3).base ≠ (State.reset.slot 3).base ∧ (t.slot 3).len ≠ (State.reset.slot 3).len) ∧
    (∃ t, exec (.curNextm 0 (.raw 1)) (withCursor 0 2 1) = .next t ∧ (t.slot 0).off ≠ ((withCursor 0 2 1).slot 0).off) ∧
    (∃ t, exec (.curRem 0) (withCursor 0 2 1) = .next t ∧ ((withCursor 0 2 1).slot 0).valid = true ∧ (t.slot 0).valid = false) ∧
    ∃ t, exec (.ioW8 0 0 0 1) State.reset = .next t ∧ t.mem ≠ State.reset.mem :=
  ⟨⟨_, eq_next_nextOf _ (by decide), by decide⟩,
    ⟨_, eq_next_nextOf _ (by decide), by decide, by decide, by decide, by decide⟩,
    ⟨_, eq_next_nextOf _ (by decide), by decide⟩, ⟨_, eq_next_nextOf _ (by decide), by decide, by decide⟩,
    ⟨_, eq_next_nextOf _ (by decide), by decide⟩⟩

theorem test_hyps_CommandsStopOnlyWhereTheSpecHasNoStep :
    exec (.csum 0x10001000 1 0) State.reset = .fault .unbackedAccess ∧
      exec (.fget .eth .rtype 0x1FF3) (State.resetOf small) = .fault .unbackedAccess ∧
      exec (.ioW32 0x3000 0x100 0x100 1) (State.resetOf small) = .fault .unbackedAccess ∧
      exec (.ioR32 0x9000 0x10 1) State.reset = .refused .misalignedRegisterAccess := ⟨rfl, rfl, rfl, rfl⟩

theorem test_hyps_ResultsDoNotDependOnThePort : ∃ t, exec (.ioR8 0x10001000 0x200 0x70) State.reset = .next t := ⟨_, rfl⟩

end Sys2Proof.Tests
end

section
/-! SUPPORT. Command words written as a disjunction of fields, and the decoder on a packet with a known command word. -/

namespace Sys2Proof

/-! ## Command words (R72) -/

/-- The command word of an opcode with selectors `T` and `F` is the disjunction of the three, each in its place (R72). -/
theorem Opcode.pattern_or_t_or_f (op : Opcode) (t : BitVec 4) (f : BitVec 8) :
    op.pattern ||| (t.setWidth 32 <<< 8) ||| (f.setWidth 32 <<< 16) = commandWord op.code t 0 f := by
  unfold Opcode.pattern
  generalize op.code = op
  have hop := op.isLt
  have ht := t.isLt
  have hf := f.isLt
  apply BitVec.eq_of_toNat_eq
  simp only [commandWord_toNat, BitVec.toNat_or, BitVec.toNat_shiftLeft, BitVec.toNat_setWidth]
  rw [Nat.mod_eq_of_lt (a := op.toNat) (by omega), Nat.mod_eq_of_lt (a := t.toNat) (by omega),
    Nat.mod_eq_of_lt (a := f.toNat) (by omega), Nat.mod_eq_of_lt (by rw [Nat.shiftLeft_eq]; omega),
    Nat.mod_eq_of_lt (by rw [Nat.shiftLeft_eq]; omega), Nat.or_comm op.toNat,
    ← Nat.shiftLeft_add_eq_or_of_lt (by omega), Nat.or_comm _ (f.toNat <<< 16),
    ← Nat.shiftLeft_add_eq_or_of_lt (by rw [Nat.shiftLeft_eq]; omega)]
  simp only [Nat.shiftLeft_eq, BitVec.ofNat_eq_ofNat, BitVec.toNat_ofNat]
  omega

/-- The command word of an opcode whose only selector is `T` (R72). -/
theorem Opcode.pattern_or_t (op : Opcode) (t : BitVec 4) :
    op.pattern ||| (t.setWidth 32 <<< 8) = commandWord op.code t 0 0 := by
  simpa using Opcode.pattern_or_t_or_f op t 0

/-- The command word of an opcode without selectors (R75). -/
theorem Opcode.pattern_eq_commandWord (op : Opcode) : op.pattern = commandWord op.code 0 0 0 := by
  simpa using op.pattern_or_t 0

/-! ## The decoder on a command word (R80) -/

section
variable {p : Packet} {op : Opcode} {t k : BitVec 4} {f : BitVec 8}

/-- Steps 1 to 3 of R80 pass: `Z` is zero, `OP` is a command, and a field the command does not use is zero. What is left is
the selectors and the operand words. -/
theorem decode_of_commandWord (hcw : p.cw = commandWord op.code t k f) (ht : op.usesT = false → t = 0)
    (hk : op.usesK = false → k = 0) (hf : op.usesF = false → f = 0) :
    (∀ i, p.assemble op = some i → p.operandsZeroFrom i.operandCount = true → decode p = .ok i) ∧
    (p.assemble op = none → decode p = .error .badSelector) := by
  have hz : p.zField = 0 := by simp [Packet.zField, hcw]
  have hop : Opcode.ofCode p.opField = some op := by simp [Packet.opField, hcw]
  have hu : p.unusedFieldSet op = false := by
    simp only [Packet.unusedFieldSet, Packet.tField, Packet.kField, Packet.fField, hcw, commandWord_t, commandWord_k,
      commandWord_f]
    simpa [and_assoc] using And.intro ht (And.intro hk hf)
  constructor
  · intro i ha hn
    simp [decode, hz, hop, hu, ha, hn]
  · intro ha
    simp [decode, hz, hop, hu, ha]

/-- A command without selectors decodes once its operand words are in place. -/
theorem decode_of_pattern {i : Instr} (hcw : p.cw = op.pattern) (ha : p.assemble op = some i)
    (hn : p.operandsZeroFrom i.operandCount = true) : decode p = .ok i :=
  (decode_of_commandWord (hcw.trans op.pattern_eq_commandWord) (fun _ => rfl) (fun _ => rfl) (fun _ => rfl)).1 i ha hn

end

/-- `T` of 6 and above names no header type (R73). -/
theorem HdrType.ofSel_eq_none {t : BitVec 4} (h : 6 ≤ t.toNat) : HdrType.ofSel t = none := by
  revert t; decide

/-- The encoding of `FGET` (R75, R76, R117). -/
theorem decode_fget {t : HdrType} {f : Field} (h : t.hasField f = true) (addr : Word) :
    decode { cw := commandWord Opcode.fget.code t.sel 0 (t.fieldSel f), a0 := addr } = .ok (.fget t f addr) := by
  refine (decode_of_commandWord rfl (absurd · (by decide)) (fun _ => rfl) (absurd · (by decide))).1 _ ?_ rfl
  simp [Packet.assemble, Packet.tField, Packet.fField, HdrType.fieldOfSel_fieldSel t f h]

/-- The encoding of `HDR.SIZE` (R75, R116). -/
theorem decode_hdrSize (t : HdrType) : decode { cw := commandWord Opcode.hdrSize.code t.sel 0 0 } = .ok (.hdrSize t) := by
  refine (decode_of_commandWord rfl (absurd · (by decide)) (fun _ => rfl) (fun _ => rfl)).1 _ ?_ rfl
  simp [Packet.assemble, Packet.tField]

/-- `HDR.SIZE` of a `T` that names no header type is no command (R116). -/
theorem decode_hdrSize_badSelector {t : BitVec 4} (h : 6 ≤ t.toNat) :
    decode { cw := commandWord Opcode.hdrSize.code t 0 0 } = .error .badSelector := by
  refine (decode_of_commandWord rfl (absurd · (by decide)) (fun _ => rfl) (fun _ => rfl)).2 ?_
  simp [Packet.assemble, Packet.tField, HdrType.ofSel_eq_none h]

end Sys2Proof
end

section
/-! SUPPORT. What the commands of the Header Codec compute: the value of a field from its bytes, and sets of flags. -/

namespace Sys2Proof.Machine

/-! ## Fields and the bytes they are read from (R113, R117) -/

/-- The names with a layout are the fields of the header type. -/
theorem layout_isSome (t : HdrType) (f : Field) : (layout t f).isSome = t.hasField f := by
  cases t <;> cases f <;> rfl

theorem hasField_of_layout {t : HdrType} {f : Field} {l : FieldLayout} (hl : layout t f = some l) :
    t.hasField f = true := by
  rw [← layout_isSome, hl, Option.isSome_some]

/-- No field is wider than a result word. -/
theorem layout_width_le {t : HdrType} {f : Field} {l : FieldLayout} (hl : layout t f = some l) : l.width ≤ 8 := by
  revert l; cases t <;> cases f <;> simp [layout]

/-- The value of a whole field is the big-endian number of its bytes. -/
theorem getField_of_whole {l : FieldLayout} (h : l.subByte = false) (bs : List Byte) : getField l bs = be bs := by
  obtain ⟨off, width, part⟩ := l
  cases part with
  | whole => rfl
  | flagByte => rfl
  | highNibble => exact absurd h (by simp [FieldLayout.subByte])
  | lowNibble => exact absurd h (by simp [FieldLayout.subByte])

/-- The bytes of a range, listed by their distance from its start. -/
theorem State.bytesAt_eq_map (s : State) (a n : Nat) : s.bytesAt a n = (List.range n).map fun j => s.byteAt (a + j) := by
  apply List.ext_getElem (by simp)
  intro j h1 h2
  simp

/-- At most eight bytes are a number that fits a result word. -/
theorem be_bytesAt_lt (s : State) (a : Nat) {n : Nat} (h : n ≤ 8) : be (s.bytesAt a n) < 2 ^ 64 :=
  calc be (s.bytesAt a n) < 256 ^ n := by simpa using be_lt (s.bytesAt a n)
    _ ≤ 256 ^ 8 := Nat.pow_le_pow_right (by decide) h
    _ = 2 ^ 64 := by decide

/-- The reads of a byte string, listed by their distance from its start. -/
theorem readActions_map_range (g : Nat → Byte) (n : Nat) : ∀ a,
    readActions a ((List.range n).map fun j => g (a + j)) = (List.range n).map fun j => .read (a + j) (g (a + j)) := by
  induction n with
  | zero => intro a; rfl
  | succ n ih =>
    intro a
    have h := ih (a + 1)
    simp only [Nat.add_assoc, Nat.add_comm 1] at h
    simp [List.range_succ_eq_map, readActions, Function.comp_def, h]

theorem readActions_bytesAt (s : State) (a n : Nat) :
    readActions a (s.bytesAt a n) = (List.range n).map fun j => .read (a + j) (s.byteAt (a + j)) := by
  rw [State.bytesAt_eq_map, readActions_map_range]

/-- A command that reads a range and responds changes the record alone: the reads in ascending order, each once, then the
response (R11, R52). -/
theorem State.respond_afterRead (s : State) (a n : Nat) (st : Status) (r : Results) :
    (s.afterRead a n).respond st r = { s with trace := s.trace ++ ((List.range n).map fun j =>
      .read (a + j) (s.byteAt (a + j))) ++ [.reply s.port ⟨st, r⟩] } := by
  rw [← readActions_bytesAt]; rfl

/-- `FGET` of a field beyond the address space is turned away. -/
theorem execFget_of_beyond {t : HdrType} {f : Field} {l : FieldLayout} (hl : layout t f = some l) {addr : Word}
    (h : addr.toNat + l.off + l.width > 2 ^ 64) (s : State) : execFget t f addr s = .next (s.respond .badArg {}) := by
  obtain ⟨-, he⟩ | ⟨hle, -⟩ | ⟨hle, -⟩ := execFget_cases t f addr s l hl
  · exact he
  · omega
  · omega

/-- `FGET` of a field that memory backs reads its bytes and answers its value. -/
theorem execFget_of_backed {t : HdrType} {f : Field} {l : FieldLayout} (hl : layout t f = some l) {addr : Word} {s : State}
    (hle : addr.toNat + l.off + l.width ≤ 2 ^ 64) (hb : ∀ j < l.width, backs s.cfg (addr.toNat + l.off + j) = true) :
    execFget t f addr s = .next ((s.afterRead (addr.toNat + l.off) l.width).respond .ok
      { r0 := word (getField l (s.bytesAt (addr.toNat + l.off) l.width)) }) := by
  have hb' := (backsRange_iff s.cfg l.width (addr.toNat + l.off)).2 hb
  obtain ⟨hgt, -⟩ | ⟨-, hf, -⟩ | ⟨-, -, he⟩ := execFget_cases t f addr s l hl
  · omega
  · rw [hb'] at hf; cases hf
  · exact he

/-- `FGET` of a sub-byte field of `IP` reads the byte at the view address, once. -/
theorem execFget_nibble {f : Field} {part : FieldPart} (hl : layout .ip f = some ⟨0, 1, part⟩) {addr : Word} {s : State}
    (hb : backs s.cfg addr.toNat = true) :
    execFget .ip f addr s = .next { s with trace := s.trace ++ [.read addr.toNat (s.byteAt addr.toNat),
      .reply s.port ⟨.ok, { r0 := word (getField ⟨0, 1, part⟩ [s.byteAt addr.toNat]) }⟩] } := by
  have hlt := addr.isLt
  have hback : ∀ j < 1, backs s.cfg (addr.toNat + 0 + j) = true := by
    intro j hj
    obtain rfl : j = 0 := by omega
    exact hb
  have he := execFget_of_backed hl (by simp only; omega) hback
  rw [State.respond_afterRead] at he
  simpa [State.bytesAt] using he

/-- Bits 7:4 of a byte (R107). -/
theorem word_highNibble (b : Byte) : word (be [b] / 16) = (b.extractLsb' 4 4).setWidth 64 := by
  have hb := b.isLt
  apply BitVec.eq_of_toNat_eq
  simp only [word_toNat, be, List.foldl, BitVec.toNat_setWidth, BitVec.extractLsb'_toNat, Nat.shiftRight_eq_div_pow]
  omega

/-- Bits 3:0 of a byte (R107). -/
theorem word_lowNibble (b : Byte) : word (be [b] % 16) = (b.extractLsb' 0 4).setWidth 64 := by
  apply BitVec.eq_of_toNat_eq
  simp only [word_toNat, be, List.foldl, BitVec.toNat_setWidth, BitVec.extractLsb'_toNat, Nat.shiftRight_eq_div_pow]
  omega

/-! ## Commands that test their operands and answer at once (R12) -/

/-- A command without accesses that tests its operands: its results or `ST_BADARG`, and nothing but the response. -/
theorem complete_of_test {c : Bool} {P : Prop} [Decidable P] (h : c = true ↔ P) (s : State) (r : Results) :
    (if c then done s r else reject s .badArg).complete = .next { s with trace := s.trace ++ [.reply s.port
      (if P then ⟨.ok, r⟩ else ⟨.badArg, ⟨0, 0, 0, 0, 0, 0⟩⟩)] } := by
  by_cases hP : P
  · rw [if_pos (h.2 hP), if_pos hP]; rfl
  · rw [if_neg (mt h.1 hP), if_neg hP]; rfl

theorem fits_byte_iff (a : Word) : fits a 8 = true ↔ a.toNat < 256 := fits_iff a 8

theorem fits_bytes_iff (a b : Word) : (fits a 8 && fits b 8) = true ↔ a.toNat < 256 ∧ b.toNat < 256 := by
  rw [Bool.and_eq_true, fits_byte_iff, fits_byte_iff]

/-! ## Sets of flags (R112, R121 to R124) -/

/-- The flag set of a word, as a word again: bits 5:0. -/
theorem tfDecode_setWidth (b : Word) : (tfDecode b).setWidth 64 = b &&& 0x3F := by
  apply BitVec.eq_of_toNat_eq
  have h : b.toNat &&& 63 = b.toNat % 2 ^ 6 := Nat.and_two_pow_sub_one_eq_mod b.toNat 6
  simp only [tfDecode, BitVec.toNat_setWidth, BitVec.toNat_and, BitVec.ofNat_eq_ofNat, BitVec.toNat_ofNat,
    Nat.reduceMod, Nat.reducePow, h]
  omega

theorem tfUnion_tfDecode (a b : Word) : tfUnion (tfDecode a) (tfDecode b) = tfDecode (a ||| b) :=
  BitVec.setWidth_or.symm

theorem tfInter_tfDecode (a b : Word) : tfInter (tfDecode a) (tfDecode b) = tfDecode (a &&& b) :=
  BitVec.setWidth_and.symm

/-- The test of R123, flag by flag. -/
theorem tfContains_tfDecode (a b : Word) : tfContains (tfDecode a) (tfDecode b) = true ↔
    ∀ n : Fin 6, b.getLsbD n = true → a.getLsbD n = true := by
  rw [tfContains, beq_iff_eq, BitVec.eq_of_getLsbD_eq_iff]
  constructor
  · intro h n hb
    have hn := h n n.isLt
    simpa [tfDecode, hb] using hn
  · intro h i hi
    have hn := h ⟨i, hi⟩
    simpa [tfDecode, hi] using hn

end Sys2Proof.Machine
end

section
/-! The obligations of the Header Codec: `FGET` (R117), `HDR.SIZE` (R116) and the flag commands (R121 to R124). -/

namespace Sys2Proof.Machine

/-- Settles O18: each outcome is a case of `execFget_cases`; the accesses and the value are listed by their distance from
the field's first byte. -/
theorem fgetReturnsTheValueOfTheField : Obligations.FgetReturnsTheValueOfTheField := by
  refine ⟨fun s t f l addr hl => ⟨?_, fun _ hgt => execFget_of_beyond hl hgt s, fun hw hle hb => ?_⟩,
    fun s addr hb => ⟨?_, ?_⟩⟩
  · change decode { cw := Opcode.fget.pattern ||| _ ||| _, a0 := addr } = _
    rw [Opcode.pattern_or_t_or_f]
    exact decode_fget (hasField_of_layout hl) addr
  · refine ⟨word (be (s.bytesAt (addr.toNat + l.off) l.width)), ?_, ?_⟩
    · rw [word_toNat_of_lt (be_bytesAt_lt s _ (layout_width_le hl)), State.bytesAt_eq_map]
    · rw [← getField_of_whole hw]
      exact (execFget_of_backed hl hle hb).trans (by rw [State.respond_afterRead])
  · rw [← word_highNibble]
    exact execFget_nibble (f := .ver) rfl hb
  · rw [← word_lowNibble]
    exact execFget_nibble (f := .ihl) rfl hb

/-- Settles O16: the six header types one by one, and the selectors that name none. -/
theorem hdrSizeReturnsTheSizeOfTheHeaderType : Obligations.HdrSizeReturnsTheSizeOfTheHeaderType := by
  refine ⟨fun s T t n hmem => ?_, fun T hT => ?_⟩
  · have hrow : T = t.sel ∧ n = word (headerSize t) := by
      simp only [List.mem_cons, Prod.mk.injEq, List.not_mem_nil, or_false] at hmem
      obtain ⟨rfl, rfl, rfl⟩ | ⟨rfl, rfl, rfl⟩ | ⟨rfl, rfl, rfl⟩ | ⟨rfl, rfl, rfl⟩ | ⟨rfl, rfl, rfl⟩ | ⟨rfl, rfl, rfl⟩ := hmem
        <;> exact ⟨rfl, rfl⟩
    obtain ⟨rfl, rfl⟩ := hrow
    refine ⟨?_, rfl⟩
    change decode { cw := Opcode.hdrSize.pattern ||| _ } = _
    rw [Opcode.pattern_or_t]
    exact decode_hdrSize t
  · change decode { cw := Opcode.hdrSize.pattern ||| _ } = _
    rw [Opcode.pattern_or_t]
    exact decode_hdrSize_badSelector hT

/-- Settles O27: union and intersection commute with dropping bits 7:6. -/
theorem tfUnionAndInterCombineTheSixFlags : Obligations.TfUnionAndInterCombineTheSixFlags := by
  refine fun s a b => ⟨decode_of_pattern (op := .tfUnion) rfl rfl rfl,
    decode_of_pattern (op := .tfInter) rfl rfl rfl, ?_, ?_⟩
  · rw [← tfDecode_setWidth, ← tfUnion_tfDecode]
    exact complete_of_test (fits_bytes_iff a b) s _
  · rw [← tfDecode_setWidth, ← tfInter_tfDecode]
    exact complete_of_test (fits_bytes_iff a b) s _

/-- Settles O28: the test on the masked operands is the test flag by flag. -/
theorem tfContainsTestsEveryFlag : Obligations.TfContainsTestsEveryFlag := by
  refine fun s a b => ⟨decode_of_pattern (op := .tfContains) rfl rfl rfl, ?_⟩
  simp only [← tfContains_tfDecode]
  exact complete_of_test (fits_bytes_iff a b) s _

/-- Settles O29: the flag set of a byte is its bits 5:0. -/
theorem tfDecDropsTheReservedBits : Obligations.TfDecDropsTheReservedBits := by
  refine fun s b => ⟨decode_of_pattern (op := .tfDec) rfl rfl rfl, ?_⟩
  rw [← tfDecode_setWidth]
  exact complete_of_test (fits_byte_iff b) s _

end Sys2Proof.Machine
end

section
/-! SUPPORT. The one's-complement arithmetic of the Checksum Engine (R140, R141): what folding does to the number an
accumulator stands for, and how the sum runs over a byte string. -/

namespace Sys2Proof.Machine

/-! ## Folding (R140) -/

/-- `fold1` on numbers: the low half plus the high half. -/
theorem fold1_toNat (v : BitVec 32) : (fold1 v).toNat = v.toNat % 2 ^ 16 + v.toNat / 2 ^ 16 := by
  have hlow : v.toNat &&& 65535 = v.toNat % 2 ^ 16 := Nat.and_two_pow_sub_one_eq_mod v.toNat 16
  have hv := v.isLt
  simp only [fold1, BitVec.toNat_add, BitVec.toNat_and, BitVec.toNat_ofNat, BitVec.toNat_ushiftRight,
    Nat.shiftRight_eq_div_pow, Nat.reduceMod, Nat.reducePow, hlow]
  omega

theorem fold1_toNat_le (v : BitVec 32) : (fold1 v).toNat ≤ 0x1FFFE := by
  have hv := v.isLt
  rw [fold1_toNat]
  omega

theorem fold_toNat_le (v : BitVec 32) : (fold v).toNat ≤ 0xFFFF := by
  have h1 := fold1_toNat_le v
  rw [fold, fold1_toNat]
  omega

theorem fold1_toNat_mod (v : BitVec 32) : (fold1 v).toNat % 65535 = v.toNat % 65535 := by
  rw [fold1_toNat]
  omega

theorem fold_toNat_mod (v : BitVec 32) : (fold v).toNat % 65535 = v.toNat % 65535 := by
  rw [fold, fold1_toNat_mod, fold1_toNat_mod]

theorem fold1_of_le {v : BitVec 32} (h : v.toNat ≤ 0xFFFF) : fold1 v = v := by
  apply BitVec.eq_of_toNat_eq
  rw [fold1_toNat]
  omega

theorem fold_of_le {v : BitVec 32} (h : v.toNat ≤ 0xFFFF) : fold v = v := by
  rw [fold, fold1_of_le h, fold1_of_le h]

theorem fold1_toNat_eq_zero {v : BitVec 32} : (fold1 v).toNat = 0 ↔ v.toNat = 0 := by
  rw [fold1_toNat]
  omega

/-- Folding makes a zero of nothing but zero. -/
theorem fold_toNat_eq_zero {v : BitVec 32} : (fold v).toNat = 0 ↔ v.toNat = 0 := by
  rw [fold, fold1_toNat_eq_zero, fold1_toNat_eq_zero]

/-- The residue modulo 65535, and being zero or not, determine the folded value: of a nonzero value it is the residue in
`1 .. 65535`. -/
theorem fold_eq_fold {v w : BitVec 32} (hmod : v.toNat % 65535 = w.toNat % 65535) (hzero : v.toNat = 0 ↔ w.toNat = 0) :
    fold v = fold w := by
  have hv := fold_toNat_le v
  have hw := fold_toNat_le w
  have hres : (fold v).toNat % 65535 = (fold w).toNat % 65535 := by rw [fold_toNat_mod, fold_toNat_mod, hmod]
  have hresZero : (fold v).toNat = 0 ↔ (fold w).toNat = 0 := by rw [fold_toNat_eq_zero, fold_toNat_eq_zero, hzero]
  apply BitVec.eq_of_toNat_eq
  omega

/-- Folding before an addition does not change the folded sum, as long as the unfolded addition does not overflow. -/
theorem fold_fold_add {v w : BitVec 32} (hsum : v.toNat + w.toNat < 2 ^ 32) (hw : w.toNat ≤ 0xFFFF) :
    fold (fold v + w) = fold (v + w) := by
  have hle := fold_toNat_le v
  have hmod := fold_toNat_mod v
  have hzero := fold_toNat_eq_zero (v := v)
  have hadd : (v + w).toNat = v.toNat + w.toNat := BitVec.toNat_add_of_lt hsum
  have hadd' : (fold v + w).toNat = (fold v).toNat + w.toNat := BitVec.toNat_add_of_lt (by omega)
  apply fold_eq_fold <;> omega

/-! ## The sum over a byte string (R141) -/

theorem beWord_toNat (hi lo : Byte) : (beWord hi lo).toNat = hi.toNat * 256 + lo.toNat := by
  have hhi := hi.isLt
  have hlo := lo.isLt
  rw [beWord, BitVec.toNat_ofNat, Nat.mod_eq_of_lt (by omega)]

theorem beWord_toNat_le (hi lo : Byte) : (beWord hi lo).toNat ≤ 0xFFFF := by
  have hhi := hi.isLt
  have hlo := lo.isLt
  rw [beWord_toNat]
  omega

@[simp] theorem csumAcc_nil (acc : BitVec 32) : csumAcc acc [] = acc := rfl

@[simp] theorem csumAcc_singleton (acc : BitVec 32) (hi : Byte) : csumAcc acc [hi] = acc + beWord hi 0 := rfl

/-- One word of the sum. The test before the fold changes nothing: a sum of at most 16 bits is its own fold. -/
@[simp] theorem csumAcc_cons_cons (acc : BitVec 32) (hi lo : Byte) (bs : List Byte) :
    csumAcc acc (hi :: lo :: bs) = csumAcc (fold (acc + beWord hi lo)) bs := by
  change csumAcc (if (acc + beWord hi lo).toNat > 0xFFFF then fold (acc + beWord hi lo) else acc + beWord hi lo) bs = _
  split
  · rfl
  · rw [fold_of_le (by omega)]

/-- The sum over a first range of whole words is carried on by the sum over the second. -/
theorem csumAcc_append (ys : List Byte) : ∀ (xs : List Byte) (acc : BitVec 32), xs.length % 2 = 0 →
    csumAcc acc (xs ++ ys) = csumAcc (csumAcc acc xs) ys
  | [], _, _ => rfl
  | [_], _, hodd => absurd hodd (by simp)
  | hi :: lo :: xs, acc, heven => by
    simp only [List.cons_append, csumAcc_cons_cons]
    exact csumAcc_append ys xs _ (by simpa [Nat.add_assoc] using heven)

/-- The sum over whole words never grows beyond the larger of its seed and 16 bits. -/
theorem csumAcc_toNat_le {n : Nat} (hn : 0xFFFF ≤ n) : ∀ (xs : List Byte) (acc : BitVec 32), xs.length % 2 = 0 →
    acc.toNat ≤ n → (csumAcc acc xs).toNat ≤ n
  | [], _, _, hacc => hacc
  | [_], _, hodd, _ => absurd hodd (by simp)
  | hi :: lo :: xs, acc, heven, _ => by
    rw [csumAcc_cons_cons]
    exact csumAcc_toNat_le hn xs _ (by simpa [Nat.add_assoc] using heven) ((fold_toNat_le _).trans hn)

/-- Folding the seed first does not change the folded sum: the first addition, if there is one, absorbs it. -/
theorem fold_csumAcc_fold {acc : BitVec 32} (hacc : acc.toNat ≤ 0xFFFF0000) (bs : List Byte) :
    fold (csumAcc (fold acc) bs) = fold (csumAcc acc bs) := by
  have hadd (hi lo : Byte) : fold (fold acc + beWord hi lo) = fold (acc + beWord hi lo) := by
    have hword := beWord_toNat_le hi lo
    exact fold_fold_add (by omega) hword
  match bs with
  | [] => simpa using fold_of_le (fold_toNat_le acc)
  | [hi] => simpa using hadd hi 0
  | hi :: lo :: bs => simp [hadd hi lo]

/-- The complement of a checksum is the folded sum itself: the seed with which the next range goes on (R146). -/
theorem setWidth_not_csum (bs : List Byte) (seed : BitVec 32) :
    (~~~(csum bs seed)).setWidth 32 = fold (csumAcc seed bs) := by
  have hle := fold_toNat_le (csumAcc seed bs)
  rw [csum]
  generalize fold (csumAcc seed bs) = v at hle
  apply BitVec.eq_of_toNat_eq
  simp only [BitVec.toNat_setWidth, BitVec.toNat_not]
  omega

/-- A checksum does not tell its seed from the folded seed. -/
theorem csum_fold_seed {seed : BitVec 32} (hseed : seed.toNat ≤ 0xFFFF0000) (bs : List Byte) :
    csum bs (fold seed) = csum bs seed := by
  rw [csum, csum, fold_csumAcc_fold hseed]

/-- The checksum of two ranges, the first of whole words, goes on from the sum over the first. -/
theorem csum_append {xs : List Byte} (heven : xs.length % 2 = 0) (ys : List Byte) (seed : BitVec 32) :
    csum (xs ++ ys) seed = csum ys (csumAcc seed xs) := by
  rw [csum, csum, csumAcc_append ys xs seed heven]

/-! ## `CSUM` (R142) -/

/-- `CSUM` of a seed that is too large, or of a range beyond the address space, is turned away. -/
theorem execCsum_of_beyond {addr len seed : Word} (h : 2 ^ 32 ≤ seed.toNat ∨ 2 ^ 64 < addr.toNat + len.toNat)
    (s : State) : execCsum addr len seed s = .next (s.respond .badArg {}) := by
  obtain ⟨-, he⟩ | ⟨hseed, hle, -⟩ | ⟨hseed, hle, -⟩ := execCsum_cases addr len seed s
  · exact he
  · omega
  · omega

/-- `CSUM` of a range that memory backs reads its bytes and answers their checksum. -/
theorem execCsum_of_backed {addr len seed : Word} {s : State} (hseed : seed.toNat < 2 ^ 32)
    (hle : addr.toNat + len.toNat ≤ 2 ^ 64) (hb : ∀ j < len.toNat, backs s.cfg (addr.toNat + j) = true) :
    execCsum addr len seed s = .next ((s.afterRead addr.toNat len.toNat).respond .ok
      { r0 := (csum (s.bytesAt addr.toNat len.toNat) (seed.setWidth 32)).setWidth 64 }) := by
  have hb' := (backsRange_iff s.cfg len.toNat addr.toNat).2 hb
  obtain ⟨hgt, -⟩ | ⟨-, -, hf, -⟩ | ⟨-, -, -, he⟩ := execCsum_cases addr len seed s
  · omega
  · rw [hb'] at hf; cases hf
  · exact he

end Sys2Proof.Machine
end

section
/-! The obligations of the Checksum Engine: `fold` (R140), `CSUM` (R142) and chaining (R146). -/

namespace Sys2Proof.Machine

/-- Settles O30: the outcomes are the cases of `execCsum_cases` without the fault; the bytes read are listed by their
distance from the start of the range. -/
theorem csumReturnsTheChecksumOfTheRange : Obligations.CsumReturnsTheChecksumOfTheRange := by
  refine fun s addr len seed => ⟨decode_of_pattern (op := .csum) rfl rfl rfl, fun h => execCsum_of_beyond h s,
    fun hseed hle hb => ⟨s.bytesAt addr.toNat len.toNat, by simp, fun j hj => ?_, ?_⟩⟩
  · simp [State.bytesAt_eq_map, hj]
  · exact (execCsum_of_backed hseed hle hb).trans (by rw [State.respond_afterRead])

/-- Settles O31: every part is one of the laws of `fold1` and `fold` on numbers. -/
theorem foldAbsorbsEveryCarry : Obligations.FoldAbsorbsEveryCarry := by
  refine fun v => ⟨rfl, rfl, fold1_toNat_le v, fold_toNat_le v, fold_of_le, fun hfold => ?_, fold_toNat_mod v⟩
  exact BitVec.eq_of_toNat_eq (fold_toNat_eq_zero.1 (congrArg BitVec.toNat hfold))

/-- Settles O34: the sum over the first range seeds the second, and the folded sum does so as well. For a first range of
one byte, the byte 1 before the byte 1 is a word of the first run and two high bytes of the second. -/
theorem checksumOfTwoRangesChains : Obligations.ChecksumOfTwoRangesChains := by
  refine ⟨fun xs ys seed hseed heven => ?_, [1], [1], 0, by decide⟩
  have hacc : (csumAcc seed xs).toNat ≤ 0xFFFF0000 := csumAcc_toNat_le (by decide) xs seed heven hseed
  calc csum (xs ++ ys) seed = csum ys (csumAcc seed xs) := csum_append heven ys seed
    _ = csum ys (fold (csumAcc seed xs)) := (csum_fold_seed hacc ys).symm
    _ = csum ys ((~~~(csum xs seed)).setWidth 32) := by rw [setWidth_not_csum]

end Sys2Proof.Machine
end

section
/-! SUPPORT. The encodings of the Buffer Cursor's commands (R74, R75), and what each command leaves, outcome by outcome
(R161 to R165). -/

namespace Sys2Proof

/-! ## Command words with a slot selector (R72, R74) -/

/-- `K` joins a command word that has neither `K` nor `F`. -/
theorem commandWord_or_k (op : BitVec 8) (t k : BitVec 4) :
    commandWord op t 0 0 ||| (k.setWidth 32 <<< 12) = commandWord op t k 0 := by
  have hop := op.isLt
  have ht := t.isLt
  have hk := k.isLt
  apply BitVec.eq_of_toNat_eq
  simp only [commandWord_toNat, BitVec.toNat_or, BitVec.toNat_shiftLeft, BitVec.toNat_setWidth, BitVec.ofNat_eq_ofNat,
    BitVec.toNat_ofNat, Nat.zero_mod, Nat.zero_mul, Nat.zero_add]
  rw [Nat.mod_eq_of_lt (a := k.toNat) (by omega), Nat.mod_eq_of_lt (by rw [Nat.shiftLeft_eq]; omega), Nat.or_comm,
    ← Nat.shiftLeft_add_eq_or_of_lt (by omega), Nat.shiftLeft_eq, Nat.add_assoc]

/-- The command word of an opcode whose only selector is `K` (R72). -/
theorem Opcode.pattern_or_k (op : Opcode) (k : BitVec 4) :
    op.pattern ||| (k.setWidth 32 <<< 12) = commandWord op.code 0 k 0 := by
  rw [Opcode.pattern_eq_commandWord, commandWord_or_k]

theorem slotSel_setWidth (k : Slot) : (slotSel k).setWidth 32 = BitVec.ofNat 32 k.val := by
  revert k; decide

/-- The command word of an opcode with the number of a slot (R74). -/
theorem Opcode.pattern_or_slot (op : Opcode) (k : Slot) :
    op.pattern ||| (BitVec.ofNat 32 k.val <<< 12) = commandWord op.code 0 (slotSel k) 0 := by
  rw [← slotSel_setWidth, Opcode.pattern_or_k]

/-- The command word of an opcode with a view type and the number of a slot (R73, R74). -/
theorem Opcode.pattern_or_t_or_slot (op : Opcode) (t : BitVec 4) (k : Slot) :
    op.pattern ||| (t.setWidth 32 <<< 8) ||| (BitVec.ofNat 32 k.val <<< 12) = commandWord op.code t (slotSel k) 0 := by
  rw [← slotSel_setWidth, Opcode.pattern_or_t, commandWord_or_k]

/-- `K` of 4 and above names no slot (R74). -/
theorem slotOfSel_eq_none {k : BitVec 4} (h : 4 ≤ k.toNat) : slotOfSel k = none := dif_neg (Nat.not_lt.2 h)

/-! ## The packets (R75, R80) -/

/-- The encoding of `CUR.OPEN` (R161). -/
theorem decode_curOpen (k : Slot) (base len : Word) :
    decode { cw := Opcode.curOpen.pattern ||| (BitVec.ofNat 32 k.val <<< 12), a0 := base, a1 := len } =
      .ok (.curOpen k base len) := by
  rw [Opcode.pattern_or_slot]
  refine (decode_of_commandWord rfl (fun _ => rfl) (absurd · (by decide)) (fun _ => rfl)).1 _ ?_ rfl
  simp [Packet.assemble, Packet.kField]

/-- `CUR.OPEN` of a `K` that names no slot is no command (R161). -/
theorem decode_curOpen_badSelector {k : BitVec 4} (h : 4 ≤ k.toNat) (base len : Word) :
    decode { cw := Opcode.curOpen.pattern ||| (k.setWidth 32 <<< 12), a0 := base, a1 := len } = .error .badSelector := by
  rw [Opcode.pattern_or_k]
  refine (decode_of_commandWord rfl (fun _ => rfl) (absurd · (by decide)) (fun _ => rfl)).2 ?_
  simp [Packet.assemble, Packet.kField, slotOfSel_eq_none h]

/-- The encoding of `CUR.NEXT` (R162). -/
theorem decode_curNext (k : Slot) (v : ViewType) :
    decode { cw := Opcode.curNext.pattern ||| (v.sel.setWidth 32 <<< 8) ||| (BitVec.ofNat 32 k.val <<< 12), a0 := v.word } =
      .ok (.curNext k v) := by
  rw [Opcode.pattern_or_t_or_slot]
  refine (decode_of_commandWord rfl (absurd · (by decide)) (absurd · (by decide)) (fun _ => rfl)).1 _ ?_ ?_
  · simp [Packet.assemble, Packet.kField, Packet.tField]
  · cases v <;> rfl

/-- The encoding of `CUR.NEXTM` (R163). -/
theorem decode_curNextm (k : Slot) (v : ViewType) :
    decode { cw := Opcode.curNextm.pattern ||| (v.sel.setWidth 32 <<< 8) ||| (BitVec.ofNat 32 k.val <<< 12), a0 := v.word } =
      .ok (.curNextm k v) := by
  rw [Opcode.pattern_or_t_or_slot]
  refine (decode_of_commandWord rfl (absurd · (by decide)) (absurd · (by decide)) (fun _ => rfl)).1 _ ?_ ?_
  · simp [Packet.assemble, Packet.kField, Packet.tField]
  · cases v <;> rfl

/-- The encoding of `CUR.REM` (R164). -/
theorem decode_curRem (k : Slot) :
    decode { cw := Opcode.curRem.pattern ||| (BitVec.ofNat 32 k.val <<< 12) } = .ok (.curRem k) := by
  rw [Opcode.pattern_or_slot]
  refine (decode_of_commandWord rfl (fun _ => rfl) (absurd · (by decide)) (fun _ => rfl)).1 _ ?_ rfl
  simp [Packet.assemble, Packet.kField]

/-- The encoding of `CUR.REMM` (R165). -/
theorem decode_curRemm (k : Slot) :
    decode { cw := Opcode.curRemm.pattern ||| (BitVec.ofNat 32 k.val <<< 12) } = .ok (.curRemm k) := by
  rw [Opcode.pattern_or_slot]
  refine (decode_of_commandWord rfl (fun _ => rfl) (absurd · (by decide)) (fun _ => rfl)).1 _ ?_ rfl
  simp [Packet.assemble, Packet.kField]

end Sys2Proof

namespace Sys2Proof.Machine

/-! ## A cursor's offset (R162) -/

/-- The cursor with the offset `n` further on. -/
def Cursor.advance (c : Cursor) (n : Nat) : Cursor := { c with off := word (c.off.toNat + n) }

@[simp] theorem Cursor.advance_valid (c : Cursor) (n : Nat) : (c.advance n).valid = c.valid := rfl
@[simp] theorem Cursor.advance_base (c : Cursor) (n : Nat) : (c.advance n).base = c.base := rfl
@[simp] theorem Cursor.advance_len (c : Cursor) (n : Nat) : (c.advance n).len = c.len := rfl

/-- An offset that stays inside the buffer does not wrap. -/
theorem Cursor.advance_off_toNat {c : Cursor} {n : Nat} (h : c.off.toNat + n ≤ c.len.toNat) :
    (c.advance n).off.toNat = c.off.toNat + n :=
  word_toNat_of_lt (h.trans_lt c.len.isLt)

@[simp] theorem Cursor.advance_zero (c : Cursor) : c.advance 0 = c := by
  simp [Cursor.advance, word]

theorem Cursor.advance_advance {c : Cursor} {m : Nat} (h : c.off.toNat + m ≤ c.len.toNat) (n : Nat) :
    (c.advance m).advance n = c.advance (m + n) := by
  rw [Cursor.advance, Cursor.advance_off_toNat h, Nat.add_assoc]
  rfl

/-- The address the cursor stands at is the sum of two words (R162). -/
theorem Cursor.address_eq (c : Cursor) : c.address = c.base + c.off :=
  BitVec.eq_of_toNat_eq (by rw [Cursor.address, word_toNat, BitVec.toNat_add])

/-- The bytes left are the difference of two words, the offset within the buffer (R164). -/
theorem word_sub {a b : Word} (h : b.toNat ≤ a.toNat) : word (a.toNat - b.toNat) = a - b := by
  apply BitVec.eq_of_toNat_eq
  rw [BitVec.toNat_sub_of_le (BitVec.le_def.2 h), word_toNat_of_lt (by omega)]

/-! ## Setting a slot, responding and recording, one after the other -/

@[simp] theorem State.setSlot_slot (s : State) (k : Slot) : s.setSlot k (s.slot k) = s := by
  simp [State.setSlot, State.slot]

@[simp] theorem State.setSlot_setSlot (s : State) (k : Slot) (c d : Cursor) :
    (s.setSlot k c).setSlot k d = s.setSlot k d := by
  simp [State.setSlot]

@[simp] theorem State.slot_record (s : State) (k : Slot) (acts : List Action) : (s.record acts).slot k = s.slot k := rfl

@[simp] theorem State.slot_respond (s : State) (k : Slot) (st : Status) (r : Results) :
    (s.respond st r).slot k = s.slot k := rfl

/-- Setting a slot and responding do not touch the same fields. -/
@[simp] theorem State.setSlot_respond (s : State) (k : Slot) (c : Cursor) (st : Status) (r : Results) :
    (s.respond st r).setSlot k c = (s.setSlot k c).respond st r := rfl

@[simp] theorem State.record_respond (s : State) (st : Status) (r : Results) (acts : List Action) :
    (s.respond st r).record acts = s.record (.reply s.port ⟨st, r⟩ :: acts) := by
  simp [State.respond, State.record]

@[simp] theorem tagWord_false : tagWord false = 0 := rfl

/-- A command that sets a slot and responds changes that slot and the record alone. -/
theorem State.respond_setSlot_frame (s : State) (k : Slot) (c : Cursor) (st : Status) (r : Results) :
    ((s.setSlot k c).respond st r).slot k = c ∧
    (∀ j, j ≠ k → ((s.setSlot k c).respond st r).slot j = s.slot j) ∧
    (s.setSlot k c).respond st r =
      { s with cur := ((s.setSlot k c).respond st r).cur, trace := s.trace ++ [.reply s.port ⟨st, r⟩] } :=
  ⟨by simp, fun j hj => by simp [hj], rfl⟩

/-! ## The outcomes (R161 to R165) -/

section
variable {s : State} {k : Slot}

/-- `CUR.OPEN` of a buffer beyond the address space is turned away. -/
theorem execCurOpen_of_beyond {base len : Word} (h : 2 ^ 64 < base.toNat + len.toNat) :
    execCurOpen k base len s = .next (s.respond .badArg {}) := by
  rw [execCurOpen, startCurOpen, (inSpace_eq_false _ _).2 h]
  rfl

/-- `CUR.OPEN` of a buffer in the address space fills the slot. -/
theorem execCurOpen_of_inSpace {base len : Word} (h : base.toNat + len.toNat ≤ 2 ^ 64) :
    execCurOpen k base len s = .next ((s.setSlot k ⟨true, base, len, 0⟩).respond .ok {}) := by
  rw [execCurOpen, startCurOpen, (inSpace_iff _ _).2 h]
  rfl

/-- No view without a live cursor. -/
theorem nextView_of_dead (m : Bool) (v : ViewType) (h : (s.slot k).valid = false) :
    (nextView m k v s).complete = .next (s.respond .noCur {}) := by
  obtain ⟨-, he⟩ | ⟨hv, -⟩ | ⟨hv, -⟩ := nextView_cases m k v s
  · rw [he]; rfl
  · cases h.symm.trans hv
  · cases h.symm.trans hv

/-- No view of more bytes than are left. -/
theorem nextView_of_short (m : Bool) {v : ViewType} (h : (s.slot k).valid = true)
    (hgt : (s.slot k).len.toNat < (s.slot k).off.toNat + viewSize v) :
    (nextView m k v s).complete = .next (s.respond .noData {}) := by
  obtain ⟨hv, -⟩ | ⟨-, -, he⟩ | ⟨-, hle, -⟩ := nextView_cases m k v s
  · cases h.symm.trans hv
  · rw [he]; rfl
  · omega

/-- A view that fits is answered, and the offset goes on behind it. -/
theorem nextView_of_fits (m : Bool) {v : ViewType} (h : (s.slot k).valid = true)
    (hle : (s.slot k).off.toNat + viewSize v ≤ (s.slot k).len.toNat) :
    (nextView m k v s).complete = .next ((s.setSlot k ((s.slot k).advance (viewSize v))).respond .ok
      { r0 := (s.slot k).address, r1 := word (viewSize v), r2 := tagWord m }) := by
  obtain ⟨hv, -⟩ | ⟨-, hgt, -⟩ | ⟨-, -, he⟩ := nextView_cases m k v s
  · cases h.symm.trans hv
  · omega
  · rw [he]; rfl

/-- No tail without a live cursor. -/
theorem takeRest_of_dead (m : Bool) (h : (s.slot k).valid = false) :
    (takeRest m k s).complete = .next (s.respond .noCur {}) := by
  obtain ⟨-, he⟩ | ⟨hv, -⟩ := takeRest_cases m k s
  · rw [he]; rfl
  · cases h.symm.trans hv

/-- The tail of a live cursor, which is consumed. -/
theorem takeRest_of_live (m : Bool) (h : (s.slot k).valid = true) (hle : (s.slot k).off.toNat ≤ (s.slot k).len.toNat) :
    (takeRest m k s).complete = .next ((s.setSlot k { s.slot k with valid := false }).respond .ok
      { r0 := (s.slot k).address, r1 := (s.slot k).len - (s.slot k).off, r2 := tagWord m }) := by
  rw [← word_sub hle]
  obtain ⟨hv, -⟩ | ⟨-, he⟩ := takeRest_cases m k s
  · cases h.symm.trans hv
  · rw [he]; rfl

end

/-! ## Runs of extractions (R166) -/

/-- One more command of a run that has not stopped. -/
theorem execAll_cons {i : Instr} {s t : State} (h : exec i s = .next t) (is : List Instr) :
    execAll (i :: is) s = execAll is t := by
  simp only [execAll, h]

/-- The responses to successful read-only extractions of the types `vs`, the first of them at address `a`. -/
def viewReplies (port a : Nat) (vs : List ViewType) : List Action :=
  (List.range vs.length).map fun j => .reply port ⟨.ok,
    { r0 := word (a + ((vs.take j).map viewSize).sum), r1 := word (((vs.drop j).take 1).map viewSize).sum }⟩

theorem viewReplies_cons (port a : Nat) (v : ViewType) (vs : List ViewType) :
    viewReplies port a (v :: vs) =
      .reply port ⟨.ok, { r0 := word a, r1 := word (viewSize v) }⟩ :: viewReplies port (a + viewSize v) vs := by
  simp [viewReplies, List.range_succ_eq_map, Function.comp_def, Nat.add_assoc]

/-- Extractions whose sizes fit together all succeed, each behind the one before (R166). -/
theorem execAll_curNext (k : Slot) : ∀ (vs : List ViewType) (s : State), (s.slot k).valid = true →
    (s.slot k).off.toNat + (vs.map viewSize).sum ≤ (s.slot k).len.toNat →
    execAll (vs.map fun v => .curNext k v) s =
      .next ((s.setSlot k ((s.slot k).advance (vs.map viewSize).sum)).record
        (viewReplies s.port ((s.slot k).base.toNat + (s.slot k).off.toNat) vs))
  | [], s, _, _ => by simp [execAll, viewReplies, State.record]
  | v :: vs, s, hlive, hfit => by
    simp only [List.map_cons, List.sum_cons] at hfit
    have hv : (s.slot k).off.toNat + viewSize v ≤ (s.slot k).len.toNat := by omega
    have hstep : exec (.curNext k v) s = _ := nextView_of_fits false hlive hv
    have hoff := Cursor.advance_off_toNat hv
    rw [List.map_cons, execAll_cons hstep,
      execAll_curNext k vs _ (by simpa using hlive) (by simpa [hoff, Nat.add_assoc] using hfit)]
    simp [viewReplies_cons, hoff, Cursor.advance_advance hv, Cursor.address, Nat.add_assoc]

/-- `CUR.OPEN` with extractions behind it whose sizes fit together (R166). -/
theorem execAll_curOpen_curNext (s : State) (k : Slot) {base len : Word} {vs : List ViewType}
    (hspace : base.toNat + len.toNat ≤ 2 ^ 64) (hfit : (vs.map viewSize).sum ≤ len.toNat) :
    execAll (.curOpen k base len :: vs.map fun v => .curNext k v) s =
      .next ((s.setSlot k ⟨true, base, len, word (vs.map viewSize).sum⟩).record
        (.reply s.port ⟨.ok, {}⟩ :: viewReplies s.port base.toNat vs)) := by
  have hopen : exec (.curOpen k base len) s = _ := execCurOpen_of_inSpace hspace
  rw [execAll_cons hopen, execAll_curNext k vs _ (by simp) (by simpa using hfit)]
  simp [Cursor.advance]

/-- `CUR.OPEN` with `n` extractions of one type behind it, which take the first `n` times its size of the buffer (R166). -/
theorem execAll_curOpen_replicate (s : State) (k : Slot) {base len : Word} {v : ViewType} {n : Nat}
    (hspace : base.toNat + len.toNat ≤ 2 ^ 64) (hfit : n * viewSize v ≤ len.toNat) :
    ∃ u, execAll (.curOpen k base len :: List.replicate n (.curNext k v)) s = .next u ∧
      u.slot k = ⟨true, base, len, word (n * viewSize v)⟩ := by
  have hsum : ((List.replicate n v).map viewSize).sum = n * viewSize v := by simp
  have hrun := execAll_curOpen_curNext s k hspace (hsum.trans_le hfit)
  rw [List.map_replicate, hsum] at hrun
  exact ⟨_, hrun, by simp⟩

end Sys2Proof.Machine
end

section
/-! The obligations of the Buffer Cursor: `CUR.OPEN` (R161), the extractions (R162, R163), the tail (R164, R165) and the
counting law (R166). -/

namespace Sys2Proof.Machine

/-- Settles O37: the two ranges of `K`, and the test on the buffer. -/
theorem curOpenWrapsTheBuffer : Obligations.CurOpenWrapsTheBuffer :=
  ⟨fun _ base len hK => decode_curOpen_badSelector hK base len, fun s k base len =>
    ⟨decode_curOpen k base len, execCurOpen_of_beyond,
      fun hle => ⟨_, execCurOpen_of_inSpace hle, s.respond_setSlot_frame k _ .ok {}⟩⟩⟩

/-- Settles O38: `CUR.NEXT` and `CUR.NEXTM` are one body with a tag, and each outcome is a case of that body. -/
theorem curNextExtractsTheViewAndAdvances : Obligations.CurNextExtractsTheViewAndAdvances := by
  intro s k v i op tag hmem
  have hbody : ∃ m, tag = tagWord m ∧ exec i s = (nextView m k v s).complete ∧ decode
      { cw := op.setWidth 32 ||| (v.sel.setWidth 32 <<< 8) ||| (BitVec.ofNat 32 k.val <<< 12), a0 := v.word } = .ok i := by
    simp only [List.mem_cons, Prod.mk.injEq, List.not_mem_nil, or_false] at hmem
    obtain ⟨rfl, rfl, rfl⟩ | ⟨rfl, rfl, rfl⟩ := hmem
    · exact ⟨false, rfl, rfl, decode_curNext k v⟩
    · exact ⟨true, rfl, rfl, decode_curNextm k v⟩
  obtain ⟨m, rfl, hexec, hdecode⟩ := hbody
  rw [hexec, ← Cursor.address_eq]
  refine ⟨hdecode, nextView_of_dead m v, nextView_of_short m, fun hlive hle => ?_⟩
  obtain ⟨hslot, hframe⟩ := s.respond_setSlot_frame k ((s.slot k).advance (viewSize v)) .ok
    { r0 := (s.slot k).address, r1 := word (viewSize v), r2 := tagWord m }
  refine ⟨_, nextView_of_fits m hlive hle, ?_, ?_, hframe⟩
  · rw [hslot, Cursor.advance_off_toNat hle]
  · rw [hslot]; rfl

/-- Settles O39: `CUR.REM` and `CUR.REMM` are one body with a tag, and each outcome is a case of that body. -/
theorem curRemConsumesTheCursorAndReturnsTheTail : Obligations.CurRemConsumesTheCursorAndReturnsTheTail := by
  intro s k i op tag hmem
  have hbody : ∃ m, tag = tagWord m ∧ exec i s = (takeRest m k s).complete ∧
      decode { cw := op.setWidth 32 ||| (BitVec.ofNat 32 k.val <<< 12) } = .ok i := by
    simp only [List.mem_cons, Prod.mk.injEq, List.not_mem_nil, or_false] at hmem
    obtain ⟨rfl, rfl, rfl⟩ | ⟨rfl, rfl, rfl⟩ := hmem
    · exact ⟨false, rfl, rfl, decode_curRem k⟩
    · exact ⟨true, rfl, rfl, decode_curRemm k⟩
  obtain ⟨m, rfl, hexec, hdecode⟩ := hbody
  rw [hexec, ← Cursor.address_eq]
  exact ⟨hdecode, takeRest_of_dead m, fun hlive hle =>
    ⟨_, takeRest_of_live m hlive hle, s.respond_setSlot_frame k _ .ok _⟩⟩

/-- Settles O41: a run whose sizes fit is `execAll_curOpen_curNext`; the counting law is the run of `N / S` equal types,
which leaves `N mod S` bytes, fewer than one more extraction asks for. -/
theorem curNextSucceedsExactlyAsOftenAsTheTypeFits : Obligations.CurNextSucceedsExactlyAsOftenAsTheTypeFits := by
  refine ⟨fun s k vs base len hspace hfit => ⟨_, execAll_curOpen_curNext s k hspace hfit, by simp [word], rfl⟩,
    fun s k v base len hpos hspace => ?_⟩
  have hdiv : len.toNat / viewSize v * viewSize v + len.toNat % viewSize v = len.toNat := Nat.div_add_mod' _ _
  have hmod := Nat.mod_lt len.toNat hpos
  obtain ⟨u, hrun, hslot⟩ := execAll_curOpen_replicate s k hspace (Nat.div_mul_le_self len.toNat (viewSize v))
  generalize len.toNat / viewSize v * viewSize v = taken at *
  have htaken : (word taken).toNat = taken := word_toNat_of_lt (by omega)
  have hoff : (u.slot k).off.toNat = taken := by rw [hslot, htaken]
  have hlen : (u.slot k).len = len := by rw [hslot]
  have hlive : (u.slot k).valid = true := by rw [hslot]
  refine ⟨u, _, hrun, hoff, nextView_of_short false hlive ?_, takeRest_of_live false hlive ?_, _, rfl, ?_⟩
  · rw [hlen, hoff]; omega
  · rw [hlen, hoff]; omega
  · rw [BitVec.toNat_sub_of_le (BitVec.le_def.2 (by rw [hlen, hoff]; omega)), hlen, hoff]
    omega

end Sys2Proof.Machine
end

section
/-! SUPPORT. What the allocation commands leave, outcome by outcome (R181, R182), the results of `Q.LAYOUT` as word
arithmetic (R185), and the three regions of a carved block on numbers (R184). -/

namespace Sys2Proof.Machine

/-! ## The allocator (R181, R182) -/

/-- The watermark holds 65 bits, so that it can stand at `2^64` (R23). -/
theorem State.setWm_toNat_of_le {v : Nat} (h : v ≤ 2 ^ 64) (s : State) : (s.setWm v).wm.toNat = v := by
  rw [State.setWm_wm, BitVec.toNat_ofNat, Nat.mod_eq_of_lt (by omega)]

/-- A command that sets the watermark and responds changes the watermark and the record alone. -/
theorem State.respond_setWm_frame (s : State) (v : Nat) (st : Status) (r : Results) :
    (s.setWm v).respond st r =
      { s with wm := ((s.setWm v).respond st r).wm, trace := s.trace ++ [.reply s.port ⟨st, r⟩] } := rfl

/-- The start of the range handed out is the watermark modulo `2^64`. -/
theorem word_wm (s : State) : word s.wm.toNat = s.wm.setWidth 64 := BitVec.ofNat_toNat 64 s.wm

section
variable {s : State} {pages : Word}

/-- A request of `2^64` bytes or more, or past the limit, is turned away. -/
theorem allocPages_of_beyond
    (h : 2 ^ 64 ≤ pages.toNat * 4096 ∨ s.cfg.dmaLimit < s.wm.toNat + pages.toNat * 4096) :
    (allocPages pages s).complete = .next (s.respond .noMem {}) := by
  obtain ⟨-, he⟩ | ⟨hsize, hlimit, -⟩ := allocPages_cases pages s
  · rw [he, complete_reject]
  · omega

/-- A request that fits gets the range at the watermark, and the watermark goes on behind it. -/
theorem allocPages_of_fits (hsize : pages.toNat * 4096 < 2 ^ 64)
    (hlimit : s.wm.toNat + pages.toNat * 4096 ≤ s.cfg.dmaLimit) :
    (allocPages pages s).complete = .next ((s.setWm (s.wm.toNat + pages.toNat * 4096)).respond .ok
      { r0 := s.wm.setWidth 64, r1 := word (pages.toNat * 4096) }) := by
  obtain ⟨hbeyond, -⟩ | ⟨-, -, he⟩ := allocPages_cases pages s
  · omega
  · rw [he, complete_done, word_wm]

end

/-! ## `Q.LAYOUT` (R184, R185) -/

/-- The sum of two words is their sum modulo `2^64`. -/
theorem word_add (a b : Word) : word (a.toNat + b.toNat) = a + b :=
  BitVec.eq_of_toNat_eq (by rw [word_toNat, BitVec.toNat_add])

/-- The test of `Q.LAYOUT`: the block lies in the address space, and the offsets are in order (R185). -/
theorem qLayout_test_iff (base len d a u : Word) :
    (inSpace base.toNat len.toNat && (decide (d < a) && decide (a < u) && decide (u ≤ len))) = true ↔
      base.toNat + len.toNat ≤ 2 ^ 64 ∧ d.toNat < a.toNat ∧ a.toNat < u.toNat ∧ u.toNat ≤ len.toNat := by
  simp only [Bool.and_eq_true, inSpace_iff, decide_eq_true_eq, BitVec.lt_def, BitVec.le_def, and_assoc]

/-- The result words of `Q.LAYOUT`: start and length of each region, in their order (R185). -/
def QueueRegions.results (q : QueueRegions) : Results where
  r0 := word q.desc.start
  r1 := word q.desc.length
  r2 := word q.avail.start
  r3 := word q.avail.length
  r4 := word q.used.start
  r5 := word q.used.length

/-- `Q.LAYOUT` answers the regions of `carve` where its test passes, and changes nothing but the record. -/
theorem execQLayout_eq (base len d a u : Word) (s : State) :
    execQLayout base len d a u s = .next { s with trace := s.trace ++ [.reply s.port
      (if base.toNat + len.toNat ≤ 2 ^ 64 ∧ d.toNat < a.toNat ∧ a.toNat < u.toNat ∧ u.toNat ≤ len.toNat then
        ⟨.ok, (carve base.toNat len.toNat d.toNat a.toNat u.toNat).results⟩
       else ⟨.badArg, ⟨0, 0, 0, 0, 0, 0⟩⟩)] } :=
  complete_of_test (qLayout_test_iff base len d a u) s _

/-- With the offsets in order, no subtraction of `carve` is cut off at 0: its results are sums and differences of words. -/
theorem carve_results {base len d a u : Word} (hda : d.toNat ≤ a.toNat) (hau : a.toNat ≤ u.toNat)
    (hul : u.toNat ≤ len.toNat) :
    (carve base.toNat len.toNat d.toNat a.toNat u.toNat).results =
      ⟨base + d, a - d, base + a, u - a, base + u, len - u⟩ := by
  simp only [QueueRegions.results, carve, word_add, word_sub hda, word_sub hau, word_sub hul]

section
variable {len d a u : Nat}

/-- The descriptor region ends where the available ring starts. -/
theorem carve_desc_stop (base : Nat) (hda : d ≤ a) :
    (carve base len d a u).desc.start + (carve base len d a u).desc.length = (carve base len d a u).avail.start := by
  simp only [carve]; omega

/-- The available ring ends where the used ring starts. -/
theorem carve_avail_stop (base : Nat) (hau : a ≤ u) :
    (carve base len d a u).avail.start + (carve base len d a u).avail.length = (carve base len d a u).used.start := by
  simp only [carve]; omega

/-- The used ring ends where the block ends. -/
theorem carve_used_stop (base : Nat) (hul : u ≤ len) :
    (carve base len d a u).used.start + (carve base len d a u).used.length = base + len := by
  simp only [carve]; omega

end

/-- Three intervals, each starting where the one before ends, cover the interval from the first start to the last end. -/
theorem adjacent_cover {p q r t : Nat} (hpq : p ≤ q) (hqr : q ≤ r) (hrt : r ≤ t) (x : Nat) :
    (p ≤ x ∧ x < t) ↔ ((p ≤ x ∧ x < q) ∨ (q ≤ x ∧ x < r) ∨ (r ≤ x ∧ x < t)) := by
  omega

end Sys2Proof.Machine
end

section
/-! The obligations of the Memory HAL: the allocation commands (R181, R182), the address commands (R183, R191, R192) and the
carving of a queue's block (R184, R185). -/

namespace Sys2Proof.Machine

/-- Settles O42: `DMA.ALLOC` and `DMA.ALLOCB` are one body, and each outcome is a case of that body; the limit is at most
`2^64`, so the advanced watermark fits its 65 bits. -/
theorem allocationTakesTheBytesAtTheWatermark : Obligations.AllocationTakesTheBytesAtTheWatermark := by
  intro s pages i op hcfg hmem
  have hbody : exec i s = (allocPages pages s).complete ∧ decode { cw := op, a0 := pages } = .ok i := by
    simp only [List.mem_cons, Prod.mk.injEq, List.not_mem_nil, or_false] at hmem
    obtain ⟨rfl, rfl⟩ | ⟨rfl, rfl⟩ := hmem
    · exact ⟨rfl, decode_of_pattern (op := .dmaAlloc) rfl rfl rfl⟩
    · exact ⟨rfl, decode_of_pattern (op := .dmaAllocb) rfl rfl rfl⟩
  obtain ⟨hexec, hdecode⟩ := hbody
  rw [hexec]
  exact ⟨hdecode, allocPages_of_beyond, fun hsize hlimit =>
    ⟨_, _, allocPages_of_fits hsize hlimit, s.setWm_toNat_of_le (hlimit.trans hcfg), s.respond_setWm_frame _ .ok _, rfl,
      word_toNat_of_lt hsize⟩⟩

/-- Settles O47: each command starts with its response, which carries the first operand; `len` takes no part. -/
theorem addressCommandsReturnTheAddressUnchanged : Obligations.AddressCommandsReturnTheAddressUnchanged :=
  fun s base _ => ⟨decode_of_pattern (op := .toPaddr) rfl rfl rfl, decode_of_pattern (op := .ioPaddr) rfl rfl rfl,
    decode_of_pattern (op := .ioVaddr) rfl rfl rfl, complete_done s { r0 := base }, complete_done s { r0 := base },
    complete_done s { r0 := base }⟩

/-- Settles O48: where the test passes the offsets are in order, and the regions of `carve` are the word results. -/
theorem qLayoutCarvesTheBlock : Obligations.QLayoutCarvesTheBlock := by
  refine fun s base len d a u => ⟨decode_of_pattern (op := .qLayout) rfl rfl rfl,
    (execQLayout_eq base len d a u s).trans ?_⟩
  split_ifs with htest
  · obtain ⟨-, hda, hau, hul⟩ := htest
    rw [carve_results hda.le hau.le hul]
  · rfl

/-- Settles O49: each region ends where the next starts, so a byte before one region's end is before the next one's start,
and together they cover the block from `d` on. -/
theorem queueRegionsAreAdjacentAndInsideTheBlock : Obligations.QueueRegionsAreAdjacentAndInsideTheBlock := by
  intro base len d a u hda hau hul q
  have hdesc : q.desc.start + q.desc.length = q.avail.start := carve_desc_stop base hda.le
  have havail : q.avail.start + q.avail.length = q.used.start := carve_avail_stop base hau.le
  have hused : q.used.start + q.used.length = base + len := carve_used_stop base hul
  refine ⟨rfl, rfl, rfl, hdesc, havail, hused, Nat.sub_pos_of_lt hda, Nat.sub_pos_of_lt hau, ?_, fun x => ⟨?_, ?_⟩,
    fun x => ?_⟩
  · exact Nat.sub_eq_zero_iff_le.trans ⟨hul.antisymm, fun h => h.ge⟩
  · rw [hdesc]
    exact fun ⟨_, hbefore, hafter⟩ => hbefore.not_ge hafter
  · rw [havail]
    exact fun ⟨_, hbefore, hafter⟩ => hbefore.not_ge hafter
  · rw [hdesc, havail, hused]
    exact adjacent_cover (Nat.le.intro hdesc) (Nat.le.intro havail) (Nat.le.intro hused) x

end Sys2Proof.Machine
end

section
/-! SUPPORT. A packet the decoder takes is a legal encoding (R74 to R77, R80, R81): the fields of the command word as
numbers, and each step of the decoder as a clause of `legalFor`. -/

namespace Sys2Proof.Machine

/-! ## The fields of the command word as numbers (R72) -/

section
variable (p : Packet)

theorem Packet.opField_toNat : p.opField.toNat = p.cw.toNat % 256 := by simp [Packet.opField]

theorem Packet.tField_toNat : p.tField.toNat = p.cw.toNat / 2 ^ 8 % 16 := by
  simp [Packet.tField, Nat.shiftRight_eq_div_pow]

theorem Packet.kField_toNat : p.kField.toNat = p.cw.toNat / 2 ^ 12 % 16 := by
  simp [Packet.kField, Nat.shiftRight_eq_div_pow]

theorem Packet.fField_toNat : p.fField.toNat = p.cw.toNat / 2 ^ 16 % 256 := by
  simp [Packet.fField, Nat.shiftRight_eq_div_pow]

/-- `Z` is the top byte of the command word, so nothing is cut off above it. -/
theorem Packet.zField_toNat : p.zField.toNat = p.cw.toNat / 2 ^ 24 := by
  have := p.cw.isLt
  simp only [Packet.zField, BitVec.extractLsb'_toNat, Nat.shiftRight_eq_div_pow]
  omega

end

/-! ## Legal selectors (R73, R74, R76, R77) -/

theorem HdrType.ofSel_le {b : BitVec 4} {t : HdrType} (h : HdrType.ofSel b = some t) : b.toNat ≤ 5 := by
  rw [← HdrType.sel_of_ofSel h]
  cases t <;> decide

theorem slotOfSel_lt {b : BitVec 4} {k : Slot} (h : slotOfSel b = some k) : b.toNat < 4 := by
  by_contra hge
  rw [slotOfSel_eq_none (Nat.le_of_not_lt hge)] at h
  cases h

/-- Every selector of R76's table is in the range `fLegal` gives for its header type. -/
theorem fLegal_of_mem_selectors {op : Opcode} (hop : op.usesF = true) (t : HdrType) {e : BitVec 8 × Field}
    (he : e ∈ t.selectors) : fLegal op t.sel.toNat e.1.toNat := by
  unfold fLegal
  rw [if_pos hop]
  cases t with
  | eth => exact (by decide : ∀ e ∈ HdrType.eth.selectors, e.1.toNat ≤ 2) e he
  | arp => exact (by decide : ∀ e ∈ HdrType.arp.selectors, e.1.toNat ≤ 8) e he
  | ip => exact (by decide : ∀ e ∈ HdrType.ip.selectors, e.1.toNat ≤ 9 ∨ e.1.toNat = 16 ∨ e.1.toNat = 17) e he
  | udp => exact (by decide : ∀ e ∈ HdrType.udp.selectors, e.1.toNat ≤ 3) e he
  | tcp => exact (by decide : ∀ e ∈ HdrType.tcp.selectors, e.1.toNat ≤ 8) e he
  | icmp => exact (by decide : ∀ e ∈ HdrType.icmp.selectors, e.1.toNat ≤ 4) e he

theorem fLegal_of_fieldOfSel {op : Opcode} (hop : op.usesF = true) {b : BitVec 4} {c : BitVec 8} {t : HdrType} {f : Field}
    (ht : HdrType.ofSel b = some t) (hf : t.fieldOfSel c = some f) : fLegal op b.toNat c.toNat := by
  obtain ⟨e, he, -⟩ := Option.map_eq_some_iff.1 hf
  have hc : e.1 = c := by simpa using List.find?_some he
  rw [← HdrType.sel_of_ofSel ht, ← hc]
  exact fLegal_of_mem_selectors hop t (List.mem_of_find?_eq_some he)

/-- A view type is RAW, with its size in `A0`, or a header type, with no operand word (R73, R77). -/
theorem ViewType.ofSel_cases {b : BitVec 4} {w : Word} {v : ViewType} (h : ViewType.ofSel b w = some v) :
    (b.toNat = 15 ∧ v = .raw w) ∨ (b.toNat ≤ 5 ∧ ∃ t, v = .hdr t) := by
  unfold ViewType.ofSel at h
  split at h
  · rename_i hraw
    cases h
    exact .inl ⟨by rw [hraw]; rfl, rfl⟩
  · obtain ⟨t, ht, rfl⟩ := Option.map_eq_some_iff.1 h
    exact .inr ⟨HdrType.ofSel_le ht, t, rfl⟩

/-! ## The decoder's steps (R80) -/

/-- A packet that decodes has passed the five steps of R80. -/
theorem decode_eq_ok {p : Packet} {i : Instr} (h : decode p = .ok i) :
    p.zField = 0 ∧ ∃ op, Opcode.ofCode p.opField = some op ∧ p.unusedFieldSet op = false ∧ p.assemble op = some i ∧
      p.operandsZeroFrom i.operandCount = true := by
  unfold decode at h
  split at h
  · rename_i hz
    split at h
    · cases h
    · rename_i op hop
      split at h
      · cases h
      · rename_i hu
        split at h
        · cases h
        · rename_i i' ha
          split at h
          · rename_i hn
            cases h
            exact ⟨hz, op, hop, Bool.eq_false_of_not_eq_true hu, ha, hn⟩
          · cases h
  · cases h

/-- Step 3: a field the command does not use is zero. -/
theorem Packet.unusedFieldSet_eq_false {p : Packet} {op : Opcode} (h : p.unusedFieldSet op = false) :
    (op.usesT = false → p.tField.toNat = 0) ∧ (op.usesK = false → p.kField.toNat = 0) ∧
      (op.usesF = false → p.fField.toNat = 0) := by
  simp only [Packet.unusedFieldSet, Bool.or_eq_false_iff, Bool.and_eq_false_imp, Bool.not_eq_true', bne_eq_false_iff_eq] at h
  obtain ⟨⟨ht, hk⟩, hf⟩ := h
  exact ⟨fun hn => by rw [ht hn]; rfl, fun hn => by rw [hk hn]; rfl, fun hn => by rw [hf hn]; rfl⟩

/-- Step 4: the selectors of a command that is put together are legal, and it uses as many operand words as its row of R75
lists. The commands fall into five groups by the selectors they use. -/
theorem Packet.assemble_legal {p : Packet} {op : Opcode} {i : Instr} (hu : p.unusedFieldSet op = false)
    (ha : p.assemble op = some i) :
    tLegal op p.tField.toNat ∧ kLegal op p.kField.toNat ∧ fLegal op p.tField.toNat p.fField.toNat ∧
      i.operandCount = operandsUsed op p.tField.toNat := by
  obtain ⟨ht, hk, hf⟩ := Packet.unusedFieldSet_eq_false hu
  cases op with
  | fget | fput =>
    obtain ⟨t, htype, hrest⟩ := Option.bind_eq_some_iff.1 ha
    obtain ⟨f, hfield, rfl⟩ := Option.map_eq_some_iff.1 hrest
    exact ⟨HdrType.ofSel_le htype, hk rfl, fLegal_of_fieldOfSel rfl htype hfield, rfl⟩
  | hdrSize =>
    obtain ⟨t, htype, rfl⟩ := Option.map_eq_some_iff.1 ha
    exact ⟨HdrType.ofSel_le htype, hk rfl, hf rfl, rfl⟩
  | curOpen | curRem | curRemm =>
    obtain ⟨k, hslot, rfl⟩ := Option.map_eq_some_iff.1 ha
    exact ⟨ht rfl, slotOfSel_lt hslot, hf rfl, rfl⟩
  | curNext | curNextm =>
    obtain ⟨k, hslot, hrest⟩ := Option.bind_eq_some_iff.1 ha
    obtain ⟨v, hview, rfl⟩ := Option.map_eq_some_iff.1 hrest
    obtain ⟨hraw, rfl⟩ | ⟨hle, t, rfl⟩ := ViewType.ofSel_cases hview
    · exact ⟨.inr hraw, slotOfSel_lt hslot, hf rfl, (if_pos hraw).symm⟩
    · exact ⟨.inl hle, slotOfSel_lt hslot, hf rfl, (if_neg (by omega)).symm⟩
  | _ =>
    cases ha
    exact ⟨ht rfl, hk rfl, hf rfl, rfl⟩

/-- Step 5: the operand words from `A[n]` on are zero; a packet has six (R70). -/
theorem Packet.operand_of_operandsZeroFrom {p : Packet} {n j : Nat} (h : p.operandsZeroFrom n = true) (hj : n ≤ j) :
    p.operand j = 0 := by
  by_cases hlt : j < 6
  · have hz := List.all_eq_true.1 h j (by simp only [List.mem_cons, List.not_mem_nil, or_false]; omega)
    simpa [Nat.not_lt.2 hj] using hz
  · match j, hlt with
    | j + 6, _ => rfl

/-- A packet that decodes is legal for a command, by the numeric reading of R74 to R77, R80 and R81. -/
theorem legalFor_of_decode {p : Packet} {i : Instr} (h : decode p = .ok i) : ∃ op, legalFor p op := by
  obtain ⟨hz, op, hop, hu, ha, hzero⟩ := decode_eq_ok h
  obtain ⟨ht, hk, hf, hcount⟩ := Packet.assemble_legal hu ha
  rw [Packet.tField_toNat] at ht hf hcount
  rw [Packet.kField_toNat] at hk
  rw [Packet.fField_toNat] at hf
  refine ⟨op, ?_, ?_, ht, hk, hf, fun j hj => Packet.operand_of_operandsZeroFrom hzero (hcount.trans_le hj)⟩
  · rw [← Packet.opField_toNat, Opcode.code_of_ofCode hop]
  · rw [← Packet.zField_toNat, hz]; rfl

theorem decode_of_illegal {p : Packet} (h : ∀ op, ¬ legalFor p op) : ∃ e, decode p = .error e := by
  cases hd : decode p with
  | error e => exact ⟨e, rfl⟩
  | ok i =>
    obtain ⟨op, hop⟩ := legalFor_of_decode hd
    exact absurd hop (h op)

end Sys2Proof.Machine
end

section
/-! SUPPORT. What a step does with a packet that comes on a port, and why a status other than `ST_OK` leaves everything as it
was (R214): a command either starts with a rejection, its whole effect, or can only end with `ST_OK`. -/

namespace Sys2Proof.Machine

/-! ## A packet on a port -/

theorem State.accept_of_free {s : State} {port : Nat} (hport : port < s.cfg.nport) (hfree : s.jobOf port = none)
    (go : Result) : s.accept port go = go := by
  simp only [State.accept, hport, if_true, hfree]

theorem State.go_of_accept_free {s t : State} {port : Nat} {go : Result} (hfree : s.jobOf port = none)
    (h : s.accept port go = .next t) : go = .next t := by
  obtain ⟨-, ⟨-, hgo⟩ | ⟨⟨j, hj⟩, -⟩⟩ := accept_cases h
  · exact hgo
  · rw [hfree] at hj; cases hj

section
variable {s : State} {port : Nat} {p : Packet} {rest : List Event}

theorem step_of_command (hi : s.input = .command port p :: rest) :
    step s = s.accept port (runPacket p (s.serving port rest)) := by
  simp only [step, takeEvent, hi]

theorem step_of_start (hi : s.input = .start port p :: rest) :
    step s = s.accept port (.next ((startPacket p (s.serving port rest)).launch port)) := by
  simp only [step, takeEvent, hi]

end

theorem startPacket_of_illegal {p : Packet} {e : DecodeError} (h : decode p = .error e) (s : State) :
    startPacket p s = reject s .illegal := by
  simp only [startPacket, h]

/-- Serving a packet is starting it and taking its turns with nothing between them. -/
theorem runPacket_eq_complete (p : Packet) (s : State) : runPacket p s = (startPacket p s).complete := by
  unfold runPacket startPacket
  split
  · exact exec_eq_complete _ s
  · rfl

/-- The start of a packet leaves the commands in progress as they are. -/
theorem startPacket_flights (p : Packet) (s : State) : (startPacket p s).state.flights = s.flights := by
  unfold startPacket
  split
  · rw [start_state]
  · rfl

/-- A command launched on a free port is the port's command in progress. -/
theorem Started.jobOf_launch {b : Started} {port : Nat} (h : jobIn b.state.flights port = none) :
    (b.launch port).jobOf port = some b.job := by
  rw [State.jobOf, Started.launch_flights, jobIn_append_of_none h]
  simp [jobIn]

/-! ## Jobs that end with `ST_OK` -/

/-- The response the job leads to has status `ST_OK`: every job with an access to make, and a response of that status. -/
def Job.EndsOk : Job → Prop
  | .reply resp => resp.st = .ok
  | _ => True

/-- What `Job.EndsOk` says of a run: the last thing done is the response, with `ST_OK`. -/
theorem Job.EndsOk.finish_eq_respond {j : Job} (hj : j.EndsOk) {s t : State} (h : j.finish s = .next t) :
    ∃ u r, t = State.respond u .ok r := by
  cases j with
  | reads a n got use =>
    rw [Job.finish_reads] at h
    split at h <;> cases h
    exact ⟨_, _, rfl⟩
  | patch l a v =>
    rw [Job.finish_eq] at h
    by_cases hb : backs s.cfg a = true
    · simp only [Job.turn, if_pos hb, Job.finish_writes] at h
      split at h <;> cases h
      exact ⟨_, _, rfl⟩
    · simp only [Job.turn, if_neg hb] at h
      cases h
  | writes a bs =>
    rw [Job.finish_writes] at h
    split at h <;> cases h
    exact ⟨_, _, rfl⟩
  | ioRead a w =>
    rw [Job.finish_ioRead] at h
    split_ifs at h
    cases h
    exact ⟨_, _, rfl⟩
  | ioWrite a w v =>
    rw [Job.finish_ioWrite] at h
    split_ifs at h
    cases h
    exact ⟨_, _, rfl⟩
  | reply resp =>
    cases h
    have hst : resp.st = .ok := hj
    exact ⟨s, resp.r, by rw [hst]⟩

/-! ## Starts that end with `ST_OK` or reject -/

/-- The start of a command in `s` leads to a response with `ST_OK`, or rejects the command and has no other effect. -/
def Started.OkOrRejects (b : Started) (s : State) : Prop := b.job.EndsOk ∨ ∃ st, b = reject s st

section
variable {s : State}

theorem Started.OkOrRejects.of_done (u : State) (r : Results) : (done u r).OkOrRejects s := .inl rfl

theorem Started.OkOrRejects.of_reject (st : Status) : (reject s st).OkOrRejects s := .inr ⟨st, rfl⟩

/-- A command tests its operands before it has any effect (R213). -/
theorem Started.OkOrRejects.of_test {c : Prop} [Decidable c] {b : Started} (hb : b.OkOrRejects s) (st : Status) :
    (if c then b else reject s st).OkOrRejects s := by
  split
  · exact hb
  · exact .of_reject st

end

theorem nextView_okOrRejects (m : Bool) (k : Slot) (v : ViewType) (s : State) : (nextView m k v s).OkOrRejects s := by
  obtain ⟨-, h⟩ | ⟨-, -, h⟩ | ⟨-, -, h⟩ := nextView_cases m k v s <;> rw [h]
  · exact .of_reject _
  · exact .of_reject _
  · exact .of_done _ _

theorem takeRest_okOrRejects (m : Bool) (k : Slot) (s : State) : (takeRest m k s).OkOrRejects s := by
  obtain ⟨-, h⟩ | ⟨-, h⟩ := takeRest_cases m k s <;> rw [h]
  · exact .of_reject _
  · exact .of_done _ _

theorem allocPages_okOrRejects (pages : Word) (s : State) : (allocPages pages s).OkOrRejects s := by
  obtain ⟨-, h⟩ | ⟨-, -, h⟩ := allocPages_cases pages s <;> rw [h]
  · exact .of_reject _
  · exact .of_done _ _

theorem ioRead_okOrRejects (w : IoWidth) (base off : Word) (s : State) : (ioRead w base off s).OkOrRejects s :=
  .of_test (.inl (by trivial)) _

theorem ioWrite_okOrRejects (w : IoWidth) (base off value : Word) (s : State) :
    (ioWrite w base off value s).OkOrRejects s :=
  .of_test (.inl (by trivial)) _

theorem startFget_okOrRejects (t : HdrType) (f : Field) (addr : Word) (s : State) :
    (startFget t f addr s).OkOrRejects s := by
  unfold startFget
  split
  · exact .of_reject _
  · exact .of_test (.inl (by trivial)) _

theorem startFput_okOrRejects (t : HdrType) (f : Field) (addr v : Word) (s : State) :
    (startFput t f addr v s).OkOrRejects s := by
  unfold startFput
  split
  · exact .of_reject _
  · refine .of_test (.inl ?_) _
    split <;> trivial

/-- Every command's start. -/
theorem start_okOrRejects (i : Instr) (s : State) : (start i s).OkOrRejects s := by
  cases i with
  | fget t f addr => exact startFget_okOrRejects t f addr s
  | fput t f addr v => exact startFput_okOrRejects t f addr v s
  | csum addr len seed => exact .of_test (.inl (by trivial)) _
  | clsRtype | clsProto | tfUnion | tfInter | tfContains | tfDec | curOpen | qLayout => exact .of_test (.of_done _ _) _
  | hdrSize | toPaddr | ioPaddr | ioVaddr => exact .of_done _ _
  | curNext k v | curNextm k v => exact nextView_okOrRejects _ k v s
  | curRem k | curRemm k => exact takeRest_okOrRejects _ k s
  | dmaAlloc pages | dmaAllocb pages => exact allocPages_okOrRejects pages s
  | ioR8 base len off | ioR32 base len off => exact ioRead_okOrRejects _ base off s
  | ioW8 base len off value | ioW32 base len off value => exact ioWrite_okOrRejects _ base off value s

theorem startPacket_okOrRejects (p : Packet) (s : State) : (startPacket p s).OkOrRejects s := by
  unfold startPacket
  split
  · exact start_okOrRejects _ s
  · exact .of_reject _

/-- Run to a response other than `ST_OK`, such a start has no effect but that response, with all results 0. -/
theorem Started.OkOrRejects.complete_nonOk {b : Started} {s t : State} {q : Nat} {resp : Response} (hb : b.OkOrRejects s)
    (h : b.complete = .next t) (hlast : t.trace.getLast? = some (.reply q resp)) (hst : resp.st ≠ .ok) :
    t = s.respond resp.st {} := by
  obtain hok | ⟨st, rfl⟩ := hb
  · obtain ⟨u, r, rfl⟩ := hok.finish_eq_respond h
    rw [respond_getLast] at hlast
    cases hlast
    exact absurd rfl hst
  · obtain rfl := complete_reject_next h
    rw [respond_getLast] at hlast
    cases hlast
    rfl

/-- With a response other than `ST_OK` left to send, such a start has had no effect. -/
theorem Started.OkOrRejects.eq_reject {b : Started} {s : State} {resp : Response} (hb : b.OkOrRejects s)
    (hjob : b.job = .reply resp) (hst : resp.st ≠ .ok) : b = reject s resp.st := by
  obtain hok | ⟨st, rfl⟩ := hb
  · rw [hjob] at hok
    exact absurd hok hst
  · cases hjob
    rfl

end Sys2Proof.Machine
end

section
/-! The obligations of the exceptions: illegal packets (R212) and statuses other than `ST_OK` (R214). -/

namespace Sys2Proof.Machine

/-- Settles O13: a packet legal for no command does not decode, and its start is the rejection `ST_ILLEGAL`. -/
theorem illegalPacketGetsIllegalAndChangesNothing : Obligations.IllegalPacketGetsIllegalAndChangesNothing := by
  refine ⟨rfl, fun s port p rest hport hfree hillegal => ?_⟩
  obtain ⟨e, he⟩ := decode_of_illegal hillegal
  refine ⟨fun hi => ?_, fun hi => ?_⟩
  · rw [step_of_command hi, State.accept_of_free hport hfree, runPacket_eq_complete, startPacket_of_illegal he]
    rfl
  · rw [step_of_start hi, State.accept_of_free hport hfree, startPacket_of_illegal he]
    rfl

/-- Settles O55: each start leads to `ST_OK` or is a rejection, whose response is its whole effect. -/
theorem nonOkStatusChangesNothing : Obligations.NonOkStatusChangesNothing := by
  refine ⟨fun i s t q resp h hlast hst => ?_,
    fun s t port q p rest resp hfree h hst => ⟨fun hi hlast => ?_, fun hi hjob => ?_⟩⟩
  · rw [exec_eq_complete] at h
    exact (start_okOrRejects i s).complete_nonOk h hlast hst
  · rw [step_of_command hi] at h
    have hrun := State.go_of_accept_free hfree h
    rw [runPacket_eq_complete] at hrun
    exact (startPacket_okOrRejects p _).complete_nonOk hrun hlast hst
  · rw [step_of_start hi] at h
    cases State.go_of_accept_free hfree h
    have hflights : jobIn (startPacket p (s.serving port rest)).state.flights port = none :=
      (congrArg (jobIn · port) (startPacket_flights p _)).trans hfree
    rw [Started.jobOf_launch hflights, Option.some_inj] at hjob
    rw [(startPacket_okOrRejects p _).eq_reject hjob hst]
    rfl

end Sys2Proof.Machine
end

section
/-! SUPPORT. The reset event (R231): the step that takes it, and the watermark it leaves, which the constraints on an instance
(R8) keep within its 65 bits. -/

namespace Sys2Proof.Machine

/-- The order of an instance's two limits and the address space (R8). -/
theorem configWf_limits {c : Config} (h : configWf c = true) : c.imageEnd ≤ c.dmaLimit ∧ c.dmaLimit ≤ 2 ^ 64 := by
  simp only [configWf, Bool.and_eq_true, decide_eq_true_eq] at h
  obtain ⟨⟨⟨⟨⟨himage, hdma⟩, -⟩, -⟩, -⟩, -⟩ := h
  exact ⟨himage, hdma⟩

theorem step_of_reset {s : State} {rest : List Event} (hi : s.input = .reset :: rest) :
    step s = .next (State.applyReset { s with input := rest }) := by
  simp only [step, takeEvent, hi]

/-- Reset puts `WM` at `IMAGE_END` itself, with nothing cut off: 65 bits hold every address and `2^64` (R23). -/
theorem State.applyReset_wm_toNat {s : State} (h : configWf s.cfg = true) : s.applyReset.wm.toNat = s.cfg.imageEnd := by
  obtain ⟨himage, hdma⟩ := configWf_limits h
  rw [State.applyReset_wm, BitVec.toNat_ofNat, Nat.mod_eq_of_lt (by omega)]

/-- Reset changes the watermark, the slots and the commands in progress alone. -/
theorem State.applyReset_frame (s : State) :
    s.applyReset = { s with wm := s.applyReset.wm, cur := s.applyReset.cur, flights := [] } := rfl

end Sys2Proof.Machine
end

section
/-! The obligation of reset: the reset event (R231). -/

namespace Sys2Proof.Machine

/-- Settles O1: the step takes the event off the input and applies reset to the state that is left. -/
theorem resetEventSetsTheStateAfterReset : Obligations.ResetEventSetsTheStateAfterReset := by
  intro s rest hcfg hi
  exact ⟨_, step_of_reset hi, State.applyReset_wm_toNat hcfg, State.slot_applyReset _, State.applyReset_frame _⟩

end Sys2Proof.Machine
end

section
/-! SUPPORT. What the start of a command can be, as one relation (`StartsAs`): a rejection, an answer, a slot moved, an
allocation or an access to make. -/

namespace Sys2Proof.Machine

/-- The cursor a command leaves in slot `k` where `c` was (R161 to R165). -/
inductive SlotMove (k : Slot) (c : Cursor) : Instr → Cursor → Prop
  | opened {base len : Word} (hspace : base.toNat + len.toNat ≤ 2 ^ 64) :
    SlotMove k c (.curOpen k base len) ⟨true, base, len, 0⟩
  | next {v : ViewType} (hlive : c.valid = true) (hfits : c.off.toNat + viewSize v ≤ c.len.toNat) :
    SlotMove k c (.curNext k v) (c.advance (viewSize v))
  | nextm {v : ViewType} (hlive : c.valid = true) (hfits : c.off.toNat + viewSize v ≤ c.len.toNat) :
    SlotMove k c (.curNextm k v) (c.advance (viewSize v))
  | rem (hlive : c.valid = true) : SlotMove k c (.curRem k) { c with valid := false }
  | remm (hlive : c.valid = true) : SlotMove k c (.curRemm k) { c with valid := false }

/-- What a command that makes accesses has to do once its tests have passed: the seven commands of R46. -/
inductive AccessJob : Instr → Job → Prop
  | fget {t : HdrType} {f : Field} {l : FieldLayout} {addr : Word} (hl : layout t f = some l)
      (hspace : addr.toNat + l.off + l.width ≤ 2 ^ 64) :
    AccessJob (.fget t f addr) (.reads (addr.toNat + l.off) l.width [] (.field l))
  | fput {t : HdrType} {f : Field} {l : FieldLayout} {addr v : Word} (hl : layout t f = some l)
      (hspace : addr.toNat + l.off + l.width ≤ 2 ^ 64) (hwhole : l.subByte = false) :
    AccessJob (.fput t f addr v) (.writes (addr.toNat + l.off) (putField l 0 v.toNat))
  | fputNibble {t : HdrType} {f : Field} {l : FieldLayout} {addr v : Word} (hl : layout t f = some l)
      (hspace : addr.toNat + l.off + l.width ≤ 2 ^ 64) (hsub : l.subByte = true) :
    AccessJob (.fput t f addr v) (.patch l (addr.toNat + l.off) v.toNat)
  | csum {addr len seed : Word} (hspace : addr.toNat + len.toNat ≤ 2 ^ 64) :
    AccessJob (.csum addr len seed) (.reads addr.toNat len.toNat [] (.checksum (seed.setWidth 32)))
  | ioR8 {base len off : Word} (hspace : base.toNat + off.toNat + 1 ≤ 2 ^ 64) :
    AccessJob (.ioR8 base len off) (.ioRead (base.toNat + off.toNat) .w8)
  | ioR32 {base len off : Word} (hspace : base.toNat + off.toNat + 4 ≤ 2 ^ 64) :
    AccessJob (.ioR32 base len off) (.ioRead (base.toNat + off.toNat) .w32)
  | ioW8 {base len off v : Word} (hspace : base.toNat + off.toNat + 1 ≤ 2 ^ 64) :
    AccessJob (.ioW8 base len off v) (.ioWrite (base.toNat + off.toNat) .w8 v.toNat)
  | ioW32 {base len off v : Word} (hspace : base.toNat + off.toNat + 4 ≤ 2 ^ 64) :
    AccessJob (.ioW32 base len off v) (.ioWrite (base.toNat + off.toNat) .w32 v.toNat)

/-- Everything the start of command `i` in `s` can be. -/
inductive StartsAs (i : Instr) (s : State) : Started → Prop
  | rejects {st : Status} (hst : st ∈ allowedStatuses i) : StartsAs i s (reject s st)
  | answers (r : Results) : StartsAs i s (done s r)
  | moves {k : Slot} {c : Cursor} (hmove : SlotMove k (s.slot k) i c) (r : Results) :
    StartsAs i s (done (s.setSlot k c) r)
  | allocates {pages : Word} (hi : i = .dmaAlloc pages ∨ i = .dmaAllocb pages)
      (hlimit : s.wm.toNat + pages.toNat * 4096 ≤ s.cfg.dmaLimit) (r : Results) :
    StartsAs i s (done (s.setWm (s.wm.toNat + pages.toNat * 4096)) r)
  | accesses {j : Job} (hj : AccessJob i j) : StartsAs i s ⟨s, j⟩

section
variable {i : Instr} {s : State}

/-- A command tests its operands before it has any effect (R213). -/
theorem StartsAs.of_test {c : Prop} [Decidable c] {b : Started} {st : Status} (hb : c → StartsAs i s b)
    (hst : st ∈ allowedStatuses i) : StartsAs i s (if c then b else reject s st) := by
  split
  · rename_i hc; exact hb hc
  · exact .rejects hst

theorem nextView_startsAs {k : Slot} {v : ViewType} (m : Bool)
    (hst : Status.noCur ∈ allowedStatuses i ∧ Status.noData ∈ allowedStatuses i)
    (hmove : (s.slot k).valid = true → (s.slot k).off.toNat + viewSize v ≤ (s.slot k).len.toNat →
      SlotMove k (s.slot k) i ((s.slot k).advance (viewSize v))) : StartsAs i s (nextView m k v s) := by
  obtain ⟨-, h⟩ | ⟨-, -, h⟩ | ⟨hlive, hfits, h⟩ := nextView_cases m k v s <;> rw [h]
  · exact .rejects hst.1
  · exact .rejects hst.2
  · exact .moves (hmove hlive hfits) _

theorem takeRest_startsAs {k : Slot} (m : Bool) (hst : Status.noCur ∈ allowedStatuses i)
    (hmove : (s.slot k).valid = true → SlotMove k (s.slot k) i { s.slot k with valid := false }) :
    StartsAs i s (takeRest m k s) := by
  obtain ⟨-, h⟩ | ⟨hlive, h⟩ := takeRest_cases m k s <;> rw [h]
  · exact .rejects hst
  · exact .moves (hmove hlive) _

theorem allocPages_startsAs {pages : Word} (hi : i = .dmaAlloc pages ∨ i = .dmaAllocb pages) :
    StartsAs i s (allocPages pages s) := by
  obtain ⟨-, h⟩ | ⟨-, hlimit, h⟩ := allocPages_cases pages s <;> rw [h]
  · exact .rejects (by obtain rfl | rfl := hi <;> simp [allowedStatuses])
  · exact .allocates hi hlimit _

theorem startFget_startsAs (t : HdrType) (f : Field) (addr : Word) : StartsAs (.fget t f addr) s (startFget t f addr s) := by
  unfold startFget
  split
  · exact .rejects (by simp [allowedStatuses])
  · rename_i l hl
    exact .of_test (fun hspace => .accesses (.fget hl ((inSpace_iff _ _).1 hspace))) (by simp [allowedStatuses])

theorem startFput_startsAs (t : HdrType) (f : Field) (addr v : Word) :
    StartsAs (.fput t f addr v) s (startFput t f addr v s) := by
  unfold startFput
  split
  · exact .rejects (by simp [allowedStatuses])
  · rename_i l hl
    refine .of_test (fun htest => ?_) (by simp [allowedStatuses])
    have hspace := (inSpace_iff _ _).1 (Bool.and_eq_true_iff.1 htest).2
    split
    · rename_i hsub; exact .accesses (.fputNibble hl hspace hsub)
    · rename_i hwhole; exact .accesses (.fput hl hspace (Bool.eq_false_of_not_eq_true hwhole))

/-- Every command's start, by the command. -/
theorem start_startsAs (i : Instr) (s : State) : StartsAs i s (start i s) := by
  cases i with
  | fget t f addr => exact startFget_startsAs t f addr
  | fput t f addr v => exact startFput_startsAs t f addr v
  | csum addr len seed =>
    exact .of_test (fun h => .accesses (.csum ((inSpace_iff _ _).1 (Bool.and_eq_true_iff.1 h).2))) (by simp [allowedStatuses])
  | clsRtype | clsProto | tfUnion | tfInter | tfContains | tfDec | qLayout =>
    exact .of_test (fun _ => .answers _) (by simp [allowedStatuses])
  | hdrSize | toPaddr | ioPaddr | ioVaddr => exact .answers _
  | curOpen k base len =>
    exact .of_test (fun h => .moves (.opened ((inSpace_iff _ _).1 h)) _) (by simp [allowedStatuses])
  | curNext k v => exact nextView_startsAs false (by simp [allowedStatuses]) .next
  | curNextm k v => exact nextView_startsAs true (by simp [allowedStatuses]) .nextm
  | curRem k => exact takeRest_startsAs false (by simp [allowedStatuses]) .rem
  | curRemm k => exact takeRest_startsAs true (by simp [allowedStatuses]) .remm
  | dmaAlloc pages => exact allocPages_startsAs (.inl rfl)
  | dmaAllocb pages => exact allocPages_startsAs (.inr rfl)
  | ioR8 base len off =>
    exact .of_test (fun h => .accesses (.ioR8 ((inSpace_iff _ _).1 h))) (by simp [allowedStatuses])
  | ioR32 base len off =>
    exact .of_test (fun h => .accesses (.ioR32 ((inSpace_iff _ _).1 h))) (by simp [allowedStatuses])
  | ioW8 base len off value =>
    exact .of_test (fun h => .accesses (.ioW8 ((inSpace_iff _ _).1 (Bool.and_eq_true_iff.1 h).2))) (by simp [allowedStatuses])
  | ioW32 base len off value =>
    exact .of_test (fun h => .accesses (.ioW32 ((inSpace_iff _ _).1 (Bool.and_eq_true_iff.1 h).2))) (by simp [allowedStatuses])

end

/-- The start `b` of a command, its effect on `WM` and `CUR` taken over to the state `t`. -/
def Started.onto (b : Started) (t : State) : Started := ⟨{ t with wm := b.state.wm, cur := b.state.cur }, b.job⟩

theorem Started.ite_onto (c : Prop) [Decidable c] (b b' : Started) (t : State) :
    (if c then b else b').onto t = if c then b.onto t else b'.onto t := apply_ite (Started.onto · t) c b b'

/-- The start of a command looks at the configuration, the watermark and the slots alone. -/
theorem start_eq_onto (i : Instr) {s t : State} (hcfg : t.cfg = s.cfg) (hwm : t.wm = s.wm) (hcur : t.cur = s.cur) :
    start i t = (start i s).onto t := by
  obtain ⟨cfg, wm, cur, mem, flights, input, port, trace, draws⟩ := s
  obtain ⟨cfg', wm', cur', mem', flights', input', port', trace', draws'⟩ := t
  obtain rfl : cfg' = cfg := hcfg
  obtain rfl : wm' = wm := hwm
  obtain rfl : cur' = cur := hcur
  cases i with
  | fget t f addr =>
    simp only [start, startFget]
    split <;> [rfl; (rw [Started.ite_onto]; rfl)]
  | fput t f addr v =>
    simp only [start, startFput]
    split <;> [rfl; (rw [Started.ite_onto]; rfl)]
  | hdrSize | toPaddr | ioPaddr | ioVaddr => rfl
  | clsRtype v => simp only [start, startClsRtype, Started.ite_onto]; rfl
  | clsProto v => simp only [start, startClsProto, Started.ite_onto]; rfl
  | tfUnion a b => simp only [start, startTfUnion, Started.ite_onto]; rfl
  | tfInter a b => simp only [start, startTfInter, Started.ite_onto]; rfl
  | tfContains a b => simp only [start, startTfContains, Started.ite_onto]; rfl
  | tfDec b => simp only [start, startTfDec, Started.ite_onto]; rfl
  | csum addr len seed => simp only [start, startCsum, Started.ite_onto]; rfl
  | curOpen k base len => simp only [start, startCurOpen, Started.ite_onto]; rfl
  | curNext k v => simp only [start, startCurNext, nextView, Started.ite_onto]; rfl
  | curNextm k v => simp only [start, startCurNextm, nextView, Started.ite_onto]; rfl
  | curRem k => simp only [start, startCurRem, takeRest, Started.ite_onto]; rfl
  | curRemm k => simp only [start, startCurRemm, takeRest, Started.ite_onto]; rfl
  | dmaAlloc pages => simp only [start, startDmaAlloc, allocPages, Started.ite_onto]; rfl
  | dmaAllocb pages => simp only [start, startDmaAllocb, allocPages, Started.ite_onto]; rfl
  | qLayout base len d a u => simp only [start, startQLayout, Started.ite_onto]; rfl
  | ioR8 base len off => simp only [start, startIoR8, ioRead, Started.ite_onto]; rfl
  | ioR32 base len off => simp only [start, startIoR32, ioRead, Started.ite_onto]; rfl
  | ioW8 base len off v => simp only [start, startIoW8, ioWrite, Started.ite_onto]; rfl
  | ioW32 base len off v => simp only [start, startIoW32, ioWrite, Started.ite_onto]; rfl

end Sys2Proof.Machine
end

section
/-! SUPPORT. The invariant part by part: what each part says, and which operations keep it. -/

namespace Sys2Proof.Machine

/-! ## The parts of the invariant -/

/-- A live slot lies in its buffer, and the buffer in the address space (R24). -/
theorem cursorWf_iff (c : Cursor) :
    cursorWf c = true ↔ (c.valid = true → c.off.toNat ≤ c.len.toNat ∧ c.base.toNat + c.len.toNat ≤ 2 ^ 64) := by
  cases hv : c.valid <;> simp [cursorWf, hv, inSpace_iff]

theorem watermarkWf_iff (s : State) :
    watermarkWf s = true ↔ s.cfg.imageEnd ≤ s.wm.toNat ∧ s.wm.toNat ≤ s.cfg.dmaLimit := by
  simp only [watermarkWf, Bool.and_eq_true, decide_eq_true_eq]

/-- Every slot of the file, by its number. -/
theorem cur_all_iff (s : State) : s.cur.toList.all cursorWf = true ↔ ∀ k, cursorWf (s.slot k) = true := by
  simp only [List.all_eq_true, Vector.mem_toList_iff, Vector.mem_iff_getElem, State.slot]
  constructor
  · exact fun h k => h _ ⟨k.val, k.isLt, rfl⟩
  · rintro h c ⟨n, hn, rfl⟩
    exact h ⟨n, hn⟩

/-- The memory `m` is in canonical form, at addresses the configuration backs. -/
def memWf (c : Config) (m : Memory) : Prop := Memory.wf m = true ∧ m.all (fun e => backs c e.1) = true

/-- The commands in progress are of ports below `n`, at most one of each, and each in the address
space. -/
def flightListWf (n : Nat) (fs : List Flight) : Prop :=
  (∀ f ∈ fs, f.port < n ∧ jobWf f.job = true) ∧ (fs.map Flight.port).Nodup

theorem flightsWf_iff (s : State) : flightsWf s = true ↔ flightListWf s.cfg.nport s.flights := by
  simp only [flightsWf, flightListWf, Bool.and_eq_true, List.all_eq_true, decide_eq_true_eq]

/-- The invariant but for the commands in progress: what commands themselves must keep. -/
structure State.BlockInv (s : State) : Prop where
  config : configWf s.cfg = true
  watermark : s.cfg.imageEnd ≤ s.wm.toNat ∧ s.wm.toNat ≤ s.cfg.dmaLimit
  slots : ∀ k, cursorWf (s.slot k) = true
  memory : memWf s.cfg s.mem

theorem State.inv_iff (s : State) : s.inv = true ↔ s.BlockInv ∧ flightListWf s.cfg.nport s.flights := by
  simp only [State.inv, memoryWf, Bool.and_eq_true, watermarkWf_iff, cur_all_iff, flightsWf_iff]
  constructor
  · rintro ⟨⟨⟨⟨hc, hw⟩, hs⟩, hm⟩, hf⟩
    exact ⟨⟨hc, hw, hs, hm⟩, hf⟩
  · rintro ⟨⟨hc, hw, hs, hm⟩, hf⟩
    exact ⟨⟨⟨⟨hc, hw⟩, hs⟩, hm⟩, hf⟩

/-- The block's part of the invariant looks at the configuration, the watermark, the slots and memory alone. -/
theorem State.BlockInv.congr {s t : State} (h : s.BlockInv) (hcfg : t.cfg = s.cfg) (hwm : t.wm = s.wm)
    (hcur : t.cur = s.cur) (hmem : memWf s.cfg t.mem) : t.BlockInv where
  config := hcfg ▸ h.config
  watermark := by rw [hcfg, hwm]; exact h.watermark
  slots k := by
    have hslot : t.slot k = s.slot k := by rw [State.slot, hcur]; rfl
    rw [hslot]; exact h.slots k
  memory := hcfg ▸ hmem

/-! ## Memory -/

theorem memWf.store {c : Config} {m : Memory} (h : memWf c m) {a : Nat} (ha : backs c a = true) (b : Byte) :
    memWf c (Memory.store m a b) :=
  ⟨Memory.wf_store m a b h.1, Memory.all_backed_store c m a b ha h.2⟩

theorem memWf.storeBacked {c : Config} {m : Memory} (h : memWf c m) (a : Nat) (bs : List Byte) :
    memWf c (Memory.storeBacked c m a bs) :=
  ⟨Memory.wf_storeBacked c bs m a h.1, Memory.all_backed_storeBacked c bs m a h.2⟩

/-! ## Turns -/

/-- A turn stores at addresses the configuration backs, or not at all. -/
theorem Job.turn_memWf {j : Job} {s t : State} {j' : Option Job} (h : j.turn s = .next (t, j')) (hm : memWf s.cfg s.mem) :
    memWf s.cfg t.mem := by
  cases j with
  | reads a n got use =>
    cases n with
    | zero => cases h; exact hm
    | succ n => simp only [Job.turn] at h; split at h <;> cases h; exact hm
  | patch l a v => simp only [Job.turn] at h; split at h <;> cases h; exact hm
  | writes a bs =>
    cases bs with
    | nil => cases h; exact hm
    | cons b bs =>
      simp only [Job.turn] at h
      split at h <;> cases h
      rename_i ha
      exact hm.store ha b
  | ioRead a w => simp only [Job.turn] at h; split_ifs at h; cases h; exact hm
  | ioWrite a w v => simp only [Job.turn] at h; split_ifs at h; cases h; exact hm.storeBacked a _
  | reply resp => cases h; exact hm

/-- What is left of a command after a turn stays inside the address space. -/
theorem Job.turn_jobWf {j : Job} {s t : State} {j' : Job} (h : j.turn s = .next (t, some j')) (hj : jobWf j = true) :
    jobWf j' = true := by
  cases j with
  | reads a n got use =>
    cases n with
    | zero => cases h
    | succ n =>
      simp only [Job.turn] at h
      split at h <;> cases h
      simp only [jobWf, inSpace_iff] at hj ⊢
      omega
  | patch l a v =>
    simp only [Job.turn] at h
    split at h <;> cases h
    simp only [jobWf, Bool.and_eq_true] at hj
    simp only [jobWf, putField_length_subByte hj.1, hj.2]
  | writes a bs =>
    cases bs with
    | nil => cases h
    | cons b bs =>
      simp only [Job.turn] at h
      split at h <;> cases h
      simp only [jobWf, inSpace_iff, List.length_cons] at hj ⊢
      omega
  | ioRead a w => simp only [Job.turn] at h; split_ifs at h; cases h; rfl
  | ioWrite a w v => simp only [Job.turn] at h; split_ifs at h; cases h; rfl
  | reply resp => cases h

/-- A turn that completes: the next access with the rest of the command left, or the response with nothing left. -/
theorem Job.turn_next {j : Job} {s t : State} {j' : Option Job} (h : j.turn s = .next (t, j')) :
    (∃ r x, j' = some r ∧ j.turns = r.turns + 1 ∧ x.isAccess = true ∧
      t = { s with mem := t.mem, trace := s.trace ++ [x], draws := t.draws }) ∨
    (∃ resp : Response, j' = none ∧ t = s.respond resp.st resp.r ∧ j.turns = 1) := by
  obtain ⟨t', r, x, h', hturns, hx, ht⟩ | ⟨resp, h', hturns⟩ | h' | h' := Job.turn_cases j s
  · cases h'.symm.trans h; exact .inl ⟨r, x, rfl, hturns, hx, ht⟩
  · cases h'.symm.trans h; exact .inr ⟨resp, rfl, rfl, hturns⟩
  · cases h'.symm.trans h
  · cases h'.symm.trans h

/-- What one turn can change. -/
theorem Job.turn_frame {j : Job} {s t : State} {j' : Option Job} (h : j.turn s = .next (t, j')) :
    t = { s with mem := t.mem, trace := t.trace, draws := t.draws } := by
  obtain ⟨-, x, -, -, -, ht⟩ | ⟨resp, -, rfl, -⟩ := Job.turn_next h
  · rw [ht]
  · rfl

theorem Job.turn_blockInv {j : Job} {s t : State} {j' : Option Job} (h : j.turn s = .next (t, j')) (hs : s.BlockInv) :
    t.BlockInv := by
  have ht := Job.turn_frame h
  exact hs.congr (by rw [ht]) (by rw [ht]) (by rw [ht]) (Job.turn_memWf h hs.memory)

/-- What every turn keeps, all the turns keep. -/
theorem Job.finish_induct {P : State → Prop}
    (hturn : ∀ (j : Job) (s t : State) (j' : Option Job), j.turn s = .next (t, j') → P s → P t)
    {j : Job} {s t : State} (h : j.finish s = .next t) (hs : P s) : P t := by
  induction hn : j.turns generalizing j s with
  | zero => cases j <;> simp [Job.turns] at hn
  | succ n ih =>
    rw [Job.finish_eq] at h
    split at h
    · rename_i u r hu
      obtain ⟨r', -, hr, hturns, -⟩ | ⟨-, hr, -⟩ := Job.turn_next hu <;> cases hr
      exact ih h (hturn _ _ _ _ hu hs) (by omega)
    · rename_i u hu; cases h; exact hturn _ _ _ _ hu hs
    · cases h
    · cases h

/-! ## Starts -/

theorem SlotMove.cursorWf {k : Slot} {c c' : Cursor} {i : Instr} (h : SlotMove k c i c')
    (hc : Machine.cursorWf c = true) : Machine.cursorWf c' = true := by
  rw [cursorWf_iff] at hc ⊢
  intro hlive'
  cases h with
  | opened hspace => exact ⟨Nat.zero_le _, hspace⟩
  | next hlive hfits | nextm hlive hfits =>
    rw [Cursor.advance_off_toNat hfits]
    exact ⟨hfits, (hc hlive).2⟩
  | rem | remm => cases hlive'

/-- The accesses of a command that passed its tests stay inside the address space (R50). -/
theorem AccessJob.jobWf {i : Instr} {j : Job} (h : AccessJob i j) : Machine.jobWf j = true := by
  cases h with
  | fget _ hspace => exact (inSpace_iff _ _).2 hspace
  | fput hl hspace _ => exact (inSpace_iff _ _).2 (by rwa [layout_putField_length hl])
  | fputNibble hl hspace hsub =>
    rw [layout_width_subByte hl hsub] at hspace
    exact Bool.and_eq_true_iff.2 ⟨hsub, (inSpace_iff _ _).2 hspace⟩
  | csum hspace => exact (inSpace_iff _ _).2 hspace
  | ioR8 hspace | ioR32 hspace | ioW8 hspace | ioW32 hspace => exact (inSpace_iff _ _).2 hspace

theorem StartsAs.jobWf {i : Instr} {s : State} {b : Started} (h : StartsAs i s b) : Machine.jobWf b.job = true := by
  cases h with
  | rejects => simp [reject, Machine.jobWf]
  | answers | moves | allocates => simp [done, Machine.jobWf]
  | accesses hj => exact hj.jobWf

theorem StartsAs.blockInv {i : Instr} {s : State} {b : Started} (h : StartsAs i s b) (hs : s.BlockInv) :
    b.state.BlockInv := by
  cases h with
  | rejects | answers | accesses => exact hs
  | @moves k c hmove r =>
    refine ⟨hs.config, hs.watermark, fun j => ?_, hs.memory⟩
    change Machine.cursorWf ((s.setSlot k c).slot j) = true
    by_cases hjk : j = k
    · subst hjk
      rw [State.slot_setSlot_same]
      exact hmove.cursorWf (hs.slots j)
    · rw [State.slot_setSlot_other s k j c hjk]
      exact hs.slots j
  | @allocates pages hi hlimit r =>
    have hwm : (s.setWm (s.wm.toNat + pages.toNat * 4096)).wm.toNat = s.wm.toNat + pages.toNat * 4096 :=
      s.setWm_toNat_of_le (hlimit.trans (configWf_limits hs.config).2)
    refine ⟨hs.config, ?_, hs.slots, hs.memory⟩
    change s.cfg.imageEnd ≤ (s.setWm (s.wm.toNat + pages.toNat * 4096)).wm.toNat ∧
      (s.setWm (s.wm.toNat + pages.toNat * 4096)).wm.toNat ≤ s.cfg.dmaLimit
    rw [hwm]
    exact ⟨hs.watermark.1.trans (Nat.le_add_right _ _), hlimit⟩

theorem startPacket_blockInv (p : Packet) {s : State} (hs : s.BlockInv) : (startPacket p s).state.BlockInv := by
  unfold startPacket
  split
  · exact (start_startsAs _ s).blockInv hs
  · exact hs

theorem startPacket_jobWf (p : Packet) (s : State) : jobWf (startPacket p s).job = true := by
  unfold startPacket
  split
  · exact (start_startsAs _ s).jobWf
  · simp [reject, jobWf]

/-- A packet's start changes no more than `WM` and `CUR`. -/
theorem startPacket_state (p : Packet) (s : State) :
    (startPacket p s).state = { s with wm := (startPacket p s).state.wm, cur := (startPacket p s).state.cur } := by
  unfold startPacket
  split
  · exact start_state _ s
  · rfl

/-! ## The list of commands in progress -/

/-- A turn leaves a port's entry, with what is left of its command, or takes the entry away. -/
theorem mem_putJob {port : Nat} {j : Option Job} {g : Flight} : ∀ {fs : List Flight}, g ∈ putJob fs port j →
    g ∈ fs ∨ (∃ f ∈ fs, f.port = port) ∧ g.port = port ∧ j = some g.job
  | [], h => by cases h
  | f :: fs, h => by
    have ih := mem_putJob (port := port) (j := j) (g := g) (fs := fs)
    by_cases hf : f.port = port
    · cases j with
      | none =>
        simp only [putJob, hf, if_true] at h
        obtain hg | ⟨-, -, hj⟩ := ih h
        · exact .inl (List.mem_cons_of_mem _ hg)
        · cases hj
      | some j =>
        simp only [putJob, hf, if_true, List.mem_cons] at h
        obtain rfl | h := h
        · exact .inr ⟨⟨f, List.mem_cons_self, hf⟩, rfl, rfl⟩
        · obtain hg | ⟨⟨f', hf', hp⟩, hg⟩ := ih h
          · exact .inl (List.mem_cons_of_mem _ hg)
          · exact .inr ⟨⟨f', List.mem_cons_of_mem _ hf', hp⟩, hg⟩
    · simp only [putJob, hf, if_false, List.mem_cons] at h
      obtain rfl | h := h
      · exact .inl List.mem_cons_self
      · obtain hg | ⟨⟨f', hf', hp⟩, hg⟩ := ih h
        · exact .inl (List.mem_cons_of_mem _ hg)
        · exact .inr ⟨⟨f', List.mem_cons_of_mem _ hf', hp⟩, hg⟩

/-- The ports of the list after a turn are those before it, in their order, less the port whose command is gone. -/
theorem putJob_ports_sublist (port : Nat) (j : Option Job) : ∀ fs : List Flight,
    List.Sublist ((putJob fs port j).map Flight.port) (fs.map Flight.port)
  | [] => .slnil
  | f :: fs => by
    have ih := putJob_ports_sublist port j fs
    by_cases hf : f.port = port
    · cases j with
      | none => simpa [putJob, hf] using ih.cons port
      | some j => simpa [putJob, hf] using ih.cons_cons port
    · simpa [putJob, hf] using ih.cons_cons f.port

theorem mem_of_jobIn {fs : List Flight} {port : Nat} {j : Job} (h : jobIn fs port = some j) : ⟨port, j⟩ ∈ fs := by
  induction fs with
  | nil => cases h
  | cons f fs ih =>
    by_cases hf : f.port = port
    · simp only [jobIn, hf, if_true, Option.some_inj] at h
      rw [← hf, ← h]
      exact List.mem_cons_self
    · simp only [jobIn, hf, if_false] at h
      exact List.mem_cons_of_mem _ (ih h)

theorem flightListWf.nil (n : Nat) : flightListWf n [] := ⟨fun _ h => (List.not_mem_nil h).elim, List.nodup_nil⟩

theorem flightListWf.putJob {n port : Nat} {fs : List Flight} (h : flightListWf n fs) {j : Option Job}
    (hj : ∀ r, j = some r → jobWf r = true) : flightListWf n (Machine.putJob fs port j) := by
  refine ⟨fun g hg => ?_, h.2.sublist (putJob_ports_sublist port j fs)⟩
  obtain hg | ⟨⟨f, hf, hport⟩, hgport, hjg⟩ := mem_putJob hg
  · exact h.1 g hg
  · exact ⟨by rw [hgport, ← hport]; exact (h.1 f hf).1, hj _ hjg⟩

theorem flightListWf.launch {n port : Nat} {fs : List Flight} (h : flightListWf n fs) (hport : port < n)
    (hfree : jobIn fs port = none) {j : Job} (hj : jobWf j = true) : flightListWf n (fs ++ [⟨port, j⟩]) := by
  refine ⟨fun g hg => ?_, ?_⟩
  · obtain hg | hg := List.mem_append.1 hg
    · exact h.1 g hg
    · rw [List.mem_singleton.1 hg]; exact ⟨hport, hj⟩
  · rw [List.map_append, List.map_singleton, List.nodup_append]
    refine ⟨h.2, List.nodup_singleton _, fun p hp q hq => ?_⟩
    obtain ⟨f, hf, rfl⟩ := List.mem_map.1 hp
    rw [List.mem_singleton.1 hq]
    exact jobIn_eq_none.1 hfree f hf

/-! ## Steps -/

theorem State.BlockInv.afterEnvStore {s : State} (h : s.BlockInv) (a : Nat) (b : Byte) : (s.envStore a b).BlockInv := by
  unfold State.envStore
  split
  · rename_i ha; exact ⟨h.config, h.watermark, h.slots, h.memory.store ha b⟩
  · exact h

theorem State.BlockInv.afterReset {s : State} (h : s.BlockInv) : s.applyReset.BlockInv where
  config := h.config
  watermark := by
    rw [State.applyReset_wm_toNat h.config]
    exact ⟨le_refl _, (configWf_limits h.config).1⟩
  slots k := by rw [State.slot_applyReset]; rfl
  memory := h.memory

/-- What a turn of a port can change. -/
theorem takeTurn_frame {s u : State} {port : Nat} (h : s.takeTurn port = .next u) :
    u = { s with mem := u.mem, flights := u.flights, port := u.port, trace := u.trace, draws := u.draws } := by
  obtain ⟨-, rfl⟩ | ⟨j, j', t, -, ht, rfl⟩ := takeTurn_cases h
  · rfl
  · rw [Job.turn_frame ht]

theorem takeTurn_inv {s u : State} {port : Nat} (h : s.takeTurn port = .next u) (hs : s.inv = true) : u.inv = true := by
  obtain ⟨-, rfl⟩ | ⟨j, j', t, hj, ht, rfl⟩ := takeTurn_cases h
  · exact hs
  · obtain ⟨hblock, hflights⟩ := (State.inv_iff s).1 hs
    have hframe := Job.turn_frame ht
    have hcfg : t.cfg = s.cfg := by rw [hframe]
    have hfl : t.flights = s.flights := by rw [hframe]
    have hjob : jobWf j = true := (hflights.1 _ (mem_of_jobIn hj)).2
    refine (State.inv_iff _).2 ⟨(Job.turn_blockInv ht (hblock.congr rfl rfl rfl hblock.memory)).congr rfl rfl rfl ?_, ?_⟩
    · exact (Job.turn_blockInv ht (hblock.congr rfl rfl rfl hblock.memory)).memory
    · change flightListWf t.cfg.nport (putJob t.flights port j')
      rw [hcfg, hfl]
      exact hflights.putJob fun r hr => Job.turn_jobWf (hr ▸ ht) hjob

/-- A packet run to its response keeps the block's part of the invariant, and the commands in progress as they are. -/
theorem runPacket_inv {p : Packet} {s u : State} (h : runPacket p s = .next u) (hs : s.inv = true) : u.inv = true := by
  rw [runPacket_eq_complete] at h
  obtain ⟨hblock, hflights⟩ := (State.inv_iff s).1 hs
  have hu := Job.finish_frame h
  rw [startPacket_state] at hu
  refine (State.inv_iff u).2 ⟨?_, ?_⟩
  · exact Job.finish_induct (fun _ _ _ _ => Job.turn_blockInv) h (startPacket_blockInv p hblock)
  · rw [hu]; exact hflights

/-! ## The watermark (R193) -/

/-- No command lowers the watermark. -/
theorem StartsAs.wm_le {i : Instr} {s : State} {b : Started} (h : StartsAs i s b) (hlimit : s.cfg.dmaLimit ≤ 2 ^ 64) :
    s.wm.toNat ≤ b.state.wm.toNat := by
  cases h with
  | rejects | answers | moves | accesses => exact le_refl _
  | @allocates pages hi hfits r =>
    have hwm := s.setWm_toNat_of_le (hfits.trans hlimit)
    exact (Nat.le_add_right _ _).trans hwm.ge

theorem startPacket_wm_le (p : Packet) {s : State} (hlimit : s.cfg.dmaLimit ≤ 2 ^ 64) :
    s.wm.toNat ≤ (startPacket p s).state.wm.toNat := by
  unfold startPacket
  split
  · exact (start_startsAs _ s).wm_le hlimit
  · exact le_refl _

/-- No step lowers the watermark that does not take a reset. -/
theorem step_wm_le {s t : State} (hcfg : configWf s.cfg = true) (h : step s = .next t)
    (hreset : ∀ rest, s.input ≠ .reset :: rest) : s.wm.toNat ≤ t.wm.toNat := by
  have hlimit := (configWf_limits hcfg).2
  obtain ⟨-, -, rfl⟩ | ⟨port, s', hs', hturn⟩ | ⟨port, p, rest, -, -, -, hrun⟩ | ⟨port, p, rest, -, -, -, rfl⟩ |
    ⟨a, b, rest, -, rfl⟩ | ⟨rest, hi, -⟩ := step_cases h
  · exact le_refl _
  · rw [takeTurn_frame hturn]
    obtain rfl | ⟨rest, -, rfl⟩ := hs'
    · exact le_refl _
    · exact le_refl _
  · rw [runPacket_eq_complete] at hrun
    rw [Job.finish_frame hrun]
    exact startPacket_wm_le p (s := s.serving port rest) hlimit
  · exact startPacket_wm_le p (s := s.serving port rest) hlimit
  · rw [State.envStore_wm]
  · exact absurd hi (hreset rest)

end Sys2Proof.Machine
end

section
/-! The obligations of the invariant (R23, R24, R52): the state after reset meets it, every step keeps it, and no step but
a reset lowers the watermark (R193). -/

namespace Sys2Proof.Machine

/-- Settles O2: every field is one of the definition; 65 bits hold `IMAGE_END` uncut. -/
theorem stateAfterResetHoldsTheResetValues : Obligations.StateAfterResetHoldsTheResetValues := by
  refine ⟨fun c hc => ⟨rfl, ?_, fun k => ?_, rfl, rfl, rfl, rfl, rfl, rfl⟩, rfl, rfl⟩
  · exact State.applyReset_wm_toNat (s := State.resetOf c) hc
  · exact State.slot_applyReset (State.resetOf c) k

theorem resetOf_inv {c : Config} (hc : configWf c = true) : (State.resetOf c).inv = true := by
  refine (State.inv_iff _).2 ⟨?_, .nil _⟩
  refine ⟨hc, ?_, fun k => ?_, rfl, rfl⟩
  · have hwm : (State.resetOf c).wm.toNat = c.imageEnd := State.applyReset_wm_toNat (s := State.resetOf c) hc
    rw [hwm]
    exact ⟨le_refl _, (configWf_limits hc).1⟩
  · rw [show (State.resetOf c).slot k = Cursor.empty from State.slot_applyReset (State.resetOf c) k]
    rfl

/-- Settles O3: the configuration of `State.reset` is within R8's constraints, and so the second part is the first. -/
theorem stateAfterResetMeetsTheInvariant : Obligations.StateAfterResetMeetsTheInvariant :=
  ⟨resetOf_inv (by decide), fun _ => resetOf_inv⟩

/-- Settles O4: event by event, each part of the invariant by what the event can change. -/
theorem everyStepKeepsTheInvariant : Obligations.EveryStepKeepsTheInvariant := by
  intro s t hs hstep
  obtain ⟨hblock, hflights⟩ := (State.inv_iff s).1 hs
  have hrest (rest : List Event) : ({ s with input := rest } : State).inv = true := hs
  obtain ⟨-, -, rfl⟩ | ⟨port, s', hs', hturn⟩ | ⟨port, p, rest, -, -, -, hrun⟩ | ⟨port, p, rest, -, hport, hfree, rfl⟩ |
    ⟨a, b, rest, -, rfl⟩ | ⟨rest, -, rfl⟩ := step_cases hstep
  · exact hs
  · refine takeTurn_inv hturn ?_
    obtain rfl | ⟨rest, -, rfl⟩ := hs'
    · exact hs
    · exact hrest rest
  · exact runPacket_inv hrun hs
  · have hblock' := startPacket_blockInv p (s := s.serving port rest) (hblock.congr rfl rfl rfl hblock.memory)
    refine (State.inv_iff _).2 ⟨hblock'.congr rfl rfl rfl hblock'.memory, ?_⟩
    rw [Started.launch_cfg, Started.launch_flights, startPacket_state]
    exact hflights.launch hport hfree (startPacket_jobWf p _)
  · obtain ⟨hblock', hflights'⟩ := (State.inv_iff _).1 (hrest rest)
    refine (State.inv_iff _).2 ⟨hblock'.afterEnvStore a b, ?_⟩
    rw [State.envStore_cfg, State.envStore_flights]
    exact hflights'
  · obtain ⟨hblock', -⟩ := (State.inv_iff _).1 (hrest rest)
    exact (State.inv_iff _).2 ⟨hblock'.afterReset, .nil _⟩

/-- Settles O46: no event but a reset lowers the watermark. -/
theorem watermarkNeverFallsButByReset : Obligations.WatermarkNeverFallsButByReset :=
  fun _ _ hcfg hstep hhead => step_wm_le hcfg hstep fun rest hi => hhead (by rw [hi]; rfl)

end Sys2Proof.Machine
end

section
/-! SUPPORT. The encoder and the decoder against each other (R80), and the numeric reading of a legal packet as one that
decodes. -/

namespace Sys2Proof

/-! ## Decoding what was encoded -/

/-- The encoding of `FPUT` (R75, R76, R118). -/
theorem decode_fput {t : HdrType} {f : Field} (h : t.hasField f = true) (addr v : Word) :
    decode { cw := commandWord Opcode.fput.code t.sel 0 (t.fieldSel f), a0 := addr, a1 := v } = .ok (.fput t f addr v) := by
  refine (decode_of_commandWord rfl (absurd · (by decide)) (fun _ => rfl) (absurd · (by decide))).1 _ ?_ rfl
  simp [Packet.assemble, Packet.tField, Packet.fField, HdrType.fieldOfSel_fieldSel t f h]

/-- A command without selectors: its command word is its opcode, and its operand words are put together again. -/
theorem decode_encode_of_pattern {i : Instr} (hcw : (encode i).cw = i.opcode.pattern)
    (ha : (encode i).assemble i.opcode = some i) (hn : (encode i).operandsZeroFrom i.operandCount = true) :
    decode (encode i) = .ok i := decode_of_pattern hcw ha hn

theorem decode_encode {i : Instr} (h : i.wf = true) : decode (encode i) = .ok i := by
  cases i with
  | fget t f addr => exact decode_fget h addr
  | fput t f addr v => exact decode_fput h addr v
  | hdrSize t => exact decode_hdrSize t
  | curOpen k base len => have h := decode_curOpen k base len; rwa [Opcode.pattern_or_slot] at h
  | curNext k v => have h := decode_curNext k v; rwa [Opcode.pattern_or_t_or_slot] at h
  | curNextm k v => have h := decode_curNextm k v; rwa [Opcode.pattern_or_t_or_slot] at h
  | curRem k => have h := decode_curRem k; rwa [Opcode.pattern_or_slot] at h
  | curRemm k => have h := decode_curRemm k; rwa [Opcode.pattern_or_slot] at h
  | _ => exact decode_encode_of_pattern rfl rfl rfl

end Sys2Proof

namespace Sys2Proof.Machine

/-! ## Encoding what was decoded -/

/-- Two packets are equal that agree in the command word and the first `n` operand words, and have no others. -/
theorem Packet.eq_of_operands {p q : Packet} {n : Nat} (hp : p.operandsZeroFrom n = true)
    (hq : q.operandsZeroFrom n = true) (hcw : p.cw = q.cw)
    (hops : (List.range n).map p.operand = (List.range n).map q.operand) : p = q := by
  have hall (j : Nat) : p.operand j = q.operand j := by
    by_cases hj : j < n
    · exact List.map_inj_left.1 hops j (List.mem_range.2 hj)
    · rw [Packet.operand_of_operandsZeroFrom hp (Nat.le_of_not_lt hj),
        Packet.operand_of_operandsZeroFrom hq (Nat.le_of_not_lt hj)]
  obtain ⟨cw, a0, a1, a2, a3, a4, a5⟩ := p
  obtain ⟨cw', b0, b1, b2, b3, b4, b5⟩ := q
  simp only [Packet.mk.injEq]
  exact ⟨hcw, hall 0, hall 1, hall 2, hall 3, hall 4, hall 5⟩

/-- The encoder leaves every operand word zero that the command does not use (R81). -/
theorem encode_operandsZeroFrom (i : Instr) : (encode i).operandsZeroFrom i.operandCount = true := by
  cases i with
  | curNext k v | curNextm k v => cases v <;> rfl
  | _ => rfl

/-- Step 3 of R80, field by field. -/
theorem Packet.field_eq_zero {p : Packet} {op : Opcode} (h : p.unusedFieldSet op = false) :
    (op.usesT = false → p.tField = 0) ∧ (op.usesK = false → p.kField = 0) ∧ (op.usesF = false → p.fField = 0) := by
  obtain ⟨ht, hk, hf⟩ := Packet.unusedFieldSet_eq_false h
  exact ⟨fun hn => BitVec.eq_of_toNat_eq (ht hn), fun hn => BitVec.eq_of_toNat_eq (hk hn),
    fun hn => BitVec.eq_of_toNat_eq (hf hn)⟩

/-- A command that is put together from a packet is well formed, is of the packet's opcode, and is encoded with the packet's
selectors and the operand words it uses. -/
theorem encode_of_assemble {p : Packet} {op : Opcode} {i : Instr} (hu : p.unusedFieldSet op = false)
    (ha : p.assemble op = some i) :
    i.wf = true ∧ i.opcode = op ∧ (encode i).cw = commandWord op.code p.tField p.kField p.fField ∧
      (List.range i.operandCount).map (encode i).operand = (List.range i.operandCount).map p.operand := by
  obtain ⟨ht, hk, hf⟩ := Packet.field_eq_zero hu
  cases op with
  | fget | fput =>
    obtain ⟨t, htype, hrest⟩ := Option.bind_eq_some_iff.1 ha
    obtain ⟨f, hfield, rfl⟩ := Option.map_eq_some_iff.1 hrest
    obtain ⟨hsel, hwf⟩ := HdrType.fieldSel_of_fieldOfSel hfield
    refine ⟨hwf, rfl, ?_, rfl⟩
    rw [hk rfl, ← HdrType.sel_of_ofSel htype, ← hsel]
    rfl
  | hdrSize =>
    obtain ⟨t, htype, rfl⟩ := Option.map_eq_some_iff.1 ha
    refine ⟨rfl, rfl, ?_, rfl⟩
    rw [hk rfl, hf rfl, ← HdrType.sel_of_ofSel htype]
    rfl
  | curOpen | curRem | curRemm =>
    obtain ⟨k, hslot, rfl⟩ := Option.map_eq_some_iff.1 ha
    refine ⟨rfl, rfl, ?_, rfl⟩
    rw [ht rfl, hf rfl, ← slotSel_of_slotOfSel hslot]
    rfl
  | curNext | curNextm =>
    obtain ⟨k, hslot, hrest⟩ := Option.bind_eq_some_iff.1 ha
    obtain ⟨v, hview, rfl⟩ := Option.map_eq_some_iff.1 hrest
    obtain ⟨hsel, hsize⟩ := ViewType.sel_of_ofSel hview
    refine ⟨rfl, rfl, ?_, ?_⟩
    · rw [hf rfl, ← slotSel_of_slotOfSel hslot, ← hsel]
      rfl
    · cases v with
      | hdr t => rfl
      | raw size => rw [hsize size rfl]; rfl
  | _ =>
    cases ha
    refine ⟨rfl, rfl, ?_, rfl⟩
    rw [ht rfl, hk rfl, hf rfl]
    rfl

theorem encode_of_decode {p : Packet} {i : Instr} (h : decode p = .ok i) :
    i.wf = true ∧ encode i = p ∧ i.opcode.code = p.opField := by
  obtain ⟨hz, op, hop, hu, ha, hzero⟩ := decode_eq_ok h
  obtain ⟨hwf, rfl, hcw, hops⟩ := encode_of_assemble hu ha
  have hcode := Opcode.code_of_ofCode hop
  refine ⟨hwf, Packet.eq_of_operands (encode_operandsZeroFrom i) hzero ?_ hops, hcode⟩
  rw [hcw, hcode]
  exact commandWord_of_fields p.cw hz

/-! ## Legal packets decode (R74 to R77, R80, R81) -/

theorem HdrType.exists_of_le {b : BitVec 4} (h : b.toNat ≤ 5) : ∃ t, HdrType.ofSel b = some t := by
  rw [← Option.isSome_iff_exists]
  revert b; decide

theorem slotOfSel_of_lt {b : BitVec 4} (h : b.toNat < 4) : slotOfSel b = some ⟨b.toNat, h⟩ := dif_pos h

theorem ViewType.exists_of_legal {b : BitVec 4} (h : b.toNat ≤ 5 ∨ b.toNat = 15) (w : Word) :
    ∃ v, ViewType.ofSel b w = some v := by
  unfold ViewType.ofSel
  split
  · exact ⟨_, rfl⟩
  · rename_i hraw
    obtain hle | heq := h
    · obtain ⟨t, ht⟩ := HdrType.exists_of_le hle
      exact ⟨.hdr t, by rw [ht]; rfl⟩
    · exact absurd (BitVec.eq_of_toNat_eq heq) hraw

/-- Every number in the range `fLegal` gives for a header type is a selector of R76's table. -/
theorem HdrType.exists_field_of_fLegal {op : Opcode} (hop : op.usesF = true) (t : HdrType) {c : BitVec 8}
    (h : fLegal op t.sel.toNat c.toNat) : ∃ f, t.fieldOfSel c = some f := by
  unfold fLegal at h
  rw [if_pos hop] at h
  have hc : c = BitVec.ofNat 8 c.toNat := BitVec.eq_of_toNat_eq (by simp)
  rw [← Option.isSome_iff_exists, hc]
  generalize c.toNat = n at h
  cases t with
  | eth => exact (by decide : ∀ n ≤ 2, (HdrType.eth.fieldOfSel (BitVec.ofNat 8 n)).isSome = true) n h
  | arp => exact (by decide : ∀ n ≤ 8, (HdrType.arp.fieldOfSel (BitVec.ofNat 8 n)).isSome = true) n h
  | ip =>
    obtain h | rfl | rfl := h
    · exact (by decide : ∀ n ≤ 9, (HdrType.ip.fieldOfSel (BitVec.ofNat 8 n)).isSome = true) n h
    · rfl
    · rfl
  | udp => exact (by decide : ∀ n ≤ 3, (HdrType.udp.fieldOfSel (BitVec.ofNat 8 n)).isSome = true) n h
  | tcp => exact (by decide : ∀ n ≤ 8, (HdrType.tcp.fieldOfSel (BitVec.ofNat 8 n)).isSome = true) n h
  | icmp => exact (by decide : ∀ n ≤ 4, (HdrType.icmp.fieldOfSel (BitVec.ofNat 8 n)).isSome = true) n h

/-- Step 4 passes for legal selectors. -/
theorem Packet.exists_assemble {p : Packet} {op : Opcode} (ht : tLegal op p.tField.toNat) (hk : kLegal op p.kField.toNat)
    (hf : fLegal op p.tField.toNat p.fField.toNat) : ∃ i, p.assemble op = some i := by
  rw [← Option.isSome_iff_exists]
  cases op with
  | fget | fput =>
    obtain ⟨t, htype⟩ := HdrType.exists_of_le ht
    rw [← HdrType.sel_of_ofSel htype] at hf
    obtain ⟨f, hfield⟩ := HdrType.exists_field_of_fLegal rfl t hf
    simp only [Packet.assemble, htype, Option.bind_some, hfield, Option.map_some, Option.isSome_some]
  | hdrSize =>
    obtain ⟨t, htype⟩ := HdrType.exists_of_le ht
    simp only [Packet.assemble, htype, Option.map_some, Option.isSome_some]
  | curOpen | curRem | curRemm =>
    simp only [Packet.assemble, slotOfSel_of_lt hk, Option.map_some, Option.isSome_some]
  | curNext | curNextm =>
    obtain ⟨v, hview⟩ := ViewType.exists_of_legal ht p.a0
    simp only [Packet.assemble, slotOfSel_of_lt hk, Option.bind_some, hview, Option.map_some, Option.isSome_some]
  | _ => rfl

/-- Step 3 passes for legal selectors. -/
theorem Packet.unusedFieldSet_of_legal {p : Packet} {op : Opcode} (ht : tLegal op p.tField.toNat)
    (hk : kLegal op p.kField.toNat) (hf : fLegal op p.tField.toNat p.fField.toNat) : p.unusedFieldSet op = false := by
  have ht0 (hn : op.usesT = false) : p.tField = 0 := by
    apply BitVec.eq_of_toNat_eq
    cases op with
    | fget | fput | hdrSize | curNext | curNextm => cases hn
    | _ => exact ht
  have hk0 (hn : op.usesK = false) : p.kField = 0 := by
    rw [kLegal, hn] at hk
    exact BitVec.eq_of_toNat_eq hk
  have hf0 (hn : op.usesF = false) : p.fField = 0 := by
    unfold fLegal at hf
    rw [if_neg (by simp [hn])] at hf
    exact BitVec.eq_of_toNat_eq hf
  simp only [Packet.unusedFieldSet, Bool.or_eq_false_iff, Bool.and_eq_false_imp, Bool.not_eq_true', bne_eq_false_iff_eq]
  exact ⟨⟨ht0, hk0⟩, hf0⟩

/-- Step 5 passes where every operand word from `A[n]` on is zero. -/
theorem Packet.operandsZeroFrom_of_operand {p : Packet} {n : Nat} (h : ∀ j, n ≤ j → p.operand j = 0) :
    p.operandsZeroFrom n = true := by
  refine List.all_eq_true.2 fun j _ => ?_
  by_cases hj : j < n
  · simp [hj]
  · simp [h j (Nat.le_of_not_lt hj)]

theorem decode_of_legalFor {p : Packet} {op : Opcode} (h : legalFor p op) : ∃ i, decode p = .ok i ∧ i.opcode = op := by
  obtain ⟨hop, hz, ht, hk, hf, hzero⟩ := h
  rw [← Packet.opField_toNat] at hop
  rw [← Packet.zField_toNat] at hz
  rw [← Packet.tField_toNat] at ht hf hzero
  rw [← Packet.kField_toNat] at hk
  rw [← Packet.fField_toNat] at hf
  have hu := Packet.unusedFieldSet_of_legal ht hk hf
  obtain ⟨i, ha⟩ := Packet.exists_assemble ht hk hf
  obtain ⟨-, -, -, hcount⟩ := Packet.assemble_legal hu ha
  obtain ⟨-, hopcode, -, -⟩ := encode_of_assemble hu ha
  have hz0 : p.zField = 0 := BitVec.eq_of_toNat_eq hz
  have hcode : Opcode.ofCode p.opField = some op := by
    rw [BitVec.eq_of_toNat_eq hop, Opcode.ofCode_code]
  have hn : p.operandsZeroFrom i.operandCount = true :=
    Packet.operandsZeroFrom_of_operand fun j hj => hzero j (hcount ▸ hj)
  exact ⟨i, by simp [decode, hz0, hcode, hu, ha, hn], hopcode⟩

/-! ## The mask and the match of the opcode table (R84) -/

/-- The command word of every well-formed command has the fixed bits of its row. -/
theorem encode_cw_and_mask {i : Instr} (h : i.wf = true) : (encode i).cw &&& i.opcode.mask = i.opcode.pattern := by
  revert h
  change Laws.EncodedWord.Statement i
  cases i with
  | fget t f addr => exact Laws.EncodedWord.fget t f addr
  | fput t f addr v => exact Laws.EncodedWord.fput t f addr v
  | hdrSize t => exact Laws.EncodedWord.hdrSize t
  | clsRtype v => exact Laws.EncodedWord.clsRtype v
  | clsProto v => exact Laws.EncodedWord.clsProto v
  | tfUnion a b => exact Laws.EncodedWord.tfUnion a b
  | tfInter a b => exact Laws.EncodedWord.tfInter a b
  | tfContains a b => exact Laws.EncodedWord.tfContains a b
  | tfDec b => exact Laws.EncodedWord.tfDec b
  | csum addr len seed => exact Laws.EncodedWord.csum addr len seed
  | curOpen k base len => exact Laws.EncodedWord.curOpen k base len
  | curNext k v => exact Laws.EncodedWord.curNext k v
  | curNextm k v => exact Laws.EncodedWord.curNextm k v
  | curRem k => exact Laws.EncodedWord.curRem k
  | curRemm k => exact Laws.EncodedWord.curRemm k
  | dmaAlloc pages => exact Laws.EncodedWord.dmaAlloc pages
  | dmaAllocb pages => exact Laws.EncodedWord.dmaAllocb pages
  | toPaddr vaddr => exact Laws.EncodedWord.toPaddr vaddr
  | qLayout base len d a u => exact Laws.EncodedWord.qLayout base len d a u
  | ioR8 base len off => exact Laws.EncodedWord.ioR8 base len off
  | ioR32 base len off => exact Laws.EncodedWord.ioR32 base len off
  | ioW8 base len off value => exact Laws.EncodedWord.ioW8 base len off value
  | ioW32 base len off value => exact Laws.EncodedWord.ioW32 base len off value
  | ioPaddr base len => exact Laws.EncodedWord.ioPaddr base len
  | ioVaddr base len => exact Laws.EncodedWord.ioVaddr base len

theorem Opcode.mask_setWidth (op : Opcode) : op.mask.setWidth 8 = BitVec.allOnes 8 := by
  cases op <;> decide

/-- Every mask has the byte of `OP`, so a row selects no word with another `OP`. -/
theorem Opcode.code_of_and_mask {w : BitVec 32} {op : Opcode} (h : w &&& op.mask = op.pattern) :
    op.code = w.setWidth 8 := by
  have hlow := congrArg (BitVec.setWidth 8) h
  rw [BitVec.setWidth_and, Opcode.mask_setWidth, BitVec.and_allOnes, Opcode.pattern,
    BitVec.setWidth_setWidth_of_le _ (by decide), BitVec.setWidth_eq] at hlow
  exact hlow.symm

/-! ## Classification (R110, R111) -/

/-- The variant code of R110 as a word, by the operand as a word. -/
theorem clsRtype_code (v : Word) :
    (clsRtype v.toNat).code = if v = 0x0800 then 0 else if v = 0x0806 then 1 else 255 := by
  have hip : v = 0x0800 ↔ v.toNat = 0x0800 := BitVec.toNat_inj.symm
  have harp : v = 0x0806 ↔ v.toNat = 0x0806 := BitVec.toNat_inj.symm
  simp only [clsRtype, apply_ite EthRtype.code, hip, harp]
  rfl

/-- The variant code of R111 as a word, by the operand as a word. -/
theorem clsProto_code (v : Word) :
    (clsProto v.toNat).code =
      if v = 1 then 0 else if v = 2 then 1 else if v = 6 then 2 else if v = 17 then 3 else 255 := by
  have hicmp : v = 1 ↔ v.toNat = 1 := BitVec.toNat_inj.symm
  have higmp : v = 2 ↔ v.toNat = 2 := BitVec.toNat_inj.symm
  have htcp : v = 6 ↔ v.toNat = 6 := BitVec.toNat_inj.symm
  have hudp : v = 17 ↔ v.toNat = 17 := BitVec.toNat_inj.symm
  simp only [clsProto, apply_ite IpProtocal.code, hicmp, higmp, htcp, hudp]
  rfl

end Sys2Proof.Machine
end

section
/-! The obligations of the encoding (R72 to R77, R80 to R84) and of the two classification commands (R119, R120). -/

namespace Sys2Proof.Machine

/-- Settles O5. -/
theorem decodingTheEncodedCommandGivesItBack : Obligations.DecodingTheEncodedCommandGivesItBack :=
  fun _ => decode_encode

/-- Settles O6: the encoder puts the selectors back that the decoder read, and the words neither uses are zero. -/
theorem encodingTheDecodedPacketGivesItBack : Obligations.EncodingTheDecodedPacketGivesItBack := by
  intro p i h
  obtain ⟨hwf, hencode, -⟩ := encode_of_decode h
  exact ⟨hwf, hencode⟩

/-- Settles O7: a legal packet passes the five steps; one that decodes is legal for some opcode, and `OP` says which. -/
theorem decoderAcceptsExactlyTheLegalPackets : Obligations.DecoderAcceptsExactlyTheLegalPackets := by
  refine fun p op => ⟨decode_of_legalFor, ?_⟩
  rintro ⟨i, h, rfl⟩
  obtain ⟨op, hlegal⟩ := legalFor_of_decode h
  obtain ⟨i', h', rfl⟩ := decode_of_legalFor hlegal
  cases h.symm.trans h'
  exact hlegal

/-- Settles O8: a decoded packet is an encoding; and the byte of `OP` is in every mask. -/
theorem maskAndMatchSelectTheCommand : Obligations.MaskAndMatchSelectTheCommand := by
  refine ⟨fun p i h => ?_, fun w op op' hop hop' => Opcode.code_injective ?_⟩
  · obtain ⟨hwf, rfl, -⟩ := encode_of_decode h
    exact encode_cw_and_mask hwf
  · rw [Opcode.code_of_and_mask hop, Opcode.code_of_and_mask hop']

/-- Settles O9: the decoder evaluated on the five packets. -/
theorem wordsWrittenOutDecodeToTheirCommands : Obligations.WordsWrittenOutDecodeToTheirCommands :=
  ⟨by decide, by decide, by decide, by decide, by decide⟩

/-- Settles O25: the test on the operand, and the variant code by the operand's value. -/
theorem clsRtypeClassifiesTheEthernetType : Obligations.ClsRtypeClassifiesTheEthernetType := by
  refine fun s v => ⟨decode_of_pattern (op := .clsRtype) rfl rfl rfl, ?_⟩
  rw [← clsRtype_code]
  exact complete_of_test (fits_iff v 16) s _

/-- Settles O26: the test on the operand, and the variant code by the operand's value. -/
theorem clsProtoClassifiesTheProtocolNumber : Obligations.ClsProtoClassifiesTheProtocolNumber := by
  refine fun s v => ⟨decode_of_pattern (op := .clsProto) rfl rfl rfl, ?_⟩
  rw [← clsProto_code]
  exact complete_of_test (fits_iff v 8) s _

end Sys2Proof.Machine
end

section
/-! SUPPORT. Turns and steps: what the last turn sends, that no turn depends on the port, what a turn of a port leaves in
progress, and a started command run through its turns. -/

namespace Sys2Proof.Machine

/-! ## The last turn and the others -/

/-- What a volatile read finds depends on the configuration, memory and the number of the draw. -/
theorem State.ioBytes_congr {s t : State} (hcfg : t.cfg = s.cfg) (hmem : t.mem = s.mem) (hdraws : t.draws = s.draws)
    (n : Nat) : ∀ a lane, t.ioBytes a lane n = s.ioBytes a lane n := by
  induction n with
  | zero => intro a lane; rfl
  | succ n ih =>
    intro a lane
    rw [State.ioBytes, State.ioBytes, ih, State.ioByte, State.ioByte, hcfg, hdraws,
      State.byteAt_congr (congrArg (Memory.lookup · a) hmem)]

/-- The turn that sends the response sends it whatever the state is, and a status other than `ST_OK` comes from a command
that has nothing else to do. -/
theorem Job.turn_last {j : Job} {s t : State} (h : j.turn s = .next (t, none)) :
    ∃ resp : Response, (∀ u : State, j.turn u = .next (u.respond resp.st resp.r, none)) ∧ j.turns = 1 ∧
      (resp.st ≠ .ok → j = .reply resp) := by
  cases j with
  | reads a n got use =>
    cases n with
    | zero => exact ⟨⟨.ok, use.results got⟩, fun _ => rfl, rfl, fun hst => absurd rfl hst⟩
    | succ n => simp only [Job.turn] at h; split at h <;> cases h
  | patch l a v => simp only [Job.turn] at h; split at h <;> cases h
  | writes a bs =>
    cases bs with
    | nil => exact ⟨⟨.ok, {}⟩, fun _ => rfl, rfl, fun hst => absurd rfl hst⟩
    | cons b bs => simp only [Job.turn] at h; split at h <;> cases h
  | ioRead a w => simp only [Job.turn] at h; split_ifs at h; cases h
  | ioWrite a w v => simp only [Job.turn] at h; split_ifs at h; cases h
  | reply resp => exact ⟨resp, fun _ => rfl, rfl, fun _ => rfl⟩

/-- An access does not depend on the port. -/
theorem Job.turn_port {j j' : Job} {s t : State} (h : j.turn s = .next (t, some j')) (p : Nat) :
    j.turn { s with port := p } = .next ({ t with port := p }, some j') := by
  cases j with
  | reads a n got use =>
    cases n with
    | zero => cases h
    | succ n =>
      simp only [Job.turn] at h ⊢
      split at h <;> cases h
      rename_i ha
      exact if_pos ha
  | patch l a v =>
    simp only [Job.turn] at h ⊢
    split at h <;> cases h
    rename_i ha
    exact if_pos ha
  | writes a bs =>
    cases bs with
    | nil => cases h
    | cons b bs =>
      simp only [Job.turn] at h ⊢
      split at h <;> cases h
      rename_i ha
      exact if_pos ha
  | ioRead a w =>
    simp only [Job.turn, State.afterIoRead] at h ⊢
    split_ifs at h with halign hreach
    cases h
    have hio := State.ioBytes_congr (s := s) (t := { s with port := p }) rfl rfl rfl w.bytes a 0
    rw [if_pos halign, if_pos hreach, hio]
  | ioWrite a w v =>
    simp only [Job.turn] at h ⊢
    split_ifs at h with halign hreach
    cases h
    rw [if_pos halign, if_pos hreach]
    rfl
  | reply resp => cases h

/-- A command that completes makes its accesses, then sends one response to its port; with another port noted it makes the
same accesses and sends the same response there (R71, R225). -/
theorem Job.finish_next {j : Job} {s t : State} (h : j.finish s = .next t) :
    ∃ (acc : List Action) (resp : Response), (∀ x ∈ acc, x.isAccess = true) ∧
      t.trace = s.trace ++ acc ++ [.reply s.port resp] ∧
      ∀ p, j.finish { s with port := p } =
        .next { t with port := p, trace := s.trace ++ acc ++ [.reply p resp] } := by
  induction hn : j.turns generalizing j s with
  | zero => cases j <;> simp [Job.turns] at hn
  | succ n ih =>
    rw [Job.finish_eq] at h
    split at h
    · rename_i u r hu
      obtain ⟨r', x, hr, hturns, hx, hframe⟩ | ⟨-, hr, -⟩ := Job.turn_next hu <;> cases hr
      obtain ⟨acc, resp, hacc, htrace, hport⟩ := ih h (by omega)
      have hutrace : u.trace = s.trace ++ [x] := by rw [hframe]
      have huport : u.port = s.port := by rw [hframe]
      refine ⟨x :: acc, resp, ?_, ?_, fun p => ?_⟩
      · exact List.forall_mem_cons.2 ⟨hx, hacc⟩
      · rw [htrace, hutrace, huport]; simp
      · rw [Job.finish_eq, Job.turn_port hu]
        exact (hport p).trans (by simp [hutrace])
    · rename_i u hu
      cases h
      obtain ⟨resp, hlast, -, -⟩ := Job.turn_last hu
      cases (hlast s).symm.trans hu
      refine ⟨[], resp, fun _ hx => (List.not_mem_nil hx).elim, by simp, fun p => ?_⟩
      rw [Job.finish_eq, hlast]
      simp [State.respond, State.record]
    · cases h
    · cases h

/-! ## A turn of a port -/

/-- The state after a turn of a port, with what is left of its command in progress. -/
def State.afterTurn (t : State) (port : Nat) (left : Option Job) : State :=
  { t with flights := putJob t.flights port left }

/-- What a turn of a port answers, by what the turn of its command does. -/
def resultOfTurn (port : Nat) : TurnResult → Result
  | .next (t, left) => .next (t.afterTurn port left)
  | .fault e => .fault e
  | .refused e => .refused e

section
variable {s t : State} {port : Nat} {j : Job} {rest : List Event}

theorem step_of_turn (hi : s.input = .turn port :: rest) : step s = State.takeTurn { s with input := rest } port := by
  simp only [step, takeEvent, hi]

theorem takeTurn_of_free (hj : s.jobOf port = none) : s.takeTurn port = .next s := by
  simp only [State.takeTurn, hj]

/-- A turn of a port with a command in progress. -/
theorem takeTurn_of_job (hj : s.jobOf port = some j) :
    s.takeTurn port = resultOfTurn port (j.turn { s with port := port }) := by
  simp only [State.takeTurn, hj]
  rcases j.turn { s with port := port } with ⟨t, left⟩ | e | e <;> rfl

/-- A step that is a turn of a command in progress, by what the turn leaves. -/
theorem step_of_turn_next (hi : s.input = .turn port :: rest) (hj : s.jobOf port = some j) {left : Option Job}
    (ht : j.turn { s with input := rest, port := port } = .next (t, left)) :
    step s = .next (t.afterTurn port left) ∧ (t.afterTurn port left).jobOf port = left ∧
      ∀ q, q ≠ port → (t.afterTurn port left).jobOf q = s.jobOf q := by
  have hflights : t.flights = s.flights := by rw [Job.turn_frame ht]
  have hj' : ({ s with input := rest } : State).jobOf port = some j := hj
  refine ⟨?_, ?_, fun q hq => ?_⟩
  · rw [step_of_turn hi, takeTurn_of_job hj']
    exact congrArg (resultOfTurn port) ht
  · refine jobIn_putJob_same left t.flights ?_
    rw [hflights, ← State.jobOf, hj]
    exact Option.some_ne_none j
  · rw [State.jobOf, State.jobOf, ← hflights]
    exact jobIn_putJob_other hq left t.flights

/-- A step that is a turn of a command in progress and completes. -/
theorem turn_of_step {u : State} (hi : s.input = .turn port :: rest) (hj : s.jobOf port = some j) (h : step s = .next u) :
    ∃ t left, j.turn { s with input := rest, port := port } = .next (t, left) ∧ u = t.afterTurn port left := by
  have hj' : ({ s with input := rest } : State).jobOf port = some j := hj
  rw [step_of_turn hi, takeTurn_of_job hj'] at h
  change resultOfTurn port (j.turn { s with input := rest, port := port }) = _ at h
  rcases ht : j.turn { s with input := rest, port := port } with ⟨t, left⟩ | e | e <;> rw [ht] at h <;> cases h
  exact ⟨t, left, rfl, rfl⟩

end

/-! ## A started command and its turns -/

theorem run_zero (s : State) : Host.Core.run Sys2Proof.core 0 s = .next s := rfl

section
variable {s : State}

/-- One step of a run, then the rest. -/
theorem run_succ_of_next {t : State} (h : step s = .next t) (n : Nat) :
    Host.Core.run Sys2Proof.core (n + 1) s = Host.Core.run Sys2Proof.core n t := by
  have h' : Sys2Proof.core.step s = .next t := h
  simp only [Host.Core.run, h']

theorem run_succ_of_fault {e : Fault} (h : step s = .fault e) (n : Nat) :
    Host.Core.run Sys2Proof.core (n + 1) s = .fault e := by
  have h' : Sys2Proof.core.step s = .fault e := h
  simp only [Host.Core.run, h']

theorem run_succ_of_refused {e : Refusal} (h : step s = .refused e) (n : Nat) :
    Host.Core.run Sys2Proof.core (n + 1) s = .refused e := by
  have h' : Sys2Proof.core.step s = .refused e := h
  simp only [Host.Core.run, h']

/-- A run of at least one step that has not stopped. -/
theorem run_succ_next {n : Nat} {u : State} (h : Host.Core.run Sys2Proof.core (n + 1) s = .next u) :
    ∃ t, step s = .next t ∧ Host.Core.run Sys2Proof.core n t = .next u := by
  rcases hstep : step s with t | e | e
  · exact ⟨t, rfl, (run_succ_of_next hstep n).symm.trans h⟩
  · cases (run_succ_of_fault hstep n).symm.trans h
  · cases (run_succ_of_refused hstep n).symm.trans h

end

/-- The state with the job in progress for its port, and as many turns of the port to come as the job has. -/
def State.withTurns (s : State) (j : Job) : State :=
  { s with
    flights := s.flights ++ [⟨s.port, j⟩]
    input := List.replicate j.turns (.turn s.port) ++ s.input }

/-- The first of those turns, where nothing else of the port is in progress. -/
theorem step_withTurns {j : Job} {s : State} {n : Nat} (hfree : s.jobOf s.port = none) (hn : j.turns = n + 1) :
    step (s.withTurns j) = match j.turn s with
      | .next (t, left) => .next { t with
          input := List.replicate n (.turn s.port) ++ s.input
          flights := s.flights ++ putJob [⟨s.port, j⟩] s.port left }
      | .fault e => .fault e
      | .refused e => .refused e := by
  have hinput : (s.withTurns j).input = .turn s.port :: (List.replicate n (.turn s.port) ++ s.input) := by
    simp only [State.withTurns, hn, List.replicate_succ, List.cons_append]
  have hjob : ({ s with
      flights := s.flights ++ [⟨s.port, j⟩]
      input := List.replicate n (.turn s.port) ++ s.input } : State).jobOf s.port = some j := by
    refine (jobIn_append_of_none hfree _).trans ?_
    simp only [jobIn, if_true]
  refine (step_of_turn hinput).trans ((takeTurn_of_job hjob).trans ((congrArg (resultOfTurn s.port)
    (Job.turn_congr j s (List.replicate n (.turn s.port) ++ s.input) (s.flights ++ [⟨s.port, j⟩]))).trans ?_))
  rcases j.turn s with ⟨t, left⟩ | e | e
  · simp only [resultOfTurn, State.afterTurn, putJob_append, putJob_of_free hfree]
  · rfl
  · rfl

/-- The turns that are left, taken one event after the other, are the command run to its end. -/
theorem run_withTurns {j : Job} {s : State} (hfree : s.jobOf s.port = none) :
    Host.Core.run Sys2Proof.core j.turns (s.withTurns j) = j.finish s := by
  induction hn : j.turns generalizing j s with
  | zero => cases j <;> simp [Job.turns] at hn
  | succ n ih =>
    have hstep := step_withTurns hfree hn
    rw [Job.finish_eq]
    rcases ht : j.turn s with ⟨t, left⟩ | e | e <;> rw [ht] at hstep
    · refine (run_succ_of_next hstep n).trans ?_
      have hframe := Job.turn_frame ht
      obtain ⟨r, x, rfl, hturns, -, -⟩ | ⟨resp, rfl, rfl, hturns⟩ := Job.turn_next ht
      · obtain rfl : r.turns = n := by omega
        have hfree' : t.jobOf t.port = none := by rw [hframe]; exact hfree
        refine (congrArg _ ?_).trans (ih hfree' rfl)
        rw [hframe]
        simp [State.withTurns, putJob]
      · obtain rfl : n = 0 := by omega
        refine (run_zero _).trans (congrArg _ ?_)
        simp [putJob, State.respond, State.record]
    · exact run_succ_of_fault hstep n
    · exact run_succ_of_refused hstep n

end Sys2Proof.Machine
end

section
/-! The obligations of one step: serving and starting a packet (R53), turns (R48, R52, R238), stores of the environment
(R219) and the choices about the input. -/

namespace Sys2Proof.Machine

/-- A packet that decodes starts its command. -/
theorem startPacket_of_decode {p : Packet} {i : Instr} (h : decode p = .ok i) (s : State) : startPacket p s = start i s := by
  simp only [startPacket, h]

theorem runPacket_of_decode {p : Packet} {i : Instr} (h : decode p = .ok i) (s : State) : runPacket p s = exec i s := by
  rw [runPacket_eq_complete, startPacket_of_decode h, exec_eq_complete]

/-- The start of a command leaves everything but `WM` and `CUR` as it is; here the commands in progress. -/
theorem start_flights (i : Instr) (s : State) : (start i s).state.flights = s.flights := by
  rw [start_state]

section
variable {s : State} {port : Nat} {p : Packet} {i : Instr} {rest : List Event}

theorem step_of_free_command (hport : port < s.cfg.nport) (hfree : s.jobOf port = none) (hd : decode p = .ok i)
    (hi : s.input = .command port p :: rest) : step s = exec i (s.serving port rest) := by
  rw [step_of_command hi, State.accept_of_free hport hfree, runPacket_of_decode hd]

theorem step_of_free_start (hport : port < s.cfg.nport) (hfree : s.jobOf port = none) (hd : decode p = .ok i)
    (hi : s.input = .start port p :: rest) : step s = .next ((start i (s.serving port rest)).launch port) := by
  rw [step_of_start hi, State.accept_of_free hport hfree, startPacket_of_decode hd]

end

/-- What a command leaves in progress does not depend on the events to come, which here are its own turns. -/
theorem start_launch_withTurns (i : Instr) (s : State) (port : Nat) (rest : List Event) :
    (start i (s.serving port (List.replicate (start i (s.serving port rest)).job.turns (.turn port) ++ rest))).launch port =
      (start i (s.serving port rest)).state.withTurns (start i (s.serving port rest)).job := by
  rw [start_eq_onto i (s := s.serving port rest) (t := s.serving port (_ ++ rest)) rfl rfl rfl,
    start_state i (s.serving port rest)]
  rfl

/-- Settles O10: a free port accepts the packet, and the packet is the decoded command. -/
theorem stepRunsTheDecodedCommand : Obligations.StepRunsTheDecodedCommand := by
  refine fun s port p i rest hport hfree hd => ⟨step_of_free_command hport hfree hd, fun hi => ?_⟩
  rw [step_of_free_start hport hfree hd hi, Started.launch, start_flights]
  rfl

/-- Settles O11: the start leaves the job in progress with its turns to come, and those are its completion; no turn touches
`WM` and `CUR`. -/
theorem startedCommandRunToItsEndIsTheCommand : Obligations.StartedCommandRunToItsEndIsTheCommand := by
  refine ⟨fun s port p i rest hport hfree hd => ⟨(start i (s.serving port rest)).job.turns, ?_⟩, fun i s t h => ?_⟩
  · have hfree' : (start i (s.serving port rest)).state.jobOf (start i (s.serving port rest)).state.port = none := by
      rw [start_state]
      exact hfree
    refine (run_succ_of_next (step_of_free_start ?_ ?_ hd rfl) _).trans ?_
    · exact hport
    · exact hfree
    · refine (congrArg _ (start_launch_withTurns i s port rest)).trans ((run_withTurns hfree').trans ?_)
      exact (exec_eq_complete i _).symm
  · rw [exec_eq_complete] at h
    rw [Job.finish_frame h, start_state]

/-- Settles O12: a turn is one access or the response; each kind of job by the equation of its turn. -/
theorem eachTurnMakesOneAccessOrSendsTheResponse : Obligations.EachTurnMakesOneAccessOrSendsTheResponse := by
  intro s port j rest hi hj
  refine ⟨fun u hu => ?_, ?_, ?_, ?_, ?_, ?_, ?_, ?_⟩
  · obtain ⟨t, left, ht, rfl⟩ := turn_of_step hi hj hu
    obtain ⟨-, hjob, hothers⟩ := step_of_turn_next hi hj ht
    refine ⟨hothers, by rw [State.afterTurn, Job.turn_frame ht], ?_⟩
    obtain ⟨r, x, rfl, hturns, hx, hframe⟩ | ⟨-, rfl, -, hturns⟩ := Job.turn_next ht
    · exact .inl ⟨x, r, hx, by rw [State.afterTurn, hframe], hjob, hturns⟩
    · obtain ⟨resp, hlast, -, hok⟩ := Job.turn_last ht
      cases (hlast _).symm.trans ht
      exact .inr ⟨resp, rfl, hjob, rfl, rfl, hturns, hok⟩
  · rintro a n got use rfl ha
    obtain ⟨hstep, hjob, -⟩ := step_of_turn_next hi hj (if_pos ha)
    exact ⟨_, hstep, hjob, rfl, rfl⟩
  · rintro a got use rfl
    obtain ⟨hstep, -, -⟩ := step_of_turn_next hi hj rfl
    exact ⟨_, hstep, rfl⟩
  · rintro l a v rfl ha
    obtain ⟨hstep, hjob, -⟩ := step_of_turn_next hi hj (if_pos ha)
    exact ⟨_, hstep, hjob, rfl, rfl⟩
  · rintro a b bs rfl ha
    obtain ⟨hstep, hjob, -⟩ := step_of_turn_next hi hj (if_pos ha)
    refine ⟨_, hstep, hjob, ?_, fun x hx => ?_, rfl⟩
    · exact State.byteAt_afterWrite_inside s a [b] 0 Nat.one_pos
    · exact State.byteAt_afterWrite_outside s a [b] x (by simp only [List.length_singleton]; omega)
  · rintro a w rfl halign hreach
    obtain ⟨hstep, hjob, -⟩ := step_of_turn_next hi hj ((if_pos halign).trans (if_pos hreach))
    have hio : State.ioBytes { s with input := rest, port := port } a 0 w.bytes = s.ioBytes a 0 w.bytes :=
      State.ioBytes_congr (s := s) (t := { s with input := rest, port := port }) rfl rfl rfl w.bytes a 0
    rw [hio] at hstep hjob
    exact ⟨_, hstep, hjob, rfl, rfl, by rw [← hio]; rfl⟩
  · rintro a w v rfl halign hreach
    obtain ⟨hstep, hjob, -⟩ := step_of_turn_next hi hj ((if_pos halign).trans (if_pos hreach))
    refine ⟨_, hstep, hjob, rfl, fun x hx => State.byteAt_congr ?_, rfl, rfl⟩
    obtain hlow | hhigh | hx := hx
    · exact Memory.lookup_storeBacked_outside s.cfg _ s.mem a x (.inl hlow)
    · exact Memory.lookup_storeBacked_outside s.cfg _ s.mem a x (.inr (by rwa [bytesLe_length]))
    · exact Memory.lookup_storeBacked_unbacked s.cfg x hx _ s.mem a
  · rintro resp rfl
    obtain ⟨hstep, -, -⟩ := step_of_turn_next hi hj rfl
    exact ⟨_, hstep, rfl⟩

/-- A store of the environment changes no byte but its own, and that one where memory backs it. -/
theorem State.byteAt_envStore (s : State) (a : Nat) (b : Byte) :
    (∀ x, x ≠ a → (s.envStore a b).byteAt x = s.byteAt x) ∧ (backs s.cfg a = true → (s.envStore a b).byteAt a = b) := by
  unfold State.envStore
  split
  · refine ⟨fun x hx => State.byteAt_congr (Memory.lookup_store_other s.mem a x b hx), fun _ => ?_⟩
    simp only [State.byteAt, Memory.lookup_store_same]
  · rename_i ha
    exact ⟨fun _ _ => rfl, fun h => absurd h ha⟩

/-- A store of the environment changes memory alone. -/
theorem State.envStore_frame (s : State) (a : Nat) (b : Byte) : s.envStore a b = { s with mem := (s.envStore a b).mem } := by
  unfold State.envStore
  split <;> rfl

/-- Settles O14: the step stores the byte, where memory backs its address, in the state with the event taken off. -/
theorem environmentStoresChangeOnlyTheByte : Obligations.EnvironmentStoresChangeOnlyTheByte := by
  intro s a b rest hi
  obtain ⟨hothers, hsame⟩ := State.byteAt_envStore { s with input := rest } a b
  exact ⟨_, by simp only [step, takeEvent, hi], State.envStore_frame _ a b, hothers, hsame⟩

/-- A packet on a port with a command in progress waits while that command takes a turn. -/
theorem State.accept_of_busy {s : State} {port : Nat} (hport : port < s.cfg.nport) (hbusy : s.jobOf port ≠ none)
    (go : Result) : s.accept port go = s.takeTurn port := by
  obtain ⟨j, hj⟩ := Option.ne_none_iff_exists'.1 hbusy
  simp only [State.accept, hport, if_true, hj]

theorem State.accept_of_noSuchPort {s : State} {port : Nat} (hport : s.cfg.nport ≤ port) (go : Result) :
    s.accept port go = .refused .noSuchPort := if_neg (Nat.not_lt.2 hport)

/-- Settles O15: each clause is a branch of `takeEvent`, of `State.accept` or of `State.takeTurn`. -/
theorem stepWaitsWithoutInputAndRefusesUnknownPorts : Obligations.StepWaitsWithoutInputAndRefusesUnknownPorts := by
  refine ⟨fun s hi hf => ?_, fun s f fs hi hf => ?_, fun s port p rest hi => ?_, fun s port rest hi => ?_⟩
  · simp only [step, takeEvent, hi, hf]
  · simp only [step, takeEvent, hi, hf]
  · obtain hi | hi := hi
    · rw [step_of_command hi]
      exact ⟨fun hport => State.accept_of_noSuchPort hport _, fun hport hbusy => State.accept_of_busy hport hbusy _⟩
    · rw [step_of_start hi]
      exact ⟨fun hport => State.accept_of_noSuchPort hport _, fun hport hbusy => State.accept_of_busy hport hbusy _⟩
  · refine ⟨step_of_turn hi, fun hfree => ?_⟩
    rw [step_of_turn hi]
    exact takeTurn_of_free hfree

end Sys2Proof.Machine
end

section
/-! SUPPORT. What every command that completes leaves, by the form of its start: the watermark, the slots, memory, the
record; and the accesses at which a command stops. -/

namespace Sys2Proof.Machine

/-! ## By the form of the start -/

theorem ok_mem_allowedStatuses (i : Instr) : Status.ok ∈ allowedStatuses i := by
  cases i <;> exact List.mem_cons_self

/-- A job with an access to make ends with `ST_OK`. -/
theorem AccessJob.endsOk {i : Instr} {j : Job} (h : AccessJob i j) : j.EndsOk := by
  cases h <;> trivial

/-- The range of a command with accesses: the instruction is one of the seven of R46. -/
theorem AccessJob.mem_seven {i : Instr} {j : Job} (h : AccessJob i j) :
    ∃ h f a v b l o, i = .fget h f a ∨ i = .fput h f a v ∨ i = .csum a l v ∨ i = .ioR8 b l o ∨ i = .ioR32 b l o ∨
      i = .ioW8 b l o v ∨ i = .ioW32 b l o v := by
  cases h with
  | @fget t f l addr => exact ⟨t, f, addr, 0, 0, 0, 0, by simp⟩
  | @fput t f l addr v | @fputNibble t f l addr v => exact ⟨t, f, addr, v, 0, 0, 0, by simp⟩
  | @csum addr len seed => exact ⟨.eth, .dhost, addr, seed, 0, len, 0, by simp⟩
  | @ioR8 base len off | @ioR32 base len off => exact ⟨.eth, .dhost, 0, 0, base, len, off, by simp⟩
  | @ioW8 base len off v | @ioW32 base len off v => exact ⟨.eth, .dhost, 0, v, base, len, off, by simp⟩

/-- The three commands that write memory. -/
theorem AccessJob.mem_cases {i : Instr} {j : Job} (h : AccessJob i j) {s t : State} (hfin : j.finish s = .next t) :
    t.mem = s.mem ∨ ∃ h f a v b l o, i = .fput h f a v ∨ i = .ioW8 b l o v ∨ i = .ioW32 b l o v := by
  cases h with
  | fget | csum =>
    rw [Job.finish_reads] at hfin
    split at hfin <;> cases hfin
    exact .inl rfl
  | @fput t f l addr v | @fputNibble t f l addr v => exact .inr ⟨t, f, addr, v, 0, 0, 0, by simp⟩
  | ioR8 | ioR32 =>
    rw [Job.finish_ioRead] at hfin
    split_ifs at hfin
    cases hfin
    exact .inl rfl
  | @ioW8 base len off v | @ioW32 base len off v => exact .inr ⟨.eth, .dhost, 0, v, base, len, off, by simp⟩

section
variable {k : Slot} {c c' : Cursor} {i : Instr}

/-- A slot is moved by the five commands of the Buffer Cursor. -/
theorem SlotMove.command (h : SlotMove k c i c') :
    ∃ b l v, i = .curOpen k b l ∨ i = .curNext k v ∨ i = .curNextm k v ∨ i = .curRem k ∨ i = .curRemm k := by
  cases h with
  | @opened base len => exact ⟨base, len, .raw 0, .inl rfl⟩
  | @next v => exact ⟨0, 0, v, .inr (.inl rfl)⟩
  | @nextm v => exact ⟨0, 0, v, .inr (.inr (.inl rfl))⟩
  | rem => exact ⟨0, 0, .raw 0, .inr (.inr (.inr (.inl rfl)))⟩
  | remm => exact ⟨0, 0, .raw 0, .inr (.inr (.inr (.inr rfl)))⟩

/-- `CUR.OPEN` opens a buffer; no other command changes which buffer the slot has, or makes it live. -/
theorem SlotMove.opens (h : SlotMove k c i c') :
    (∃ b l, i = .curOpen k b l) ∨ (c'.base = c.base ∧ c'.len = c.len ∧ (c.valid = false → c'.valid = false)) := by
  cases h with
  | @opened base len => exact .inl ⟨base, len, rfl⟩
  | next | nextm => exact .inr ⟨rfl, rfl, id⟩
  | rem | remm => exact .inr ⟨rfl, rfl, fun _ => rfl⟩

/-- `CUR.REM` and `CUR.REMM` consume the cursor; no other command does, and they leave its offset. -/
theorem SlotMove.consumes (h : SlotMove k c i c') :
    ((i = .curRem k ∨ i = .curRemm k) ∧ c'.off = c.off) ∨
      ((∃ b l v, i = .curOpen k b l ∨ i = .curNext k v ∨ i = .curNextm k v) ∧ c'.valid = true) := by
  cases h with
  | @opened base len => exact .inr ⟨⟨base, len, .raw 0, .inl rfl⟩, rfl⟩
  | @next v hlive => exact .inr ⟨⟨0, 0, v, .inr (.inl rfl)⟩, hlive⟩
  | @nextm v hlive => exact .inr ⟨⟨0, 0, v, .inr (.inr rfl)⟩, hlive⟩
  | rem => exact .inl ⟨.inl rfl, rfl⟩
  | remm => exact .inl ⟨.inr rfl, rfl⟩

end

section
variable {i : Instr} {s t : State} {b : Started}

theorem StartsAs.wm_cases (h : StartsAs i s b) : b.state.wm = s.wm ∨ ∃ p, i = .dmaAlloc p ∨ i = .dmaAllocb p := by
  cases h with
  | allocates hi => exact .inr ⟨_, hi⟩
  | _ => exact .inl rfl

theorem StartsAs.slot_cases (h : StartsAs i s b) (k : Slot) :
    b.state.slot k = s.slot k ∨ SlotMove k (s.slot k) i (b.state.slot k) := by
  cases h with
  | @moves k' c hmove r =>
    change (s.setSlot k' c).slot k = _ ∨ SlotMove k _ _ ((s.setSlot k' c).slot k)
    by_cases hk : k = k'
    · subst hk
      rw [State.slot_setSlot_same]
      exact .inr hmove
    · rw [State.slot_setSlot_other s k' k c hk]
      exact .inl rfl
  | _ => exact .inl rfl

/-- A start is an answer, its effect on `WM` and `CUR` done, or an access job with everything else as it was. -/
theorem StartsAs.answer_or_access (h : StartsAs i s b) :
    (∃ resp : Response, b.job = .reply resp ∧ resp.st ∈ allowedStatuses i) ∨ ∃ j, AccessJob i j ∧ b = ⟨s, j⟩ := by
  cases h with
  | rejects hst => exact .inl ⟨_, rfl, hst⟩
  | answers | moves | allocates => exact .inl ⟨_, rfl, ok_mem_allowedStatuses i⟩
  | accesses hj => exact .inr ⟨_, hj, rfl⟩

/-- A command answers at once, with no effect but on `WM` and `CUR`, or it makes the accesses of its job. -/
theorem exec_answer_or_access (i : Instr) (s : State) :
    (∃ (u : State) (resp : Response), exec i s = .next (u.respond resp.st resp.r) ∧
      u = { s with wm := u.wm, cur := u.cur } ∧ resp.st ∈ allowedStatuses i) ∨
    ∃ j, AccessJob i j ∧ exec i s = j.finish s := by
  rw [exec_eq_complete]
  obtain ⟨resp, hjob, hst⟩ | ⟨j, hj, hb⟩ := (start_startsAs i s).answer_or_access
  · exact .inl ⟨(start i s).state, resp, by rw [Started.complete, hjob, Job.finish_reply], start_state i s, hst⟩
  · exact .inr ⟨j, hj, by rw [hb]; rfl⟩

/-- The watermark and the slots after a command are those after its start. -/
theorem exec_wm_cur (h : exec i s = .next t) : t.wm = (start i s).state.wm ∧ t.cur = (start i s).state.cur := by
  rw [exec_eq_complete] at h
  rw [Job.finish_frame h]
  exact ⟨rfl, rfl⟩

/-- `WM` is written by the two allocation commands alone. -/
theorem exec_wm_cases (h : exec i s = .next t) : t.wm = s.wm ∨ ∃ p, i = .dmaAlloc p ∨ i = .dmaAllocb p := by
  rw [(exec_wm_cur h).1]
  exact (start_startsAs i s).wm_cases

/-- A slot is written by the cursor commands on it alone, each as `SlotMove` says. -/
theorem exec_slot_cases (h : exec i s = .next t) (k : Slot) :
    t.slot k = s.slot k ∨ SlotMove k (s.slot k) i (t.slot k) := by
  have hslot : t.slot k = (start i s).state.slot k := by
    rw [State.slot, State.slot, (exec_wm_cur h).2]
  rw [hslot]
  exact (start_startsAs i s).slot_cases k

/-- Memory is written by `FPUT`, `IO.W8` and `IO.W32` alone. -/
theorem exec_mem_cases (h : exec i s = .next t) :
    t.mem = s.mem ∨ ∃ h f a v b l o, i = .fput h f a v ∨ i = .ioW8 b l o v ∨ i = .ioW32 b l o v := by
  obtain ⟨u, resp, he, hu, -⟩ | ⟨j, hj, he⟩ := exec_answer_or_access i s
  · cases he.symm.trans h
    exact .inl (by rw [State.respond_mem, hu])
  · exact hj.mem_cases (he.symm.trans h)

/-- A command that completes makes its accesses, then sends one response to its port; with another port noted it makes the
same accesses and sends the same response there (R71, R225). -/
theorem exec_next (h : exec i s = .next t) :
    ∃ (acc : List Action) (resp : Response), (∀ x ∈ acc, x.isAccess = true) ∧
      t.trace = s.trace ++ acc ++ [.reply s.port resp] ∧
      ∀ p, exec i { s with port := p } = .next { t with port := p, trace := s.trace ++ acc ++ [.reply p resp] } := by
  have hport (p : Nat) : start i { s with port := p } = ⟨{ (start i s).state with port := p }, (start i s).job⟩ := by
    rw [start_eq_onto i (s := s) (t := { s with port := p }) rfl rfl rfl, start_state i s]
    rfl
  have hstate := start_state i s
  have htrace : (start i s).state.trace = s.trace := by rw [hstate]
  have hp : (start i s).state.port = s.port := by rw [hstate]
  rw [exec_eq_complete] at h
  obtain ⟨acc, resp, hacc, ht, hother⟩ := Job.finish_next h
  rw [htrace, hp] at ht
  refine ⟨acc, resp, hacc, ht, fun p => ?_⟩
  rw [exec_eq_complete, hport]
  exact (hother p).trans (by rw [htrace])

end

/-! ## Where a command stops (R45, R50, R217) -/

theorem exists_unbacked {c : Config} {a n : Nat} (h : ¬ backsRange c a n = true) :
    ∃ x, a ≤ x ∧ x < a + n ∧ backs c x = false := by
  simp only [backsRange_iff, not_forall, Bool.not_eq_true] at h
  obtain ⟨j, hj, hx⟩ := h
  exact ⟨a + j, Nat.le_add_right a j, by omega, hx⟩

theorem exists_unreached {c : Config} {a n : Nat} (h : ¬ reachesRange c a n = true) :
    ∃ x, a ≤ x ∧ x < a + n ∧ backs c x = false ∧ hasDevice c x = false := by
  simp only [reachesRange_iff, not_forall, Bool.not_eq_true, Bool.or_eq_false_iff] at h
  obtain ⟨j, hj, hx⟩ := h
  exact ⟨a + j, Nat.le_add_right a j, by omega, hx⟩

/-- An ordinary access that faults has failed the test of the map. -/
theorem fault_of_backed_test {c : Bool} {t : State} {e : Fault}
    (h : (if c then .next t else .fault .unbackedAccess : Result) = .fault e) : e = .unbackedAccess ∧ ¬ c = true := by
  split at h
  · cases h
  · rename_i hc; cases h; exact ⟨rfl, hc⟩

theorem not_refused_of_backed_test {c : Bool} {t : State} {e : Refusal} :
    (if c then .next t else .fault .unbackedAccess : Result) ≠ .refused e := by
  split <;> exact fun h => by cases h

/-- A volatile access that faults is aligned and has failed the test of the maps; one that is refused is misaligned. -/
theorem stop_of_volatile_test {p : Prop} [Decidable p] {c : Bool} {t : State} {o : Result}
    (ho : o = if p then if c then .next t else .fault .unbackedAccess else .refused .misalignedRegisterAccess) :
    (∀ e, o = .fault e → e = .unbackedAccess ∧ ¬ c = true) ∧
      ∀ e, o = .refused e → e = .misalignedRegisterAccess ∧ ¬ p := by
  subst ho
  refine ⟨fun e h => ?_, fun e h => ?_⟩
  · split at h
    · exact fault_of_backed_test h
    · cases h
  · split at h
    · exact absurd h not_refused_of_backed_test
    · rename_i hp; cases h; exact ⟨rfl, hp⟩

/-- The address `x` is in the range the command accesses, and nothing there can answer: memory alone can answer an ordinary
access, a device register a volatile one too. -/
def Unanswered (c : Config) (i : Instr) (x : Nat) : Prop :=
  x < 2 ^ 64 ∧ backs c x = false ∧
    ((∃ t f l addr v, (i = .fget t f addr ∨ i = .fput t f addr v) ∧ layout t f = some l ∧
        addr.toNat + l.off ≤ x ∧ x < addr.toNat + l.off + l.width) ∨
      (∃ addr len seed, i = .csum addr len seed ∧ addr.toNat ≤ x ∧ x < addr.toNat + len.toNat) ∨
      (hasDevice c x = false ∧ ∃ base len off value n,
        (i, n) ∈ [(Instr.ioR8 base len off, 1), (.ioR32 base len off, 4), (.ioW8 base len off value, 1),
          (.ioW32 base len off value, 4)] ∧
        base.toNat + off.toNat ≤ x ∧ x < base.toNat + off.toNat + n))

section
variable {i : Instr} {j : Job} {s : State}

theorem Unanswered.of_io {c : Config} {base len off value : Word} {n : Nat}
    (hi : (i, n) ∈ [(Instr.ioR8 base len off, 1), (.ioR32 base len off, 4), (.ioW8 base len off value, 1),
      (.ioW32 base len off value, 4)])
    (hspace : base.toNat + off.toNat + n ≤ 2 ^ 64) (hreach : ¬ reachesRange c (base.toNat + off.toNat) n = true) :
    ∃ x, Unanswered c i x := by
  obtain ⟨x, hlo, hhi, hx, hdev⟩ := exists_unreached hreach
  exact ⟨x, by omega, hx, .inr (.inr ⟨hdev, base, len, off, value, n, hi, hlo, hhi⟩)⟩

theorem Unanswered.of_field {c : Config} {t : HdrType} {f : Field} {l : FieldLayout} {addr v : Word}
    (hi : i = .fget t f addr ∨ i = .fput t f addr v) (hl : layout t f = some l)
    (hspace : addr.toNat + l.off + l.width ≤ 2 ^ 64) (hback : ¬ backsRange c (addr.toNat + l.off) l.width = true) :
    ∃ x, Unanswered c i x := by
  obtain ⟨x, hlo, hhi, hx⟩ := exists_unbacked hback
  exact ⟨x, by omega, hx, .inl ⟨t, f, l, addr, v, hi, hl, hlo, hhi⟩⟩

/-- A fault of a command is at an unanswered byte of its range. -/
theorem AccessJob.fault (hj : AccessJob i j) {e : Fault} (h : j.finish s = .fault e) :
    e = .unbackedAccess ∧ ∃ x, Unanswered s.cfg i x := by
  cases hj with
  | @fget t f l addr hl hspace =>
    rw [Job.finish_reads] at h
    obtain ⟨he, hb⟩ := fault_of_backed_test h
    exact ⟨he, Unanswered.of_field (v := 0) (.inl rfl) hl hspace hb⟩
  | fput hl hspace hwhole =>
    rw [Job.finish_writes, layout_putField_length hl] at h
    obtain ⟨he, hb⟩ := fault_of_backed_test h
    exact ⟨he, Unanswered.of_field (.inr rfl) hl hspace hb⟩
  | @fputNibble t f l addr v hl hspace hsub =>
    rw [Job.finish_patch hsub] at h
    obtain ⟨he, hb⟩ := fault_of_backed_test h
    exact ⟨he, Unanswered.of_field (.inr rfl) hl hspace (by simp [layout_width_subByte hl hsub, backsRange, hb])⟩
  | @csum addr len seed hspace =>
    rw [Job.finish_reads] at h
    obtain ⟨he, hb⟩ := fault_of_backed_test h
    obtain ⟨x, hlo, hhi, hx⟩ := exists_unbacked hb
    exact ⟨he, x, by omega, hx, .inr (.inl ⟨addr, len, seed, rfl, hlo, hhi⟩)⟩
  | @ioR8 base len off hspace | @ioR32 base len off hspace =>
    obtain ⟨he, hb⟩ := (stop_of_volatile_test (Job.finish_ioRead _ _ s)).1 e h
    exact ⟨he, Unanswered.of_io (len := len) (value := 0) (by simp) hspace hb⟩
  | @ioW8 base len off v hspace | @ioW32 base len off v hspace =>
    obtain ⟨he, hb⟩ := (stop_of_volatile_test (Job.finish_ioWrite _ _ _ s)).1 e h
    exact ⟨he, Unanswered.of_io (len := len) (value := v) (by simp) hspace hb⟩

/-- A refusal of a command is of a misaligned 32-bit register access; one byte is always aligned. -/
theorem AccessJob.refused (hj : AccessJob i j) {e : Refusal} (h : j.finish s = .refused e) :
    e = .misalignedRegisterAccess ∧
      ∃ b l o v, (i = .ioR32 b l o ∨ i = .ioW32 b l o v) ∧ (b.toNat + o.toNat) % 4 ≠ 0 := by
  cases hj with
  | fget | csum => rw [Job.finish_reads] at h; exact absurd h not_refused_of_backed_test
  | fput => rw [Job.finish_writes] at h; exact absurd h not_refused_of_backed_test
  | fputNibble _ _ hsub => rw [Job.finish_patch hsub] at h; exact absurd h not_refused_of_backed_test
  | ioR8 =>
    obtain ⟨-, halign⟩ := (stop_of_volatile_test (Job.finish_ioRead _ _ s)).2 e h
    exact absurd (Nat.mod_one _) halign
  | ioW8 =>
    obtain ⟨-, halign⟩ := (stop_of_volatile_test (Job.finish_ioWrite _ _ _ s)).2 e h
    exact absurd (Nat.mod_one _) halign
  | @ioR32 base len off =>
    obtain ⟨he, halign⟩ := (stop_of_volatile_test (Job.finish_ioRead _ _ s)).2 e h
    exact ⟨he, base, len, off, 0, .inl rfl, halign⟩
  | @ioW32 base len off v =>
    obtain ⟨he, halign⟩ := (stop_of_volatile_test (Job.finish_ioWrite _ _ _ s)).2 e h
    exact ⟨he, base, len, off, v, .inr rfl, halign⟩

end

end Sys2Proof.Machine
end

section
/-! The obligations over every command: one response after the accesses (R52, R71), the status matrix (R211, R216), the
access table (R25), the commands with accesses (R46), the stops (R217, R243) and the port (R225). -/

namespace Sys2Proof.Machine

/-- Settles O54: the turns make accesses and the last sends the response; a status other than `ST_OK` is a rejection's. -/
theorem everyCommandSendsOneResponseAfterItsAccesses : Obligations.EveryCommandSendsOneResponseAfterItsAccesses := by
  intro i s t h
  obtain ⟨acc, ⟨st, r⟩, hacc, htrace, -⟩ := exec_next h
  refine ⟨acc, st, r, htrace, hacc, fun hst => ?_⟩
  have hlast : t.trace.getLast? = some (.reply s.port ⟨st, r⟩) := by rw [htrace, List.getLast?_concat]
  have hcomplete := exec_eq_complete i s ▸ h
  rw [(start_okOrRejects i s).complete_nonOk hcomplete hlast hst, respond_getLast] at hlast
  cases hlast
  rfl

/-- Settles O56: an answer has a status of the command's row, and a command that makes accesses ends with `ST_OK`. -/
theorem statusesStayInTheMatrix : Obligations.StatusesStayInTheMatrix := by
  refine ⟨⟨rfl, rfl, rfl, rfl, rfl, rfl⟩, fun i s t p resp h hlast => ?_⟩
  obtain ⟨u, resp', he, -, hst⟩ | ⟨j, hj, he⟩ := exec_answer_or_access i s
  · cases he.symm.trans h
    rw [respond_getLast] at hlast
    cases hlast
    exact hst
  · obtain ⟨u, r, rfl⟩ := hj.endsOk.finish_eq_respond (he.symm.trans h)
    rw [respond_getLast] at hlast
    cases hlast
    exact ok_mem_allowedStatuses i

/-- Settles O57: the clauses on a slot are read off the moves a slot can make. -/
theorem commandsWriteOnlyTheStateTheTableGivesThem : Obligations.CommandsWriteOnlyTheStateTheTableGivesThem := by
  intro i s t h
  have hframe := exec_frame h
  refine ⟨(exec_wm_cases h).resolve_left, fun k hk => ?_, fun k hk => ?_, fun k hk => ?_, fun k hdead hlive => ?_,
    fun k hlive hdead => ?_, (exec_mem_cases h).resolve_left, by rw [hframe], by rw [hframe], by rw [hframe], by rw [hframe]⟩
  · exact ((exec_slot_cases h k).resolve_left hk).command
  · have hmove := (exec_slot_cases h k).resolve_left fun heq => by simp [heq] at hk
    exact hmove.opens.resolve_right fun ⟨hbase, hlen, _⟩ => hk.elim (absurd hbase) (absurd hlen)
  · have hmove := (exec_slot_cases h k).resolve_left fun heq => by simp [heq] at hk
    obtain ⟨-, hoff⟩ | ⟨hi, -⟩ := hmove.consumes
    · exact absurd hoff hk
    · exact hi
  · have hmove := (exec_slot_cases h k).resolve_left fun heq => by simp [heq, hdead] at hlive
    exact hmove.opens.resolve_right fun ⟨_, _, hvalid⟩ => by simp [hvalid hdead] at hlive
  · have hmove := (exec_slot_cases h k).resolve_left fun heq => by simp [heq, hlive] at hdead
    obtain ⟨hi, -⟩ | ⟨-, hvalid⟩ := hmove.consumes
    · exact hi
    · simp [hvalid] at hdead

/-- Settles O58: a command that answers at once leaves one response in the record and nothing else. -/
theorem onlyTheSevenAccessCommandsTouchMemory : Obligations.OnlyTheSevenAccessCommandsTouchMemory := by
  rintro i s t h ⟨x, hx, haccess⟩
  obtain ⟨u, resp, he, hu, -⟩ | ⟨j, hj, -⟩ := exec_answer_or_access i s
  · cases he.symm.trans h
    rw [State.respond_trace, hu, List.drop_left, List.mem_singleton] at hx
    subst hx
    cases haccess
  · exact hj.mem_seven

/-- Settles O59: only accesses stop, each at a byte of the command's range or at a misaligned register word. -/
theorem commandsStopOnlyWhereTheSpecHasNoStep : Obligations.CommandsStopOnlyWhereTheSpecHasNoStep := by
  refine fun i s => ⟨fun e h => ?_, fun e h => ?_⟩
  · obtain ⟨u, resp, he, -⟩ | ⟨j, hj, he⟩ := exec_answer_or_access i s
    · cases he.symm.trans h
    · exact hj.fault (he.symm.trans h)
  · obtain ⟨u, resp, he, -⟩ | ⟨j, hj, he⟩ := exec_answer_or_access i s
    · cases he.symm.trans h
    · exact hj.refused (he.symm.trans h)

/-- Settles O60: the start does not look at the port, and every turn but the last does the same whatever the port is. -/
theorem resultsDoNotDependOnThePort : Obligations.ResultsDoNotDependOnThePort := by
  intro i s t p h
  obtain ⟨acc, resp, -, htrace, hother⟩ := exec_next h
  exact ⟨acc, resp, htrace, hother p⟩

end Sys2Proof.Machine
end

section
/-! SUPPORT. Allocations one after the other, with and without steps between them (R194), and the events a run takes. -/

namespace Sys2Proof.Machine

/-! ## One allocation -/

/-- `DMA.ALLOC` and `DMA.ALLOCB` have one body. -/
theorem exec_allocInstr (req : Bool × Word) (s : State) : exec (allocInstr req) s = (allocPages req.2 s).complete := by
  unfold allocInstr
  split <;> rfl

theorem allocInstr_wf (req : Bool × Word) : (allocInstr req).wf = true := by
  unfold allocInstr
  split <;> rfl

/-- An allocation that answers `ST_OK` has moved the watermark on by the size it returns, below the limit, and returns the
watermark before it as the start of a range that is not empty. -/
theorem alloc_of_ok {req : Bool × Word} {s t : State} {r : Results} (hlimit : s.cfg.dmaLimit ≤ 2 ^ 64)
    (h : exec (allocInstr req) s = .next t) (hlast : t.trace.getLast? = some (.reply s.port ⟨.ok, r⟩)) :
    t.wm.toNat = s.wm.toNat + r.r1.toNat ∧ s.wm.toNat + r.r1.toNat ≤ s.cfg.dmaLimit ∧ t.cfg = s.cfg ∧
      (r.r1 ≠ 0 → r.r0.toNat = s.wm.toNat) := by
  rw [exec_allocInstr] at h
  obtain ⟨-, he⟩ | ⟨hsize, hfits, he⟩ := allocPages_cases req.2 s
  · rw [he, complete_reject] at h
    cases h
    rw [respond_getLast] at hlast
    cases hlast
  · rw [he, complete_done] at h
    cases h
    rw [respond_getLast, Option.some_inj] at hlast
    cases hlast
    have hr1 : (word (req.2.toNat * 4096)).toNat = req.2.toNat * 4096 := word_toNat_of_lt hsize
    have hwm : (s.setWm (s.wm.toNat + req.2.toNat * 4096)).wm.toNat = s.wm.toNat + req.2.toNat * 4096 :=
      s.setWm_toNat_of_le (hfits.trans hlimit)
    refine ⟨?_, ?_, rfl, fun hne => word_toNat_of_lt ?_⟩
    · rw [hr1]; exact hwm
    · rw [hr1]; exact hfits
    · have hpos : (word (req.2.toNat * 4096)).toNat ≠ 0 := fun h0 => hne (BitVec.eq_of_toNat_eq h0)
      omega

/-! ## Allocations one after the other -/

@[simp] theorem bytesAsked_nil : bytesAsked [] = 0 := rfl

@[simp] theorem bytesAsked_cons (req : Bool × Word) (reqs : List (Bool × Word)) :
    bytesAsked (req :: reqs) = req.2.toNat * 4096 + bytesAsked reqs := rfl

/-- The responses to successful allocations, the first of them with the watermark at `wm`. -/
def allocReplies (port wm : Nat) (reqs : List (Bool × Word)) : List Action :=
  (List.range reqs.length).map fun n => .reply port ⟨.ok,
    { r0 := word (wm + bytesAsked (reqs.take n)), r1 := word (bytesAsked ((reqs.drop n).take 1)) }⟩

theorem allocReplies_cons (port wm : Nat) (req : Bool × Word) (reqs : List (Bool × Word)) :
    allocReplies port wm (req :: reqs) =
      .reply port ⟨.ok, { r0 := word wm, r1 := word (req.2.toNat * 4096) }⟩ ::
        allocReplies port (wm + req.2.toNat * 4096) reqs := by
  simp [allocReplies, List.range_succ_eq_map, Function.comp_def, Nat.add_assoc]

@[simp] theorem State.setWm_self (s : State) : s.setWm s.wm.toNat = s := by
  rw [State.setWm, BitVec.ofNat_toNat, BitVec.setWidth_eq]

/-- Requests that fit together all succeed, each at the end of the one before (R194). -/
theorem execAll_alloc : ∀ (reqs : List (Bool × Word)) (s : State), s.cfg.dmaLimit ≤ 2 ^ 64 →
    (∀ req ∈ reqs, req.2.toNat * 4096 < 2 ^ 64) → s.wm.toNat + bytesAsked reqs ≤ s.cfg.dmaLimit →
    execAll (reqs.map allocInstr) s =
      .next ((s.setWm (s.wm.toNat + bytesAsked reqs)).record (allocReplies s.port s.wm.toNat reqs))
  | [], s, _, _, _ => by
    rw [bytesAsked_nil, Nat.add_zero, State.setWm_self]
    exact congrArg Host.Outcome.next (by simp [allocReplies, State.record])
  | req :: reqs, s, hlimit, hsizes, hfit => by
    obtain ⟨hsize, hsizes⟩ := List.forall_mem_cons.1 hsizes
    rw [bytesAsked_cons] at hfit
    have hreq : s.wm.toNat + req.2.toNat * 4096 ≤ s.cfg.dmaLimit :=
      (Nat.add_le_add_left (Nat.le_add_right _ _) _).trans hfit
    have hstep := (exec_allocInstr req s).trans (allocPages_of_fits hsize hreq)
    have hwm : (s.setWm (s.wm.toNat + req.2.toNat * 4096)).wm.toNat = s.wm.toNat + req.2.toNat * 4096 :=
      s.setWm_toNat_of_le (hreq.trans hlimit)
    rw [List.map_cons, execAll_cons hstep, execAll_alloc reqs ((s.setWm _).respond .ok _) hlimit hsizes]
    · simp only [State.respond_wm, State.respond_port, State.setWm_port, hwm, bytesAsked_cons, allocReplies_cons, word_wm,
        Nat.add_assoc]
      simp [State.respond, State.record, State.setWm]
    · rw [State.respond_wm, hwm, Nat.add_assoc]
      exact hfit

/-! ## The events a run takes -/

/-- A step takes the event at the head of the input or none, and changes no parameter. -/
theorem step_takes {s t : State} (h : step s = .next t) :
    t.cfg = s.cfg ∧ ∃ taken, s.input = taken ++ t.input := by
  obtain ⟨-, -, rfl⟩ | ⟨port, s', hs', hturn⟩ | ⟨port, p, rest, hi, -, -, hrun⟩ | ⟨port, p, rest, hi, -, -, rfl⟩ |
    ⟨a, b, rest, hi, rfl⟩ | ⟨rest, hi, rfl⟩ := step_cases h
  · exact ⟨rfl, [], rfl⟩
  · rw [takeTurn_frame hturn]
    obtain rfl | ⟨rest, hi, rfl⟩ := hs'
    · exact ⟨rfl, [], rfl⟩
    · exact ⟨rfl, [.turn port], hi⟩
  · rw [runPacket_eq_complete] at hrun
    rw [Job.finish_frame hrun, startPacket_state]
    exact ⟨rfl, [.command port p], hi⟩
  · rw [Started.launch, startPacket_state]
    exact ⟨rfl, [.start port p], hi⟩
  · rw [State.envStore_frame]
    exact ⟨rfl, [.envStore a b], hi⟩
  · exact ⟨rfl, [.reset], hi⟩

/-- A run that takes no reset does not lower the watermark. -/
theorem run_takes {n : Nat} {t : State} : ∀ {s : State}, configWf s.cfg = true →
    Host.Core.run Sys2Proof.core n s = .next t →
    ∃ taken, s.input = taken ++ t.input ∧ t.cfg = s.cfg ∧ ((∀ e ∈ taken, e ≠ .reset) → s.wm.toNat ≤ t.wm.toNat) := by
  induction n with
  | zero =>
    intro s _ h
    cases (run_zero s).symm.trans h
    exact ⟨[], rfl, rfl, fun _ => le_refl _⟩
  | succ n ih =>
    intro s hcfg h
    obtain ⟨u, hstep, hrun⟩ := run_succ_next h
    obtain ⟨hucfg, first, hfirst⟩ := step_takes hstep
    obtain ⟨taken, htaken, htcfg, hwm⟩ := ih (hucfg ▸ hcfg) hrun
    refine ⟨first ++ taken, by rw [hfirst, htaken, List.append_assoc], htcfg.trans hucfg, fun hno => ?_⟩
    obtain ⟨hnofirst, hnotaken⟩ := List.forall_mem_append.1 hno
    refine (step_wm_le hcfg hstep fun rest hi => ?_).trans (hwm hnotaken)
    cases (step_of_reset hi).symm.trans hstep
    have hreset : [.reset] ++ rest = first ++ rest := hi.symm.trans hfirst
    rw [← List.append_cancel_right hreset] at hnofirst
    exact hnofirst .reset List.mem_cons_self rfl

end Sys2Proof.Machine
end

section
/-! The obligations of several allocations (R194, R232), of views inside their buffer (R162) and of what a checksum depends
on (R142). -/

namespace Sys2Proof.Machine

/-- Settles O43: the run of allocations that fit together. -/
theorem allocationsAreContiguous : Obligations.AllocationsAreContiguous := by
  intro s reqs hlimit hsizes hfit
  exact ⟨_, execAll_alloc reqs s hlimit hsizes hfit, s.setWm_toNat_of_le (hfit.trans hlimit), rfl⟩

/-- Settles O44: the first range ends at the watermark it leaves, which no step but a reset lowers, and the second starts at
the watermark it finds. -/
theorem allocatedRangesNeverOverlap : Obligations.AllocatedRangesNeverOverlap := by
  intro s₀ s₁ s₂ s₃ n a b r q hinv h₀ hr hrun hno h₂ hq
  obtain ⟨hblock, -⟩ := (State.inv_iff s₀).1 hinv
  have hlimit := (configWf_limits hblock.config).2
  obtain ⟨hwm₁, hfit₁, hcfg₁, hstart₁⟩ := alloc_of_ok hlimit h₀ hr
  obtain ⟨taken, htaken, hcfg₂, hwm₂⟩ := run_takes (hcfg₁ ▸ hblock.config) hrun
  obtain ⟨-, hfit₂, -, hstart₂⟩ := alloc_of_ok (by rw [hcfg₂, hcfg₁]; exact hlimit) h₂ hq
  have hmono : s₁.wm.toNat ≤ s₂.wm.toNat := by
    refine hwm₂ ?_
    rwa [htaken, List.length_append, Nat.add_sub_cancel, List.take_left] at hno
  refine ⟨fun x hx => ?_, fun hne => ?_⟩
  · have hr1 : r.r1 ≠ 0 := by rintro h0; rw [h0] at hx; simp at hx; omega
    have hq1 : q.r1 ≠ 0 := by rintro h0; rw [h0] at hx; simp at hx; omega
    rw [hstart₁ hr1, hstart₂ hq1] at hx
    omega
  · rw [hstart₁ hne]
    exact ⟨hblock.watermark.1, hfit₁⟩

/-- Settles O45: reset frees every port and puts the watermark at `IMAGE_END`, where the allocation takes its range. -/
theorem firstAllocationAfterResetStartsAtImageEnd : Obligations.FirstAllocationAfterResetStartsAtImageEnd := by
  intro s port pages flag rest hcfg hi hport hsize hfit
  have hwm := State.applyReset_wm_toNat (s := { s with
    input := .command port (encode (allocInstr (flag, pages))) :: rest }) hcfg
  have hstep := step_of_reset hi
  generalize hs₁ : State.applyReset
    { s with input := .command port (encode (allocInstr (flag, pages))) :: rest } = s₁ at hstep hwm
  have hfree : s₁.jobOf port = none := by rw [← hs₁]; rfl
  have hcommand : s₁.input = .command port (encode (allocInstr (flag, pages))) :: rest := by rw [← hs₁]; rfl
  have hcfg₁ : s₁.cfg = s.cfg := by rw [← hs₁]; rfl
  have hstep₁ := step_of_free_command (hcfg₁ ▸ hport) hfree (decode_encode (allocInstr_wf (flag, pages))) hcommand
  rw [exec_allocInstr, allocPages_of_fits hsize] at hstep₁
  · refine ⟨_, (run_succ_of_next hstep 1).trans ((run_succ_of_next hstep₁ 0).trans (run_zero _)), ?_, fun k => ?_, ?_⟩
    · rw [State.respond_wm, State.serving_wm, hwm]
      exact State.setWm_toNat_of_le (hfit.trans (configWf_limits hcfg).2) _
    · subst hs₁
      exact State.slot_applyReset s k
    · rw [State.serving_wm, ← word_wm, hwm]
      subst hs₁
      rfl
  · rw [State.serving_wm, hwm]
    subst hs₁
    exact hfit

/-- Settles O40: the offset and the view end within `len`, so the sum of `base` and `off` does not wrap. -/
theorem viewsLieInsideTheirBuffer : Obligations.ViewsLieInsideTheirBuffer := by
  intro s u k v i r hinv hi h hlast hne
  obtain ⟨hblock, -⟩ := (State.inv_iff s).1 hinv
  have hbody : ∃ m, exec i s = (nextView m k v s).complete := by
    obtain rfl | rfl := hi
    · exact ⟨false, rfl⟩
    · exact ⟨true, rfl⟩
  obtain ⟨m, hbody⟩ := hbody
  rw [hbody] at h
  obtain ⟨-, he⟩ | ⟨-, -, he⟩ | ⟨hlive, hfits, he⟩ := nextView_cases m k v s <;> rw [he] at h
  · cases h; rw [respond_getLast] at hlast; cases hlast
  · cases h; rw [respond_getLast] at hlast; cases hlast
  · cases h
    rw [respond_getLast, Option.some_inj] at hlast
    cases hlast
    obtain ⟨-, hspace⟩ := (cursorWf_iff _).1 (hblock.slots k) hlive
    have hlen := (s.slot k).len.isLt
    have hr1 : (word (viewSize v)).toNat = viewSize v := word_toNat_of_lt (by omega)
    have hpos : (word (viewSize v)).toNat ≠ 0 := fun h0 => hne (BitVec.eq_of_toNat_eq h0)
    have hr0 : (s.slot k).address.toNat = (s.slot k).base.toNat + (s.slot k).off.toNat :=
      word_toNat_of_lt (by omega)
    change (s.slot k).base.toNat ≤ (s.slot k).address.toNat ∧
      (s.slot k).address.toNat + (word (viewSize v)).toNat ≤ _ ∧ _
    omega

/-- Settles O36: the tests look at the operands and the configuration, and the reads return the bytes of the range. -/
theorem checksumDependsOnItsRangeAlone : Obligations.ChecksumDependsOnItsRangeAlone := by
  intro s t u addr len seed r hcfg hbytes h hlast
  change execCsum addr len seed s = _ at h
  obtain ⟨hbad, he⟩ | ⟨-, -, -, he⟩ | ⟨hseed, hle, hb, he⟩ := execCsum_cases addr len seed s
  · cases he.symm.trans h
    rw [respond_getLast] at hlast
    cases hlast
    exact ⟨_, execCsum_of_beyond hbad t, respond_getLast _ _ _⟩
  · cases he.symm.trans h
  · cases he.symm.trans h
    rw [respond_getLast] at hlast
    cases hlast
    rw [hcfg] at hb
    refine ⟨_, execCsum_of_backed hseed hle ((backsRange_iff _ _ _).1 hb), ?_⟩
    rw [respond_getLast, State.bytesAt_congr len.toNat addr.toNat hbytes]
    rfl

end Sys2Proof.Machine
end

section
/-! SUPPORT. Fields put and got again (R113, R114), and the whole header: its fields tile it, so encoding and decoding go field
by field (R100, R115). -/

namespace Sys2Proof.Machine

/-! ## The table of fields (R76, R101 to R106) -/

/-- The rows of the tables list the selectors of the decoder, in their order. -/
theorem fieldTable_selectors (t : HdrType) : (fieldTable t).map (fun row => (row.sel, row.field)) = t.selectors := by
  cases t <;> rfl

theorem HdrType.mem_selectors_of_fieldOfSel {t : HdrType} {F : BitVec 8} {f : Field} (h : t.fieldOfSel F = some f) :
    (F, f) ∈ t.selectors := by
  obtain ⟨e, he, rfl⟩ := Option.map_eq_some_iff.1 h
  have hF : e.1 = F := by simpa using List.find?_some he
  rw [← hF]
  exact List.mem_of_find?_eq_some he

/-- Each row of the tables is the layout of its field. -/
theorem fieldTable_layout (t : HdrType) : ∀ row ∈ fieldTable t, t.fieldOfSel row.sel = some row.field ∧
    (layout t row.field).map (fun l => (l.off, l.width, l.valueBits)) = some (row.off, row.width, row.bits) := by
  cases t <;> decide

/-! ## Values that fit a field (R118) -/

section
variable {t : HdrType} {f : Field} {l : FieldLayout}

/-- `ver` and `ihl` are the fields of 4 bits. -/
theorem layout_valueBits (hl : layout t f = some l) :
    l.valueBits = if f = .ver ∨ f = .ihl then 4 else 8 * l.width := by
  revert l; cases t <;> cases f <;> simp [layout, FieldLayout.valueBits, FieldLayout.subByte]

theorem valueBits_of_whole (hw : l.subByte = false) : l.valueBits = 8 * l.width := by
  simp [FieldLayout.valueBits, hw]

/-- The flag byte is one byte, and it is the field `flags`. -/
theorem layout_flagByte (hl : layout t f = some l) : (l.part = .flagByte ↔ f = .flags) ∧ (f = .flags → l.width = 1) := by
  revert l; cases t <;> cases f <;> simp [layout]

/-- The byte a whole field's bytes are put over does not matter. -/
theorem putField_of_whole (hw : l.subByte = false) (b c : Byte) (v : Nat) : putField l b v = putField l c v := by
  obtain ⟨off, width, part⟩ := l
  cases part with
  | whole | flagByte => rfl
  | highNibble | lowNibble => cases hw

/-- A byte without its bits 7:6. -/
theorem toNat_and_flags (v : Nat) : (BitVec.ofNat 8 v &&& 0x3F).toNat = v % 64 := by
  have h : v % 256 &&& 63 = v % 256 % 2 ^ 6 := Nat.and_two_pow_sub_one_eq_mod (v % 256) 6
  simp only [BitVec.toNat_and, BitVec.toNat_ofNat, BitVec.ofNat_eq_ofNat, Nat.reducePow, Nat.reduceMod, h]
  omega

theorem append_nibbles_toNat (hi lo : BitVec 4) : (hi ++ lo : BitVec 8).toNat = hi.toNat * 16 + lo.toNat := by
  have h := BitVec.toNat_append hi lo
  rw [← Nat.shiftLeft_add_eq_or_of_lt lo.isLt, Nat.shiftLeft_eq] at h
  exact h

/-- The high nibble set to `v`, the low one kept (R107). -/
theorem highNibble_put (v : Nat) (old : Byte) : (BitVec.ofNat 8 v <<< 4) ||| (old &&& 0x0F) =
    (BitVec.ofNat 4 v ++ old.setWidth 4 : BitVec 8) := by
  have hlow : old.toNat &&& 15 = old.toNat % 2 ^ 4 := Nat.and_two_pow_sub_one_eq_mod old.toNat 4
  have hhigh : (v % 256) <<< 4 % 256 = (v % 16) <<< 4 := by
    rw [Nat.shiftLeft_eq, Nat.shiftLeft_eq]
    omega
  apply BitVec.eq_of_toNat_eq
  rw [append_nibbles_toNat]
  simp only [BitVec.toNat_or, BitVec.toNat_shiftLeft, BitVec.toNat_and, BitVec.toNat_ofNat, BitVec.ofNat_eq_ofNat,
    BitVec.toNat_setWidth, Nat.reducePow, Nat.reduceMod, hlow, hhigh]
  rw [← Nat.shiftLeft_add_eq_or_of_lt (by omega), Nat.shiftLeft_eq]

theorem and_highMask (old : Byte) : old &&& 0xF0#8 = (old >>> 4) <<< 4 := by
  ext i hi
  interval_cases i <;> simp

/-- The low nibble set to `v`, the high one kept (R107). -/
theorem lowNibble_put {v : Nat} (hv : v < 16) (old : Byte) : (old &&& 0xF0) ||| BitVec.ofNat 8 v =
    (old.extractLsb' 4 4 ++ BitVec.ofNat 4 v : BitVec 8) := by
  have hold := old.isLt
  have hhigh : (old &&& 0xF0).toNat = (old.toNat / 16) <<< 4 := by
    change (old &&& 0xF0#8).toNat = _
    rw [and_highMask, BitVec.toNat_shiftLeft, BitVec.toNat_ushiftRight,
      Nat.shiftLeft_eq, Nat.shiftLeft_eq, Nat.shiftRight_eq_div_pow]
    omega
  apply BitVec.eq_of_toNat_eq
  rw [append_nibbles_toNat, BitVec.toNat_or, hhigh]
  simp only [BitVec.toNat_ofNat, BitVec.extractLsb'_toNat, Nat.shiftRight_eq_div_pow]
  rw [← Nat.shiftLeft_add_eq_or_of_lt (by omega), Nat.shiftLeft_eq]
  omega
/-- What was put into a field is what is got from it: in `flags` without bits 7:6. -/
theorem getField_putField (hl : layout t f = some l) {v : Nat} (hv : v < 2 ^ l.valueBits) (old : Byte) :
    getField l (putField l old v) = if f = .flags then v % 64 else v := by
  obtain ⟨hflags, -⟩ := layout_flagByte hl
  obtain ⟨off, width, part⟩ := l
  cases part with
  | whole =>
    rw [if_neg fun hf => by cases hflags.2 hf]
    exact be_bytesBe v width (by rw [show 256 = 2 ^ 8 from rfl, ← pow_mul]; exact hv)
  | flagByte =>
    rw [if_pos (hflags.1 rfl)]
    simp only [getField, putField, be, List.foldl, toNat_and_flags, Nat.zero_mul, Nat.zero_add]
  | highNibble =>
    rw [if_neg fun hf => by cases hflags.2 hf]
    have hv' : v < 16 := hv
    have hold := (old.setWidth 4).isLt
    simp only [getField, putField, be, List.foldl, highNibble_put, append_nibbles_toNat, BitVec.toNat_ofNat]
    omega
  | lowNibble =>
    rw [if_neg fun hf => by cases hflags.2 hf]
    have hv' : v < 16 := hv
    simp only [getField, putField, be, List.foldl, lowNibble_put hv', append_nibbles_toNat, BitVec.toNat_ofNat]
    omega

/-- The value of a whole field's bytes. -/
theorem be_putField (hl : layout t f = some l) (hw : l.subByte = false) {v : Nat} (hv : v < 2 ^ (8 * l.width)) :
    be (putField l 0 v) = if f = .flags then v % 64 else v := by
  rw [← getField_of_whole hw]
  exact getField_putField hl (by rwa [valueBits_of_whole hw]) 0

end

/-! ## The state after `FPUT` (R114) -/

theorem State.bytesAt_of_mem {s u : State} (h : u.mem = s.mem) (a n : Nat) : u.bytesAt a n = s.bytesAt a n :=
  State.bytesAt_congr n a fun j _ => State.byteAt_congr (congrArg (Memory.lookup · (a + j)) h)

theorem writeActions_map_range (g : Nat → Byte) (n : Nat) : ∀ a,
    writeActions a ((List.range n).map fun j => g (a + j)) = (List.range n).map fun j => .write (a + j) (g (a + j)) := by
  induction n with
  | zero => intro a; rfl
  | succ n ih =>
    intro a
    have h := ih (a + 1)
    simp only [Nat.add_assoc, Nat.add_comm 1] at h
    simp [List.range_succ_eq_map, writeActions, Function.comp_def, h]

/-- A field's write changes memory and the record alone, and memory at the field alone; the bytes there are those put. -/
theorem State.afterPut_facts (s : State) (l : FieldLayout) (a v : Nat) :
    s.afterPut l a v = { s with mem := (s.afterPut l a v).mem, trace := (s.afterPut l a v).trace } ∧
      (s.afterPut l a v).mem = (s.afterWrite a (putField l (s.byteAt a) v)).mem := by
  unfold State.afterPut
  split
  · exact ⟨rfl, rfl⟩
  · rename_i hw
    rw [putField_of_whole (Bool.eq_false_of_not_eq_true hw) (s.byteAt a) 0]
    exact ⟨rfl, rfl⟩

section
variable {t : HdrType} {f : Field} {l : FieldLayout} {s : State} {addr v : Word}

/-- `FPUT` of a field that memory backs, with a value that fits. -/
theorem execFput_of_backed (hl : layout t f = some l) (hv : v.toNat < 2 ^ l.valueBits)
    (hle : addr.toNat + l.off + l.width ≤ 2 ^ 64) (hb : ∀ j < l.width, backs s.cfg (addr.toNat + l.off + j) = true) :
    execFput t f addr v s = .next ((s.afterPut l (addr.toNat + l.off) v.toNat).respond .ok {}) := by
  have hb' := (backsRange_iff s.cfg l.width (addr.toNat + l.off)).2 hb
  obtain ⟨hbad, -⟩ | ⟨-, -, hf, -⟩ | ⟨-, -, -, he⟩ := execFput_cases t f addr v s l hl
  · omega
  · rw [hb'] at hf; cases hf
  · exact he

/-- `FPUT` of a value that does not fit, or of a field beyond the address space, is turned away. -/
theorem execFput_of_beyond (hl : layout t f = some l)
    (h : 2 ^ l.valueBits ≤ v.toNat ∨ 2 ^ 64 < addr.toNat + l.off + l.width) :
    execFput t f addr v s = .next (s.respond .badArg {}) := by
  obtain ⟨-, he⟩ | ⟨hv, hle, -⟩ | ⟨hv, hle, -⟩ := execFput_cases t f addr v s l hl
  · exact he
  · omega
  · omega

/-- `FPUT` of a whole field is the writes of its bytes. -/
theorem execFput_of_whole (hl : layout t f = some l) (hw : l.subByte = false) (hv : v.toNat < 2 ^ (8 * l.width))
    (hle : addr.toNat + l.off + l.width ≤ 2 ^ 64) (hb : ∀ j < l.width, backs s.cfg (addr.toNat + l.off + j) = true) :
    execFput t f addr v s = .next ((s.afterWrite (addr.toNat + l.off) (putField l 0 v.toNat)).respond .ok {}) := by
  rw [execFput_of_backed hl (by rwa [valueBits_of_whole hw]) hle hb, State.afterPut, hw]
  rfl

/-- `FPUT` of a sub-byte field of `IP` reads its byte and writes it with one nibble replaced. -/
theorem execFput_nibble {part : FieldPart} (hl : layout .ip f = some ⟨0, 1, part⟩)
    (hsub : FieldLayout.subByte ⟨0, 1, part⟩ = true) (hv : v.toNat < 16) (hb : backs s.cfg addr.toNat = true) :
    execFput .ip f addr v s = .next (((s.afterRead addr.toNat 1).afterWrite addr.toNat
      (putField ⟨0, 1, part⟩ (s.byteAt addr.toNat) v.toNat)).respond .ok {}) := by
  have hlt := addr.isLt
  have hback : ∀ j < 1, backs s.cfg (addr.toNat + 0 + j) = true := by
    intro j hj
    obtain rfl : j = 0 := by omega
    exact hb
  rw [execFput_of_backed hl (by simpa [FieldLayout.valueBits, hsub] using hv) (by simp only; omega) hback, State.afterPut,
    if_pos hsub]
  rfl

/-- A command that reads a byte, writes it and responds changes that byte and the record alone. -/
theorem State.respond_patch_frame {u : State} {a : Nat} {b : Byte} {r : Results}
    (hu : u = ((s.afterRead a 1).afterWrite a [b]).respond .ok r) :
    (∀ x, x ≠ a → u.byteAt x = s.byteAt x) ∧ u.byteAt a = b ∧
      u = { s with
            mem := u.mem
            trace := s.trace ++ [.read a (s.byteAt a), .write a (u.byteAt a), .reply s.port ⟨.ok, r⟩] } := by
  subst hu
  have hsame : (((s.afterRead a 1).afterWrite a [b]).respond .ok r).byteAt a = b :=
    State.byteAt_afterWrite_inside (s.afterRead a 1) a [b] 0 Nat.one_pos
  refine ⟨fun x hx => ?_, hsame, ?_⟩
  · exact State.byteAt_afterWrite_outside (s.afterRead a 1) a [b] x (by simp only [List.length_singleton]; omega)
  · rw [hsame]
    simp [State.respond, State.record, State.afterWrite, State.afterRead, State.bytesAt, readActions, writeActions]

end

end Sys2Proof.Machine
end

section
/-! The obligations of fields: the tables (R76, R100 to R106), and `FPUT` with `FGET` behind it (R114, R118). -/

namespace Sys2Proof.Machine

/-- Settles O17: the tables against the layouts, row by row, and the offsets of the whole fields, header by header. -/
theorem fieldLayoutsAreTheTablesAndTileTheHeaders : Obligations.FieldLayoutsAreTheTablesAndTileTheHeaders := by
  refine ⟨fun t => ⟨fun row hrow => ?_, fun F f hf => ?_⟩, fun t => ?_, rfl, rfl, layout_isSome⟩
  · obtain ⟨hsel, hrow⟩ := fieldTable_layout t row hrow
    obtain ⟨l, hl, hcols⟩ := Option.map_eq_some_iff.1 hrow
    obtain ⟨hoff, hwidth, hbits⟩ : l.off = row.off ∧ l.width = row.width ∧ l.valueBits = row.bits := by
      simpa only [Prod.mk.injEq] using hcols
    exact ⟨hsel, l, hl, hoff, hwidth, hbits⟩
  · have hmem := HdrType.mem_selectors_of_fieldOfSel hf
    rw [← fieldTable_selectors] at hmem
    obtain ⟨row, hrow, heq⟩ := List.mem_map.1 hmem
    obtain ⟨hsel, hfield⟩ := Prod.mk.inj heq
    exact ⟨row, hrow, hsel, hfield⟩
  · cases t <;> decide

/-- Settles O19: the two tests of `FPUT`, which come before any access. -/
theorem fputOutOfRangeIsBadArgAndWritesNothing : Obligations.FputOutOfRangeIsBadArgAndWritesNothing := by
  intro s t f l addr v hl
  refine ⟨?_, fun h => ?_⟩
  · change decode { cw := Opcode.fput.pattern ||| _ ||| _, a0 := addr, a1 := v } = _
    rw [Opcode.pattern_or_t_or_f]
    exact decode_fput (hasField_of_layout hl) addr v
  · rw [← layout_valueBits hl] at h
    exact execFput_of_beyond hl h

/-- Settles O20: the bytes written are those of the value, most significant first, and no others are. -/
theorem fputStoresTheFieldBigEndianAndNothingElse : Obligations.FputStoresTheFieldBigEndianAndNothingElse := by
  intro s t f l addr v hl hw hv hle hb
  have hlen : (putField l 0 v.toNat).length = l.width := layout_putField_length hl 0 v.toNat
  have hbytes : (s.afterWrite (addr.toNat + l.off) (putField l 0 v.toNat)).bytesAt (addr.toNat + l.off) l.width =
      putField l 0 v.toNat := by
    rw [← hlen]
    exact State.bytesAt_afterWrite s _ _
  refine ⟨_, execFput_of_whole hl hw hv hle hb, ?_, fun x hx => ?_, ?_⟩
  · rw [← State.bytesAt_eq_map, State.bytesAt_of_mem (State.respond_mem _ _ _), hbytes, be_putField hl hw hv]
  · exact State.byteAt_afterWrite_outside s _ _ x (by rwa [hlen])
  · have hmap := writeActions_map_range
      ((s.afterWrite (addr.toNat + l.off) (putField l 0 v.toNat)).respond .ok {}).byteAt l.width (addr.toNat + l.off)
    rw [← hmap, ← State.bytesAt_eq_map, State.bytesAt_of_mem (State.respond_mem _ _ _), hbytes]
    rfl

/-- Settles O21: the byte read is the one in memory, and the byte written is it with one nibble replaced. -/
theorem fputOfANibbleKeepsTheOtherNibble : Obligations.FputOfANibbleKeepsTheOtherNibble := by
  intro s addr v hv hb
  have hv4 : BitVec.ofNat 4 v.toNat = v.setWidth 4 := BitVec.ofNat_toNat 4 v
  refine ⟨⟨_, execFput_nibble (f := .ver) rfl rfl hv hb, ?_⟩, ⟨_, execFput_nibble (f := .ihl) rfl rfl hv hb, ?_⟩⟩
  · obtain ⟨hothers, hbyte, hframe⟩ := State.respond_patch_frame (s := s) (a := addr.toNat)
      (b := (BitVec.ofNat 8 v.toNat <<< 4) ||| (s.byteAt addr.toNat &&& 0x0F)) rfl
    exact ⟨hothers, hbyte.trans ((highNibble_put _ _).trans (by rw [hv4])), hframe⟩
  · obtain ⟨hothers, hbyte, hframe⟩ := State.respond_patch_frame (s := s) (a := addr.toNat)
      (b := (s.byteAt addr.toNat &&& 0xF0) ||| BitVec.ofNat 8 v.toNat) rfl
    exact ⟨hothers, hbyte.trans ((lowNibble_put hv _).trans (by rw [hv4])), hframe⟩

/-- The value of a field as a word: in `flags` without bits 7:6. -/
theorem word_flags (f : Field) (v : Word) :
    word (if f = .flags then v.toNat % 64 else v.toNat) = if f = .flags then v &&& 0x3F else v := by
  split_ifs
  · rw [← tfDecode_setWidth]
    apply BitVec.eq_of_toNat_eq
    simp only [word_toNat, tfDecode, BitVec.toNat_setWidth]
  · exact BitVec.eq_of_toNat_eq (word_toNat_of_lt v.isLt)

/-- Settles O22: `FPUT` has left the bytes it put, and `FGET` reads those bytes. -/
theorem fgetAfterFputReturnsTheValue : Obligations.FgetAfterFputReturnsTheValue := by
  intro s u t f addr v r h hlast
  change execFput t f addr v s = _ at h
  cases hl : layout t f with
  | none =>
    simp only [execFput, startFput, hl, complete_reject] at h
    cases h
    rw [respond_getLast] at hlast
    cases hlast
  | some l =>
    obtain ⟨-, he⟩ | ⟨-, -, -, he⟩ | ⟨hv, hle, hb, he⟩ := execFput_cases t f addr v s l hl <;> cases he.symm.trans h
    · rw [respond_getLast] at hlast
      cases hlast
    obtain ⟨hframe, hmem⟩ := s.afterPut_facts l (addr.toNat + l.off) v.toNat
    have hlen := layout_putField_length hl (s.byteAt (addr.toNat + l.off)) v.toNat
    have hbytes := State.bytesAt_afterWrite s (addr.toNat + l.off) (putField l (s.byteAt (addr.toNat + l.off)) v.toNat)
    rw [← State.bytesAt_of_mem hmem, hlen] at hbytes
    have hb' : ∀ j < l.width, backs (s.afterPut l (addr.toNat + l.off) v.toNat).cfg (addr.toNat + l.off + j) = true := by
      rw [hframe]
      exact (backsRange_iff _ _ _).1 hb
    have hget := execFget_of_backed (s := (s.afterPut l (addr.toNat + l.off) v.toNat).respond .ok {}) hl hle hb'
    rw [State.bytesAt_of_mem (State.respond_mem _ _ _), hbytes, getField_putField hl hv, word_flags] at hget
    exact ⟨_, hget⟩

end Sys2Proof.Machine
end

section
/-! SUPPORT. Whole headers (R100, R115): the whole fields of a header lie one after the other from its first byte to its last, so
encoding, decoding and storing go field by field. -/

namespace Sys2Proof.Machine

/-! ## Fields one after the other -/

/-- The fields `fs` of `t` are whole fields, the first at offset `o`, each starting where the one before ends, the last ending
at offset `e`. -/
def Tiles (t : HdrType) : Nat → List Field → Nat → Prop
  | o, [], e => o = e
  | o, f :: fs, e => ∃ l, layout t f = some l ∧ l.subByte = false ∧ l.off = o ∧ Tiles t (o + l.width) fs e

theorem wholeFields_tile (t : HdrType) : Tiles t 0 (wholeFields t) (headerSize t) := by
  cases t <;> simp [wholeFields, HdrType.fields, layout, FieldLayout.subByte, Tiles, headerSize]

theorem encodeField_eq {t : HdrType} {f : Field} {l : FieldLayout} (hl : layout t f = some l) (v : Nat) :
    encodeField t f v = putField l 0 v := by
  simp only [encodeField, hl]

theorem decodeField_eq {t : HdrType} {f : Field} {l : FieldLayout} (hl : layout t f = some l) (bs : List Byte) :
    decodeField t bs f = getField l ((bs.drop l.off).take l.width) := by
  simp only [decodeField, hl]

/-- Each field's value fits its width. -/
def FieldsFit (t : HdrType) (fs : List Field) (vs : List Nat) : Prop :=
  ∀ f v l, (f, v) ∈ fs.zip vs → layout t f = some l → v < 2 ^ (8 * l.width)

section
variable {t : HdrType}

theorem Tiles.le {fs : List Field} : ∀ {o e : Nat}, Tiles t o fs e → o ≤ e := by
  induction fs with
  | nil => exact fun h => Nat.le_of_eq h
  | cons f fs ih =>
    rintro o e ⟨l, -, -, -, hrest⟩
    exact (Nat.le_add_right _ _).trans (ih hrest)

/-- The bytes encoded are as many as the fields are wide. -/
theorem Tiles.encode_length {fs : List Field} : ∀ {o e : Nat} {vs : List Nat}, Tiles t o fs e → vs.length = fs.length →
    o + (encodeFields t fs vs).length = e := by
  induction fs with
  | nil => rintro o e vs rfl -; cases vs <;> rfl
  | cons f fs ih =>
    rintro o e vs ⟨l, hl, -, -, hrest⟩ hlen
    obtain ⟨v, vs, rfl⟩ := List.exists_cons_of_length_eq_add_one hlen
    have h := ih hrest (Nat.succ.inj hlen)
    rw [encodeFields, List.length_append, encodeField_eq hl, layout_putField_length hl]
    omega

/-- Decoding what was encoded, behind any `o` bytes (R115). -/
theorem Tiles.decode_encode {fs : List Field} : ∀ {o e : Nat} {vs : List Nat} {pre : List Byte}, Tiles t o fs e →
    vs.length = fs.length → FieldsFit t fs vs → pre.length = o →
    fs.map (decodeField t (pre ++ encodeFields t fs vs)) =
      (fs.zip vs).map fun e => if e.1 = .flags then e.2 % 64 else e.2 := by
  induction fs with
  | nil => intros; rfl
  | cons f fs ih =>
    rintro o e vs pre ⟨l, hl, hw, rfl, hrest⟩ hlen hfit hpre
    obtain ⟨v, vs, rfl⟩ := List.exists_cons_of_length_eq_add_one hlen
    have hv : v < 2 ^ (8 * l.width) := hfit f v l List.mem_cons_self hl
    have hbytes : (putField l 0 v).length = l.width := layout_putField_length hl 0 v
    have htail := ih (pre := pre ++ putField l 0 v) hrest (Nat.succ.inj hlen)
      (fun f v l hmem => hfit f v l (List.mem_cons_of_mem _ hmem)) (by rw [List.length_append, hpre, hbytes])
    rw [encodeFields, encodeField_eq hl, List.map_cons, List.zip_cons_cons, List.map_cons, decodeField_eq hl, ← hpre,
      List.drop_left, ← hbytes, List.take_left, getField_of_whole hw, be_putField hl hw hv, ← htail, List.append_assoc]

/-- A whole field put with the value of its bytes is those bytes again; the flag byte, where bits 7:6 are zero. -/
theorem putField_getField {f : Field} {l : FieldLayout} (hl : layout t f = some l) (hw : l.subByte = false)
    {bs : List Byte} (hlen : bs.length = l.width) (hflags : f = .flags → ∀ b ∈ bs, b.toNat < 64) :
    putField l 0 (getField l bs) = bs := by
  obtain ⟨hpart, hwidth⟩ := layout_flagByte hl
  rw [getField_of_whole hw]
  obtain ⟨off, width, part⟩ := l
  cases part with
  | whole =>
    obtain rfl : bs.length = width := hlen
    exact bytesBe_be bs
  | flagByte =>
    have hf := hpart.1 rfl
    obtain ⟨b, rfl⟩ := List.length_eq_one_iff.1 (hlen.trans (hwidth hf))
    have hb := hflags hf b List.mem_cons_self
    simp only [putField, be, List.foldl, List.cons.injEq, and_true, Nat.zero_mul, Nat.zero_add]
    apply BitVec.eq_of_toNat_eq
    rw [toNat_and_flags, Nat.mod_eq_of_lt hb]
  | highNibble | lowNibble => cases hw

/-- Encoding what was decoded (R115). -/
theorem Tiles.encode_decode {fs : List Field} : ∀ {o e : Nat} {bs : List Byte}, Tiles t o fs e → bs.length = e →
    (∀ l, layout t .flags = some l → ∀ b, bs[l.off]? = some b → b.toNat < 64) →
    encodeFields t fs (fs.map (decodeField t bs)) = bs.drop o := by
  induction fs with
  | nil => rintro o e bs rfl hlen -; rw [← hlen, List.drop_length]; rfl
  | cons f fs ih =>
    rintro o e bs ⟨l, hl, hw, rfl, hrest⟩ hlen hflags
    have hle := hrest.le
    have htake : ((bs.drop l.off).take l.width).length = l.width := by
      rw [List.length_take, List.length_drop]
      omega
    rw [List.map_cons, encodeFields, ih hrest hlen hflags, encodeField_eq hl, decodeField_eq hl,
      putField_getField hl hw htake, ← List.drop_drop, List.take_append_drop]
    rintro rfl b hb
    obtain ⟨-, hwidth⟩ := layout_flagByte hl
    rw [hwidth rfl, List.take_one, List.head?_drop, Option.mem_toList] at hb
    exact hflags l hl b hb

/-! ## Fields that do not overlap -/

/-- The bytes of two fields are apart. -/
def Apart (t : HdrType) (f g : Field) : Prop :=
  ∀ l m, layout t f = some l → layout t g = some m → l.off + l.width ≤ m.off ∨ m.off + m.width ≤ l.off

theorem Apart.symm {f g : Field} (h : Apart t f g) : Apart t g f :=
  fun l m hl hm => (h m l hm hl).symm

/-- Each field lies between the first offset and the last. -/
theorem Tiles.mem {fs : List Field} : ∀ {o e : Nat}, Tiles t o fs e → ∀ f ∈ fs,
    ∃ l, layout t f = some l ∧ l.subByte = false ∧ o ≤ l.off ∧ l.off + l.width ≤ e := by
  induction fs with
  | nil => exact fun _ _ h => (List.not_mem_nil h).elim
  | cons f fs ih =>
    rintro o e ⟨l, hl, hw, rfl, hrest⟩ g hg
    obtain rfl | hg := List.mem_cons.1 hg
    · exact ⟨l, hl, hw, le_refl _, hrest.le⟩
    · obtain ⟨m, hm, hmw, hlo, hhi⟩ := ih hrest g hg
      exact ⟨m, hm, hmw, (Nat.le_add_right _ _).trans hlo, hhi⟩

theorem Tiles.pairwise {fs : List Field} : ∀ {o e : Nat}, Tiles t o fs e → fs.Pairwise (Apart t) := by
  induction fs with
  | nil => exact fun _ => .nil
  | cons f fs ih =>
    rintro o e ⟨l, hl, -, rfl, hrest⟩
    refine List.pairwise_cons.2 ⟨fun g hg l' m hl' hm => ?_, ih hrest⟩
    obtain ⟨m', hm', -, hlo, -⟩ := hrest.mem g hg
    cases hl.symm.trans hl'
    cases hm'.symm.trans hm
    exact .inl hlo

end

/-! ## `FPUT` of several fields (R115) -/

theorem State.bytesAt_add (s : State) (n m : Nat) : ∀ a, s.bytesAt a (n + m) = s.bytesAt a n ++ s.bytesAt (a + n) m := by
  induction n with
  | zero => intro a; simp [State.bytesAt]
  | succ n ih => intro a; rw [Nat.succ_add, State.bytesAt, State.bytesAt, ih, Nat.succ_add_eq_add_succ, List.cons_append]

/-- The value of field `f` fits, memory backs its bytes, and they lie in the address space. -/
def CanPut (c : Config) (t : HdrType) (addr : Word) (f : Field) (v : Word) : Prop :=
  ∃ l, layout t f = some l ∧ l.subByte = false ∧ v.toNat < 2 ^ (8 * l.width) ∧ addr.toNat + l.off + l.width ≤ 2 ^ 64 ∧
    ∀ j < l.width, backs c (addr.toNat + l.off + j) = true

/-- `FPUT` of fields that are apart leaves the bytes of each, and changes no byte outside them. -/
theorem execAll_fput {t : HdrType} {addr : Word} : ∀ {puts : List (Field × Word)} {s : State},
    (puts.map Prod.fst).Pairwise (Apart t) → (∀ e ∈ puts, CanPut s.cfg t addr e.1 e.2) →
    ∃ u, execAll (puts.map fun e => .fput t e.1 addr e.2) s = .next u ∧
      (∀ f v l, (f, v) ∈ puts → layout t f = some l →
        u.bytesAt (addr.toNat + l.off) l.width = encodeField t f v.toNat) ∧
      ∀ x, (∀ f v l, (f, v) ∈ puts → layout t f = some l →
        x < addr.toNat + l.off ∨ addr.toNat + l.off + l.width ≤ x) → u.byteAt x = s.byteAt x
  | [], s, _, _ => ⟨s, rfl, fun _ _ _ h => (List.not_mem_nil h).elim, fun _ _ => rfl⟩
  | (f, v) :: puts, s, hapart, hcan => by
    obtain ⟨hf, hapart⟩ := List.pairwise_cons.1 hapart
    obtain ⟨⟨l, hl, hw, hv, hle, hb⟩, hcan⟩ := List.forall_mem_cons.1 hcan
    have hstep : exec (.fput t f addr v) s = _ := execFput_of_whole hl hw hv hle hb
    have hlen : (putField l 0 v.toNat).length = l.width := layout_putField_length hl 0 v.toNat
    obtain ⟨u, hrun, hbytes, hothers⟩ := execAll_fput hapart
      (s := (s.afterWrite (addr.toNat + l.off) (putField l 0 v.toNat)).respond .ok {}) hcan
    refine ⟨u, (execAll_cons hstep _).trans hrun, fun g w m hmem hm => ?_, fun x hx => ?_⟩
    · obtain heq | hmem := List.mem_cons.1 hmem
      · cases heq
        cases hl.symm.trans hm
        have hkept : u.bytesAt (addr.toNat + l.off) l.width =
            (s.afterWrite (addr.toNat + l.off) (putField l 0 v.toNat)).bytesAt (addr.toNat + l.off) l.width := by
          refine State.bytesAt_congr _ _ fun j hj => hothers _ fun g w m hmem hm => ?_
          have hdist := hf g (List.mem_map_of_mem hmem) l m hl hm
          omega
        rw [hkept, encodeField_eq hl, ← hlen]
        exact State.bytesAt_afterWrite s _ _
      · exact hbytes g w m hmem hm
    · refine (hothers x fun g w m hmem hm => hx g w m (List.mem_cons_of_mem _ hmem) hm).trans ?_
      refine State.byteAt_afterWrite_outside s _ _ x ?_
      rw [hlen]
      exact hx f v l List.mem_cons_self hl

/-- Bytes that are field by field those of the encoding are the encoding. -/
theorem Tiles.bytesAt_eq_encode {t : HdrType} {u : State} {a : Nat} {fs : List Field} :
    ∀ {o e : Nat} {vs : List Word}, Tiles t o fs e → vs.length = fs.length →
      (∀ f v l, (f, v) ∈ fs.zip vs → layout t f = some l → u.bytesAt (a + l.off) l.width = encodeField t f v.toNat) →
      u.bytesAt (a + o) (e - o) = encodeFields t fs (vs.map BitVec.toNat) := by
  induction fs with
  | nil => rintro o e vs rfl - -; rw [Nat.sub_self]; rfl
  | cons f fs ih =>
    rintro o e vs ⟨l, hl, -, rfl, hrest⟩ hlen hbytes
    obtain ⟨v, vs, rfl⟩ := List.exists_cons_of_length_eq_add_one hlen
    have hle := hrest.le
    have htail := ih hrest (Nat.succ.inj hlen) fun f v l hmem => hbytes f v l (List.mem_cons_of_mem _ hmem)
    rw [List.map_cons, encodeFields, ← hbytes f v l List.mem_cons_self hl, ← htail, ← Nat.add_assoc a,
      ← State.bytesAt_add]
    congr 1
    omega

end Sys2Proof.Machine
end

section
/-! The obligations of whole headers (R115). -/

namespace Sys2Proof.Machine

/-- Settles O23: the whole fields tile the header, so both directions go field by field. -/
theorem headerEncodeAndDecodeAreInverse : Obligations.HeaderEncodeAndDecodeAreInverse := by
  refine fun t => ⟨fun vs hlen hfit => ?_, fun bs hlen hflags => ?_⟩
  · have htile := wholeFields_tile t
    have hfit' : FieldsFit t (wholeFields t) vs := by
      intro f v l hmem hl
      obtain ⟨n, hn, hget⟩ := List.mem_iff_getElem.1 hmem
      rw [List.getElem_zip] at hget
      obtain ⟨hf, hv⟩ := Prod.mk.inj hget
      exact hfit n f l v (List.getElem?_eq_some_iff.2 ⟨_, hf⟩) hl (List.getElem?_eq_some_iff.2 ⟨_, hv⟩)
    exact ⟨(Nat.zero_add _).symm.trans (htile.encode_length hlen), htile.decode_encode (pre := []) hlen hfit' rfl⟩
  · refine (wholeFields_tile t).encode_decode hlen fun l hl b hb => ?_
    cases t <;> cases hl
    exact hflags rfl b hb

/-- Settles O24: fields of a header are apart, so the order of their stores does not matter. -/
theorem fputOfEveryFieldInAnyOrderBuildsTheHeader : Obligations.FputOfEveryFieldInAnyOrderBuildsTheHeader := by
  intro s t addr vs puts hspace hback hlen hperm hfit
  have htile := wholeFields_tile t
  have hfst : ((wholeFields t).zip vs).map Prod.fst = wholeFields t := List.map_fst_zip hlen.ge
  have hfields : (puts.map Prod.fst).Perm (wholeFields t) := hfst ▸ hperm.map Prod.fst
  have hapart : (puts.map Prod.fst).Pairwise (Apart t) :=
    (hfields.pairwise_iff fun h => h.symm).2 htile.pairwise
  have hmem (f : Field) (v : Word) (h : (f, v) ∈ puts) : f ∈ wholeFields t :=
    hfields.mem_iff.1 (List.mem_map_of_mem (f := Prod.fst) h)
  have hcan : ∀ e ∈ puts, CanPut s.cfg t addr e.1 e.2 := by
    rintro ⟨f, v⟩ he
    obtain ⟨l, hl, hw, -, hhi⟩ := htile.mem f (hmem f v he)
    refine ⟨l, hl, hw, hfit f v l he hl, by omega, fun j hj => ?_⟩
    rw [Nat.add_assoc]
    exact hback (l.off + j) (by omega)
  obtain ⟨u, hrun, hbytes, hothers⟩ := execAll_fput hapart hcan
  refine ⟨u, hrun, ?_, fun x hx => hothers x fun f v l he hl => ?_⟩
  · exact htile.bytesAt_eq_encode (o := 0) hlen fun f v l he hl => hbytes f v l (hperm.mem_iff.2 he) hl
  · obtain ⟨m, hm, -, -, hhi⟩ := htile.mem f (hmem f v he)
    cases hl.symm.trans hm
    omega

end Sys2Proof.Machine
end

section
/-! SUPPORT. The register window (R186 to R190): the outcomes of a volatile access one by one, and its bytes, least significant
first (R42). -/

namespace Sys2Proof.Machine

/-! ## The outcomes -/

section
variable {w : IoWidth} {base off value : Word} {s : State}

theorem ioRead_of_beyond (h : 2 ^ 64 < base.toNat + off.toNat + w.bytes) :
    (ioRead w base off s).complete = .next (s.respond .badArg {}) := by
  obtain ⟨-, he⟩ | ⟨hle, -⟩ | ⟨hle, -⟩ | ⟨hle, -⟩ := ioRead_cases w base off s
  · exact he
  all_goals omega

theorem ioRead_of_misaligned (hle : base.toNat + off.toNat + w.bytes ≤ 2 ^ 64)
    (halign : (base.toNat + off.toNat) % w.bytes ≠ 0) :
    (ioRead w base off s).complete = .refused .misalignedRegisterAccess := by
  obtain ⟨hgt, -⟩ | ⟨-, -, he⟩ | ⟨-, ha, -⟩ | ⟨-, ha, -⟩ := ioRead_cases w base off s
  · omega
  · exact he
  · exact absurd ha halign
  · exact absurd ha halign

/-- An aligned volatile read in the address space, by what the maps say of its bytes. -/
theorem ioRead_of_aligned (hle : base.toNat + off.toNat + w.bytes ≤ 2 ^ 64)
    (halign : (base.toNat + off.toNat) % w.bytes = 0) :
    (ioRead w base off s).complete =
      if reachesRange s.cfg (base.toNat + off.toNat) w.bytes then
        .next ((s.afterIoRead (base.toNat + off.toNat) w).respond .ok
          { r0 := word (le (s.ioBytes (base.toNat + off.toNat) 0 w.bytes)) })
      else .fault .unbackedAccess := by
  obtain ⟨hgt, -⟩ | ⟨-, ha, -⟩ | ⟨-, -, hreach, he⟩ | ⟨-, -, hreach, he⟩ := ioRead_cases w base off s
  · omega
  · exact absurd halign ha
  · rw [he, hreach]; rfl
  · rw [he, hreach]; rfl

theorem ioWrite_of_beyond (h : 2 ^ (8 * w.bytes) ≤ value.toNat ∨ 2 ^ 64 < base.toNat + off.toNat + w.bytes) :
    (ioWrite w base off value s).complete = .next (s.respond .badArg {}) := by
  obtain ⟨-, he⟩ | ⟨hv, hle, -⟩ | ⟨hv, hle, -⟩ | ⟨hv, hle, -⟩ := ioWrite_cases w base off value s
  · exact he
  all_goals omega

theorem ioWrite_of_misaligned (hv : value.toNat < 2 ^ (8 * w.bytes)) (hle : base.toNat + off.toNat + w.bytes ≤ 2 ^ 64)
    (halign : (base.toNat + off.toNat) % w.bytes ≠ 0) :
    (ioWrite w base off value s).complete = .refused .misalignedRegisterAccess := by
  obtain ⟨hgt, -⟩ | ⟨-, -, -, he⟩ | ⟨-, -, ha, -⟩ | ⟨-, -, ha, -⟩ := ioWrite_cases w base off value s
  · omega
  · exact he
  · exact absurd ha halign
  · exact absurd ha halign

/-- An aligned volatile write of a value that fits, by what the maps say of its bytes. -/
theorem ioWrite_of_aligned (hv : value.toNat < 2 ^ (8 * w.bytes)) (hle : base.toNat + off.toNat + w.bytes ≤ 2 ^ 64)
    (halign : (base.toNat + off.toNat) % w.bytes = 0) :
    (ioWrite w base off value s).complete =
      if reachesRange s.cfg (base.toNat + off.toNat) w.bytes then
        .next ((s.afterIoWrite (base.toNat + off.toNat) (bytesLe value.toNat w.bytes)).respond .ok {})
      else .fault .unbackedAccess := by
  obtain ⟨hgt, -⟩ | ⟨-, -, ha, -⟩ | ⟨-, -, -, hreach, he⟩ | ⟨-, -, -, hreach, he⟩ := ioWrite_cases w base off value s
  · omega
  · exact absurd halign ha
  · rw [he, hreach]; rfl
  · rw [he, hreach]; rfl

/-- A volatile write that answers `ST_OK` had a value that fits, in the address space, at an aligned address. -/
theorem ioWrite_ok {u : State} {r : Results} (h : (ioWrite w base off value s).complete = .next u)
    (hlast : u.trace.getLast? = some (.reply s.port ⟨.ok, r⟩)) :
    value.toNat < 2 ^ (8 * w.bytes) ∧ base.toNat + off.toNat + w.bytes ≤ 2 ^ 64 ∧
      (base.toNat + off.toNat) % w.bytes = 0 ∧
      u = (s.afterIoWrite (base.toNat + off.toNat) (bytesLe value.toNat w.bytes)).respond .ok {} := by
  obtain ⟨-, he⟩ | ⟨-, -, -, he⟩ | ⟨-, -, -, -, he⟩ | ⟨hv, hle, halign, -, he⟩ := ioWrite_cases w base off value s <;>
    cases he.symm.trans h
  · rw [respond_getLast] at hlast
    cases hlast
  · exact ⟨hv, hle, halign, rfl⟩

end

/-- A range of bytes each of which is memory or a device register. -/
theorem reachesRange_of_forall {c : Config} {a n : Nat}
    (h : ∀ j < n, backs c (a + j) = true ∨ hasDevice c (a + j) = true) : reachesRange c a n = true :=
  (reachesRange_iff c n a).2 fun j hj => Bool.or_eq_true_iff.2 (h j hj)

theorem reachesRange_eq_false {c : Config} {a n : Nat}
    (h : ∃ j < n, backs c (a + j) = false ∧ hasDevice c (a + j) = false) : reachesRange c a n = false := by
  obtain ⟨j, hj, hb, hd⟩ := h
  refine Bool.eq_false_of_not_eq_true fun hreach => ?_
  have hor := (reachesRange_iff c n a).1 hreach j hj
  rw [hb, hd] at hor
  cases hor

theorem backsRange_eq_false {c : Config} {a n : Nat} (h : ∃ j < n, backs c (a + j) = false) : backsRange c a n = false := by
  obtain ⟨j, hj, hb⟩ := h
  refine Bool.eq_false_of_not_eq_true fun hback => ?_
  cases hb.symm.trans ((backsRange_iff c n a).1 hback j hj)

theorem reachesRange_of_backsRange {c : Config} {a n : Nat} (h : backsRange c a n = true) : reachesRange c a n = true :=
  reachesRange_of_forall fun j hj => .inl ((backsRange_iff c n a).1 h j hj)

/-! ## The bytes -/

/-- Byte `j` of a volatile read is what memory or the device answers at its address. -/
theorem State.ioBytes_getElem? (s : State) (n : Nat) : ∀ a lane j, j < n →
    (s.ioBytes a lane n)[j]? = some (s.ioByte (a + j) (lane + j)) := by
  induction n with
  | zero => intro a lane j hj; cases hj
  | succ n ih =>
    intro a lane j hj
    cases j with
    | zero => rfl
    | succ j =>
      rw [State.ioBytes, List.getElem?_cons_succ, ih _ _ _ (Nat.lt_of_succ_lt_succ hj)]
      simp only [Nat.add_assoc, Nat.add_comm 1]

/-- Byte `j` of a number, least significant first. -/
theorem bytesLe_getElem? (n : Nat) : ∀ v j, j < n → (bytesLe v n)[j]? = some (BitVec.ofNat 8 (v / 256 ^ j)) := by
  induction n with
  | zero => intro v j hj; cases hj
  | succ n ih =>
    intro v j hj
    cases j with
    | zero => simp [bytesLe]
    | succ j =>
      rw [bytesLe, List.getElem?_cons_succ, ih _ _ (Nat.lt_of_succ_lt_succ hj), Nat.div_div_eq_div_mul, pow_succ,
        Nat.mul_comm]

/-- A volatile write stores each byte that falls on memory. -/
theorem Memory.lookup_storeBacked_inside (c : Config) (bs : List Byte) : ∀ (m : Memory) (a j : Nat), j < bs.length →
    backs c (a + j) = true → Memory.lookup (Memory.storeBacked c m a bs) (a + j) = bs[j]? := by
  induction bs with
  | nil => intro m a j hj; cases hj
  | cons b bs ih =>
    intro m a j hj hb
    cases j with
    | zero =>
      rw [Nat.add_zero] at hb ⊢
      rw [Memory.storeBacked, Memory.lookup_storeBacked_outside c bs _ (a + 1) a (.inl (Nat.lt_succ_self a)), if_pos hb,
        Memory.lookup_store_same]
      rfl
    | succ j =>
      have hnext : a + (j + 1) = a + 1 + j := by omega
      rw [hnext] at hb ⊢
      exact ih _ (a + 1) j (Nat.lt_of_succ_lt_succ hj) hb

theorem State.byteAt_afterIoWrite_inside {s : State} {a : Nat} {bs : List Byte} {j : Nat} (hj : j < bs.length)
    (hb : backs s.cfg (a + j) = true) : bs[j]? = some ((s.afterIoWrite a bs).byteAt (a + j)) := by
  have h := Memory.lookup_storeBacked_inside s.cfg bs s.mem a j hj hb
  rw [List.getElem?_eq_getElem hj] at h ⊢
  simp only [State.byteAt, State.afterIoWrite_mem, h]

theorem State.byteAt_afterIoWrite_outside {s : State} {a : Nat} {bs : List Byte} {x : Nat}
    (h : x < a ∨ a + bs.length ≤ x ∨ backs s.cfg x = false) : (s.afterIoWrite a bs).byteAt x = s.byteAt x := by
  refine State.byteAt_congr ?_
  obtain hlo | hhi | hx := h
  · exact Memory.lookup_storeBacked_outside s.cfg bs s.mem a x (.inl hlo)
  · exact Memory.lookup_storeBacked_outside s.cfg bs s.mem a x (.inr hhi)
  · exact Memory.lookup_storeBacked_unbacked s.cfg x hx bs s.mem a

/-- A register access has at most four bytes, a number that fits a result word. -/
theorem le_ioBytes_lt (s : State) (a lane : Nat) (w : IoWidth) : le (s.ioBytes a lane w.bytes) < 2 ^ 64 := by
  have h := le_lt (s.ioBytes a lane w.bytes)
  rw [State.ioBytes_length] at h
  refine h.trans_le ?_
  cases w <;> decide

/-- Byte `j` of a word, zero-extended. -/
theorem word_byte (v : Word) (j : Nat) :
    word (le [BitVec.ofNat 8 (v.toNat / 256 ^ j)]) = (v >>> (8 * j)) &&& 0xFF := by
  have hmask : v.toNat >>> (8 * j) &&& 255 = v.toNat >>> (8 * j) % 2 ^ 8 := Nat.and_two_pow_sub_one_eq_mod _ 8
  apply BitVec.eq_of_toNat_eq
  rw [word_toNat, le, le, BitVec.toNat_and, BitVec.toNat_ushiftRight]
  change _ = v.toNat >>> (8 * j) &&& 255
  rw [hmask, Nat.shiftRight_eq_div_pow, pow_mul, BitVec.toNat_ofNat]
  change (v.toNat / 256 ^ j % 2 ^ 8 + 256 * 0) % 2 ^ 64 = v.toNat / 256 ^ j % 2 ^ 8
  exact Nat.mod_eq_of_lt (by omega)

/-- A register read of memory returns the bytes stored, least significant first. -/
theorem ioRead_of_backed {w : IoWidth} {base off : Word} {s : State} {bs : List Byte}
    (hle : base.toNat + off.toNat + w.bytes ≤ 2 ^ 64) (halign : (base.toNat + off.toNat) % w.bytes = 0)
    (hback : backsRange s.cfg (base.toNat + off.toNat) w.bytes = true)
    (hbytes : s.bytesAt (base.toNat + off.toNat) w.bytes = bs) :
    ∃ acc, (ioRead w base off s).complete = .next { s with
      draws := s.draws + 1
      trace := s.trace ++ acc ++ [.reply s.port ⟨.ok, ⟨word (le bs), 0, 0, 0, 0, 0⟩⟩] } := by
  rw [ioRead_of_aligned hle halign, reachesRange_of_backsRange hback, State.ioBytes_of_backed s _ _ _ hback, hbytes]
  exact ⟨_, rfl⟩

end Sys2Proof.Machine
end

section
/-! The obligations of the register window (R42, R43, R45, R187 to R190, R217). -/

namespace Sys2Proof.Machine

/-- Settles O50: `IO.R8` and `IO.R32` are one body with a width, and each outcome is a case of that body. -/
theorem ioReadMakesOneLittleEndianRead : Obligations.IoReadMakesOneLittleEndianRead := by
  intro s base len off i op n hmem
  have hbody : ∃ w : IoWidth, n = w.bytes ∧ exec i s = (ioRead w base off s).complete ∧
      decode { cw := op, a0 := base, a1 := len, a2 := off } = .ok i := by
    simp only [List.mem_cons, Prod.mk.injEq, List.not_mem_nil, or_false] at hmem
    obtain ⟨rfl, rfl, rfl⟩ | ⟨rfl, rfl, rfl⟩ := hmem
    · exact ⟨.w8, rfl, rfl, decode_of_pattern (op := .ioR8) rfl rfl rfl⟩
    · exact ⟨.w32, rfl, rfl, decode_of_pattern (op := .ioR32) rfl rfl rfl⟩
  obtain ⟨w, rfl, hexec, hdecode⟩ := hbody
  rw [hexec]
  refine ⟨hdecode, ioRead_of_beyond, fun hle halign hreach => ?_⟩
  refine ⟨s.ioBytes (base.toNat + off.toNat) 0 w.bytes, word (le (s.ioBytes (base.toNat + off.toNat) 0 w.bytes)),
    State.ioBytes_length _ _ _ _, word_toNat_of_lt (le_ioBytes_lt _ _ _ _), fun j hj hb => ?_, fun j hj hb => ?_, ?_⟩
  · rw [State.ioBytes_getElem? s _ _ _ _ hj, State.ioByte, if_pos hb]
  · rw [State.ioBytes_getElem? s _ _ _ _ hj, State.ioByte, hb, Nat.zero_add]
    rfl
  · rw [ioRead_of_aligned hle halign, reachesRange_of_forall hreach]
    exact congrArg Host.Outcome.next (by simp [State.respond, State.record, State.afterIoRead])

/-- Settles O51: `IO.W8` and `IO.W32` are one body with a width, and each outcome is a case of that body. -/
theorem ioWriteMakesOneLittleEndianWrite : Obligations.IoWriteMakesOneLittleEndianWrite := by
  intro s base len off value i op n hmem
  have hbody : ∃ w : IoWidth, n = w.bytes ∧ exec i s = (ioWrite w base off value s).complete ∧
      decode { cw := op, a0 := base, a1 := len, a2 := off, a3 := value } = .ok i := by
    simp only [List.mem_cons, Prod.mk.injEq, List.not_mem_nil, or_false] at hmem
    obtain ⟨rfl, rfl, rfl⟩ | ⟨rfl, rfl, rfl⟩ := hmem
    · exact ⟨.w8, rfl, rfl, decode_of_pattern (op := .ioW8) rfl rfl rfl⟩
    · exact ⟨.w32, rfl, rfl, decode_of_pattern (op := .ioW32) rfl rfl rfl⟩
  obtain ⟨w, rfl, hexec, hdecode⟩ := hbody
  rw [hexec]
  refine ⟨hdecode, ioWrite_of_beyond, fun hv hle halign hreach => ?_⟩
  have hlen := bytesLe_length w.bytes value.toNat
  refine ⟨(s.afterIoWrite (base.toNat + off.toNat) (bytesLe value.toNat w.bytes)).respond .ok {},
    bytesLe value.toNat w.bytes, hlen, le_bytesLe _ _ ?_, ?_, fun j hj hb => ?_, fun x hx => ?_, ?_⟩
  · rwa [show 256 = 2 ^ 8 from rfl, ← pow_mul]
  · rw [ioWrite_of_aligned hv hle halign, reachesRange_of_forall hreach]
    rfl
  · exact State.byteAt_afterIoWrite_inside (hlen.symm ▸ hj) hb
  · exact State.byteAt_afterIoWrite_outside (by rwa [hlen])
  · simp [State.respond, State.record, State.afterIoWrite]

/-- Settles O52: the four bytes of memory are those of the value, and a read of one or of all four returns them. -/
theorem registerWordsInMemoryAreLittleEndian : Obligations.RegisterWordsInMemoryAreLittleEndian := by
  intro s u base len off value r hback h hlast
  obtain ⟨hv, hle, halign, rfl⟩ := ioWrite_ok (w := .w32) h hlast
  change value.toNat < 2 ^ 32 at hv
  change base.toNat + off.toNat + 4 ≤ 2 ^ 64 at hle
  have hmem : ((s.afterIoWrite (base.toNat + off.toNat) (bytesLe value.toNat 4)).respond .ok {}).mem =
      (s.afterWrite (base.toNat + off.toNat) (bytesLe value.toNat 4)).mem :=
    Memory.storeBacked_of_backed s.cfg (bytesLe value.toNat 4) s.mem _ hback
  have hbytes : ((s.afterIoWrite (base.toNat + off.toNat) (bytesLe value.toNat 4)).respond .ok {}).bytesAt
      (base.toNat + off.toNat) 4 = bytesLe value.toNat 4 :=
    (State.bytesAt_of_mem hmem _ _).trans (State.bytesAt_afterWrite s _ (bytesLe value.toNat 4))
  refine ⟨?_, fun o j hj ho => ?_⟩
  · have hword : word (le (bytesLe value.toNat 4)) = value := by
      rw [le_bytesLe _ _ hv]
      exact BitVec.eq_of_toNat_eq (word_toNat_of_lt value.isLt)
    have hread := ioRead_of_backed (w := .w32)
      (s := (s.afterIoWrite (base.toNat + off.toNat) (bytesLe value.toNat 4)).respond .ok {}) hle halign hback hbytes
    rw [hword] at hread
    exact hread
  · have haddr : base.toNat + o.toNat = base.toNat + off.toNat + j := by omega
    have hb : backs s.cfg (base.toNat + off.toNat + j) = true := (backsRange_iff _ _ _).1 hback j hj
    have hbyte : ((s.afterIoWrite (base.toNat + off.toNat) (bytesLe value.toNat 4)).respond .ok {}).byteAt
        (base.toNat + off.toNat + j) = BitVec.ofNat 8 (value.toNat / 256 ^ j) := by
      have h := State.byteAt_afterIoWrite_inside (s := s) (bs := bytesLe value.toNat 4) hj hb
      rw [bytesLe_getElem? 4 _ _ hj] at h
      exact (Option.some.inj h).symm
    rw [← word_byte]
    refine ioRead_of_backed (w := .w8)
      (s := (s.afterIoWrite (base.toNat + off.toNat) (bytesLe value.toNat 4)).respond .ok {}) ?_ (Nat.mod_one _) ?_ ?_
    · change base.toNat + o.toNat + 1 ≤ 2 ^ 64
      omega
    · change (backs s.cfg (base.toNat + o.toNat) && true) = true
      rw [haddr, hb]
      rfl
    · rw [haddr]
      exact congrArg ([·]) hbyte

/-- Settles O53: the stops among the outcomes of each command with accesses. -/
theorem accessesWithNoStepStopByName : Obligations.AccessesWithNoStepStopByName := by
  refine ⟨fun s base len off value hle halign hv => ⟨?_, ?_⟩, fun s t f l addr v hl hle hv hex => ⟨?_, ?_⟩,
    fun s addr len seed hseed hle hex => ?_, fun s base len off value i n hmem hv hle halign hex => ?_⟩
  · exact ioRead_of_misaligned (w := .w32) hle halign
  · exact ioWrite_of_misaligned (w := .w32) hv hle halign
  · have hb := backsRange_eq_false hex
    obtain ⟨hgt, -⟩ | ⟨-, -, he⟩ | ⟨-, ht, -⟩ := execFget_cases t f addr s l hl
    · omega
    · exact he
    · cases hb.symm.trans ht
  · have hb := backsRange_eq_false hex
    obtain ⟨hbad, -⟩ | ⟨-, -, -, he⟩ | ⟨-, -, ht, -⟩ := execFput_cases t f addr v s l hl
    · omega
    · exact he
    · cases hb.symm.trans ht
  · have hb := backsRange_eq_false hex
    obtain ⟨hbad, -⟩ | ⟨-, -, -, he⟩ | ⟨-, -, ht, -⟩ := execCsum_cases addr len seed s
    · omega
    · exact he
    · cases hb.symm.trans ht
  · have hbody : ∃ w : IoWidth, n = w.bytes ∧
        (exec i s = (ioRead w base off s).complete ∨ exec i s = (ioWrite w base off value s).complete) := by
      simp only [List.mem_cons, Prod.mk.injEq, List.not_mem_nil, or_false] at hmem
      obtain ⟨rfl, rfl⟩ | ⟨rfl, rfl⟩ | ⟨rfl, rfl⟩ | ⟨rfl, rfl⟩ := hmem
      · exact ⟨.w8, rfl, .inl rfl⟩
      · exact ⟨.w32, rfl, .inl rfl⟩
      · exact ⟨.w8, rfl, .inr rfl⟩
      · exact ⟨.w32, rfl, .inr rfl⟩
    obtain ⟨w, rfl, hexec | hexec⟩ := hbody
    · rw [hexec, ioRead_of_aligned hle halign, reachesRange_eq_false hex]
      rfl
    · rw [hexec, ioWrite_of_aligned hv hle halign, reachesRange_eq_false hex]
      rfl

end Sys2Proof.Machine
end

section
/-! The checksum in natural numbers (spec/41_checksum.md R143 to R147): only the residue of the sum modulo 65535 counts, and
whether the sum is zero. -/

namespace Sys2Proof.Machine

/-- Two sums of words that the Checksum Engine does not tell apart. -/
def SameSum (m n : Nat) : Prop := m % 65535 = n % 65535 ∧ (m = 0 ↔ n = 0)

theorem SameSum.trans {l m n : Nat} (hlm : SameSum l m) (hmn : SameSum m n) : SameSum l n :=
  ⟨hlm.1.trans hmn.1, hlm.2.trans hmn.2⟩

theorem SameSum.of_eq {m n : Nat} (h : m = n) : SameSum m n := h ▸ ⟨rfl, .rfl⟩

theorem SameSum.add_right {m n : Nat} (h : SameSum m n) (k : Nat) : SameSum (m + k) (n + k) := by
  obtain ⟨hmod, hzero⟩ := h
  constructor <;> omega

theorem SameSum.complementOf_eq {m n : Nat} (h : SameSum m n) : complementOf m = complementOf n := by
  obtain ⟨hmod, hzero⟩ := h
  unfold complementOf
  split <;> split <;> omega

theorem sameSum_fold (v : BitVec 32) : SameSum (fold v).toNat v.toNat := ⟨fold_toNat_mod v, fold_toNat_eq_zero⟩

/-! ## The closed form -/

theorem complementOf_of_le {n : Nat} (h : n ≤ 0xFFFF) : complementOf n = 0xFFFF - n := by
  unfold complementOf
  split <;> omega

/-- A checksum is the closed form of its accumulator. -/
theorem csum_toNat (bs : List Byte) (seed : BitVec 32) :
    (csum bs seed).toNat = complementOf (csumAcc seed bs).toNat := by
  have hle := fold_toNat_le (csumAcc seed bs)
  rw [← (sameSum_fold _).complementOf_eq, complementOf_of_le hle, csum, BitVec.toNat_setWidth, BitVec.toNat_not]
  omega

theorem wordSum_nil : wordSum [] = 0 := rfl

theorem wordSum_singleton (hi : Byte) : wordSum [hi] = (beWord hi 0).toNat := by
  rw [beWord_toNat, wordSum]
  exact (Nat.add_zero _).symm

theorem wordSum_cons_cons (hi lo : Byte) (bs : List Byte) :
    wordSum (hi :: lo :: bs) = (beWord hi lo).toNat + wordSum bs := by
  rw [beWord_toNat, wordSum]

theorem wordSum_take_two (hi lo : Byte) (bs : List Byte) :
    wordSum ((hi :: lo :: bs).take 2) = (beWord hi lo).toNat := by
  simp [wordSum_cons_cons, wordSum_nil]

theorem wordSum_take_two_le (bs : List Byte) : wordSum (bs.take 2) ≤ 0xFFFF := by
  match bs with
  | [] => exact Nat.zero_le _
  | [hi] => exact (wordSum_singleton hi).trans_le (beWord_toNat_le hi 0)
  | hi :: lo :: bs => exact (wordSum_take_two hi lo bs).trans_le (beWord_toNat_le hi lo)

/-- The accumulator is the sum of the words, as far as the engine can tell, unless its first addition overflows: after that
one it holds 16 bits only. -/
theorem csumAcc_sameSum : ∀ (bs : List Byte) (seed : BitVec 32), seed.toNat + wordSum (bs.take 2) < 2 ^ 32 →
    SameSum (csumAcc seed bs).toNat (seed.toNat + wordSum bs)
  | [], _, _ => ⟨rfl, .rfl⟩
  | [hi], seed, hlt => by
    have hadd : (seed + beWord hi 0).toNat = seed.toNat + (beWord hi 0).toNat :=
      BitVec.toNat_add_of_lt (wordSum_singleton hi ▸ hlt)
    exact .of_eq (by rw [csumAcc_singleton, hadd, wordSum_singleton])
  | hi :: lo :: bs, seed, hlt => by
    have hadd : (seed + beWord hi lo).toNat = seed.toNat + (beWord hi lo).toNat :=
      BitVec.toNat_add_of_lt (wordSum_take_two hi lo bs ▸ hlt)
    have hfold := fold_toNat_le (seed + beWord hi lo)
    have htake := wordSum_take_two_le bs
    rw [csumAcc_cons_cons]
    refine ((csumAcc_sameSum bs _ (by omega)).trans ((sameSum_fold _).add_right _)).trans (.of_eq ?_)
    rw [hadd, wordSum_cons_cons, Nat.add_assoc]

/-- Where the first addition overflows, `2^32` is lost and nothing more: what is left has 16 bits. -/
theorem csumAcc_sameSum_of_carry (bs : List Byte) (seed : BitVec 32) (hge : 2 ^ 32 ≤ seed.toNat + wordSum (bs.take 2)) :
    SameSum (csumAcc seed bs).toNat (seed.toNat + wordSum bs - 2 ^ 32) := by
  have hseed := seed.isLt
  have hcarry {hi lo : Byte} (h : 2 ^ 32 ≤ seed.toNat + (beWord hi lo).toNat) :
      (seed + beWord hi lo).toNat = seed.toNat + (beWord hi lo).toNat - 2 ^ 32 := by
    have hword := beWord_toNat_le hi lo
    rw [BitVec.toNat_add]
    omega
  match bs with
  | [] => exact absurd hge (Nat.not_le.2 hseed)
  | [hi] =>
    have hsum := hcarry (hi := hi) (lo := 0) (wordSum_singleton hi ▸ hge)
    exact .of_eq (by rw [csumAcc_singleton, hsum, wordSum_singleton])
  | hi :: lo :: bs =>
    have hsum := hcarry (wordSum_take_two hi lo bs ▸ hge)
    have hword := beWord_toNat_le hi lo
    have htake := wordSum_take_two_le bs
    rw [wordSum_take_two] at hge
    rw [csumAcc_cons_cons, fold_of_le (by omega)]
    refine (csumAcc_sameSum bs _ (by omega)).trans (.of_eq ?_)
    rw [hsum, wordSum_cons_cons]
    omega

theorem csum_toNat_of_lt {bs : List Byte} {seed : BitVec 32} (h : seed.toNat + wordSum (bs.take 2) < 2 ^ 32) :
    (csum bs seed).toNat = complementOf (seed.toNat + wordSum bs) :=
  (csum_toNat bs seed).trans (csumAcc_sameSum bs seed h).complementOf_eq

/-! ## Filling a field with the checksum -/

/-- The big-endian bytes of a half-word add its value to the sum, where they replace a zero word. -/
theorem wordSum_set_set {hi lo : Byte} : ∀ (bs : List Byte) (k : Nat), k % 2 = 0 → bs[k]? = some 0 →
    bs[k + 1]? = some 0 → wordSum ((bs.set k hi).set (k + 1) lo) = wordSum bs + (hi.toNat * 256 + lo.toNat)
  | [], _, _, h, _ => nomatch h
  | [_], 0, _, _, h => nomatch h
  | [_], _ + 1, _, h, _ => nomatch h
  | a :: b :: bs, 0, _, ha, hb => by
    obtain rfl : a = 0#8 := Option.some.inj ha
    obtain rfl : b = 0#8 := Option.some.inj hb
    simp only [List.set_cons_zero, List.set_cons_succ, wordSum, BitVec.toNat_zero]
    omega
  | _ :: _ :: _, 1, hk, _, _ => absurd hk (by decide)
  | a :: b :: bs, k + 2, hk, ha, hb => by
    have ih := wordSum_set_set (hi := hi) (lo := lo) bs k (by omega) ha hb
    simp only [List.set_cons_succ, wordSum, ih, Nat.add_assoc]

/-- The value of a half-word from its two bytes. -/
theorem toNat_of_bytes (v : BitVec 16) : (v.extractLsb' 8 8).toNat * 256 + (v.extractLsb' 0 8).toNat = v.toNat := by
  have hv := v.isLt
  simp only [BitVec.extractLsb'_toNat, Nat.shiftRight_eq_div_pow]
  omega

theorem complementOf_add_self (n : Nat) : complementOf (n + complementOf n) = 0 := by
  unfold complementOf
  split <;> split <;> omega

/-! ## Swapping the bytes of every word -/

/-- To swap the bytes of a word is to multiply it by 256 modulo 65535. -/
theorem wordSum_swapBytes : ∀ bs : List Byte, bs.length % 2 = 0 → SameSum (wordSum (swapBytes bs)) (256 * wordSum bs)
  | [], _ => ⟨rfl, .rfl⟩
  | [_], hodd => absurd hodd (by simp)
  | hi :: lo :: bs, heven => by
    obtain ⟨hmod, hzero⟩ := wordSum_swapBytes bs (by simpa [Nat.add_assoc] using heven)
    constructor <;> simp only [swapBytes, wordSum] <;> omega

theorem complementOf_mul_256 (n : Nat) :
    complementOf (256 * n) = complementOf n % 256 * 256 + complementOf n / 256 := by
  unfold complementOf
  split <;> split <;> omega

theorem toNat_swapped (v : BitVec 16) :
    (v.extractLsb' 0 8 ++ v.extractLsb' 8 8).toNat = v.toNat % 256 * 256 + v.toNat / 256 := by
  have hv := v.isLt
  rw [BitVec.toNat_append, ← Nat.shiftLeft_add_eq_or_of_lt (BitVec.isLt _), Nat.shiftLeft_eq]
  simp only [BitVec.extractLsb'_toNat, Nat.shiftRight_eq_div_pow]
  omega

end Sys2Proof.Machine
end

section
/-! The obligations of the checksum function (R143 to R147). -/

namespace Sys2Proof.Machine

/-- Settles O32: the accumulator agrees with the sum of the words, less `2^32` where the first addition overflows. -/
theorem checksumHasTheClosedFormOrLosesOneCarry : Obligations.ChecksumHasTheClosedFormOrLosesOneCarry := by
  refine fun bs seed => ⟨csum_toNat_of_lt, fun hge => ⟨?_, ?_⟩⟩
  · have htake := wordSum_take_two_le bs
    omega
  · exact (csum_toNat bs seed).trans (csumAcc_sameSum_of_carry bs seed hge).complementOf_eq

/-- Settles O33: the filled field adds the complement of the sum to the sum. -/
theorem checksumOfAFilledHeaderIsZero : Obligations.ChecksumOfAFilledHeaderIsZero := by
  intro bs filled seed k heven _ hhi hlo hfilled hseed
  have hlt : seed.toNat + wordSum (bs.take 2) < 2 ^ 32 ∧ seed.toNat + wordSum (filled.take 2) < 2 ^ 32 := by
    have hbs := wordSum_take_two_le bs
    have hfs := wordSum_take_two_le filled
    omega
  obtain ⟨hbs, hfs⟩ := hlt
  have hsum : wordSum filled = wordSum bs + (csum bs seed).toNat := by
    rw [hfilled, wordSum_set_set bs k heven hhi hlo, toNat_of_bytes]
  apply BitVec.eq_of_toNat_eq
  calc (csum filled seed).toNat
      = complementOf (seed.toNat + wordSum filled) := csum_toNat_of_lt hfs
    _ = complementOf (seed.toNat + wordSum bs + complementOf (seed.toNat + wordSum bs)) := by
        rw [hsum, csum_toNat_of_lt hbs, Nat.add_assoc]
    _ = 0 := complementOf_add_self _

/-- Settles O35: the swapped words have 256 times the sum, and so the complement has its bytes swapped. -/
theorem swappingTheBytesOfEveryWordSwapsTheChecksum : Obligations.SwappingTheBytesOfEveryWordSwapsTheChecksum := by
  intro bs heven
  have hclosed (cs : List Byte) : (csum cs 0).toNat = complementOf (wordSum cs) := by
    have htake := wordSum_take_two_le cs
    have hlt : (0#32).toNat + wordSum (cs.take 2) < 2 ^ 32 := by
      rw [BitVec.toNat_zero]
      omega
    exact (csum_toNat_of_lt hlt).trans (by rw [BitVec.toNat_zero, Nat.zero_add])
  apply BitVec.eq_of_toNat_eq
  rw [toNat_swapped, hclosed, hclosed, (wordSum_swapBytes bs heven).complementOf_eq, complementOf_mul_256]

end Sys2Proof.Machine
end
